-- ==== Sys2Proof/Word.lean ====
section
/-! DEFINITION. The widths of `00_scope.md` R12 and the sizes of `20_memory.md` R60, as types. -/

namespace Sys2Proof

/-- 8 bits, numbered 7 down to 0 (R12). -/
abbrev Byte := BitVec 8

/-- A 16-bit unsigned size operand (R10, `SZW = 16`). -/
abbrev Half := BitVec 16

/-- 32 bits, numbered 31 down to 0 (R12). -/
abbrev Word := BitVec 32

/-- A buffer of 32 bytes: `BLK`, `TMP`, `KEYIN`, `DIN`, `DOUT` (R60). -/
abbrev Buf := Vector Byte 32

/-- The expanded-key file `W[0..119]` (R29). -/
abbrev Schedule := Vector Word 120

end Sys2Proof
end

