-- ==== Sys2Proof/Syntax.lean ====
section
/-! DEFINITION. The 23 operations of `30_encoding.md` R104, one constructor a row of the opcode table, and
the three kinds of word they are encoded in (R90). -/

namespace Sys2Proof

/-- The direction operand of CONSTRUCT (R91). -/
inductive Direction where
  | encrypt
  | decrypt
deriving DecidableEq, Repr, Inhabited

/-- The operations. `kstep` carries the word index and `ark` the round number of format U's `arg`
(R95), a lookup the byte looked up (R96); every other operand is a register the operation reads. -/
inductive Instr where
  -- format H: host commands
  | construct (dir : Direction)
  | xform
  | discard
  -- format U: key scheduler
  | kload
  | kstep (i : Byte)
  | kser
  -- format U: round datapath
  | ldblk
  | ark (r : Byte)
  | subb
  | isubb
  | shrow
  | ishrow
  | mixc
  | imixc
  | stblk
  -- format T: lookups
  | lutSbox (a : Byte)
  | lutIsbox (a : Byte)
  | lutM2 (a : Byte)
  | lutM3 (a : Byte)
  | lutM9 (a : Byte)
  | lutM11 (a : Byte)
  | lutM13 (a : Byte)
  | lutM14 (a : Byte)
deriving DecidableEq, Repr

/-- The three fixed-length formats, and no other (R90). -/
inductive Format where
  | host
  | micro
  | table
deriving DecidableEq, Repr

/-- A word on one of the three interfaces: a decoder knows a word's length from the interface it arrived
on (R90). -/
inductive CodeWord where
  | host (w : BitVec 8)
  | micro (w : BitVec 12)
  | table (w : BitVec 11)
deriving DecidableEq, Repr

end Sys2Proof
end

