-- ==== Sys2Proof/WellFormed.lean ====
section
/-! DEFINITION. Which operands an operation may carry in some configuration (`30_encoding.md` R95, R98). The
bounds that depend on the configuration registers are checked where the word is executed. -/

namespace Sys2Proof

/-- `KSTEP i` has `4 <= i <= 119` and `ARK r` has `r <= 14` in every configuration (R95, R97, D4); no
other operation has an operand to check: both directions and every byte looked up are legal. -/
def wellFormed : Instr → Bool
  | .kstep i => decide (4 ≤ i.toNat) && decide (i.toNat ≤ 119)
  | .ark r => decide (r.toNat ≤ 14)
  | .construct _ | .xform | .discard | .kload | .kser | .ldblk | .subb | .isubb | .shrow | .ishrow
  | .mixc | .imixc | .stblk => true
  | .lutSbox _ | .lutIsbox _ | .lutM2 _ | .lutM3 _ | .lutM9 _ | .lutM11 _ | .lutM13 _ | .lutM14 _ => true

end Sys2Proof
end

