-- ==== Sys2Proof/Decode.lean ====
section
/-! DEFINITION. The decoders and the encoder of the three formats, from `30_encoding.md` R90 to R98. -/

namespace Sys2Proof

/-- Why a word spells no operation. -/
inductive DecodeError where
  /-- Format H: `op` not 1, 2 or 3, or `z` not 0, or `dir = 1` with XFORM or DISCARD (R94). -/
  | illegalCommand
  /-- Format U: `code` 0x0 or 0xD..0xF (R98). -/
  | reservedCode
  /-- Format U: a non-zero `arg` with a code that takes none (R98). -/
  | argumentNotZero
  /-- Format U: KSTEP with an index no configuration has, outside 4..119 (R98, D4). -/
  | wordIndexOutOfRange
  /-- Format U: ARK with a round no configuration has, above 14 (R98, D4). -/
  | roundOutOfRange
deriving DecidableEq, Repr

/-- `dir = 0` encrypt, `dir = 1` decrypt (R91, D6). -/
def directionOfBit (b : BitVec 1) : Direction := if b = 0#1 then .encrypt else .decrypt

/-- The bit that spells a direction (R91, D6). -/
def directionBit : Direction → BitVec 1
  | .encrypt => 0#1
  | .decrypt => 1#1

/-- Format H: `op` in bits 7:4, `z` in bits 3:1, `dir` in bit 0 (R91, R94). -/
def decodeHost (w : BitVec 8) : Except DecodeError Instr :=
  let op := w.extractLsb' 4 4
  let z := w.extractLsb' 1 3
  let dir := w.extractLsb' 0 1
  if z ≠ 0#3 then .error .illegalCommand
  else if op = 1#4 then .ok (.construct (directionOfBit dir))
  else if dir ≠ 0#1 then .error .illegalCommand
  else if op = 2#4 then .ok .xform
  else if op = 3#4 then .ok .discard
  else .error .illegalCommand

/-- A format U operation that takes no operand: its `arg` is 0 (R97, R98). -/
def withoutArgument (i : Instr) (arg : Byte) : Except DecodeError Instr :=
  if arg = 0#8 then .ok i else .error .argumentNotZero

/-- Format U: `code` in bits 11:8, `arg` in bits 7:0 (R95, R97, R98). -/
def decodeMicro (w : BitVec 12) : Except DecodeError Instr :=
  let arg := w.extractLsb' 0 8
  match (w.extractLsb' 8 4).toNat with
  | 0x1 => withoutArgument .kload arg
  | 0x2 => if wellFormed (.kstep arg) then .ok (.kstep arg) else .error .wordIndexOutOfRange
  | 0x3 => withoutArgument .kser arg
  | 0x4 => withoutArgument .ldblk arg
  | 0x5 => if wellFormed (.ark arg) then .ok (.ark arg) else .error .roundOutOfRange
  | 0x6 => withoutArgument .subb arg
  | 0x7 => withoutArgument .isubb arg
  | 0x8 => withoutArgument .shrow arg
  | 0x9 => withoutArgument .ishrow arg
  | 0xA => withoutArgument .mixc arg
  | 0xB => withoutArgument .imixc arg
  | 0xC => withoutArgument .stblk arg
  | _ => .error .reservedCode

/-- Format T: `tsel` in bits 10:8, `idx` in bits 7:0; no address is reserved (R96). -/
def decodeTable (w : BitVec 11) : Instr :=
  let idx := w.extractLsb' 0 8
  match (w.extractLsb' 8 3).toNat with
  | 0 => .lutSbox idx
  | 1 => .lutIsbox idx
  | 2 => .lutM2 idx
  | 3 => .lutM3 idx
  | 4 => .lutM9 idx
  | 5 => .lutM11 idx
  | 6 => .lutM13 idx
  | _ => .lutM14 idx

/-- The operation a word spells on the interface it arrived on, or the reason it spells none (R90). -/
def decode : CodeWord → Except DecodeError Instr
  | .host w => decodeHost w
  | .micro w => decodeMicro w
  | .table w => .ok (decodeTable w)

/-- A format H word from its fields (R91). -/
def hostWord (op : BitVec 4) (dir : BitVec 1) : CodeWord := .host (op ++ 0#3 ++ dir)

/-- A format U word from its fields (R95). -/
def microWord (code : BitVec 4) (arg : Byte) : CodeWord := .micro (code ++ arg)

/-- A format T address from its fields (R96). -/
def tableWord (tsel : BitVec 3) (idx : Byte) : CodeWord := .table (tsel ++ idx)

/-- The word of an operation (R91, R95, R96). -/
def encode : Instr → CodeWord
  | .construct d => hostWord 0x1#4 (directionBit d)
  | .xform => hostWord 0x2#4 0#1
  | .discard => hostWord 0x3#4 0#1
  | .kload => microWord 0x1#4 0#8
  | .kstep i => microWord 0x2#4 i
  | .kser => microWord 0x3#4 0#8
  | .ldblk => microWord 0x4#4 0#8
  | .ark r => microWord 0x5#4 r
  | .subb => microWord 0x6#4 0#8
  | .isubb => microWord 0x7#4 0#8
  | .shrow => microWord 0x8#4 0#8
  | .ishrow => microWord 0x9#4 0#8
  | .mixc => microWord 0xA#4 0#8
  | .imixc => microWord 0xB#4 0#8
  | .stblk => microWord 0xC#4 0#8
  | .lutSbox a => tableWord 0#3 a
  | .lutIsbox a => tableWord 1#3 a
  | .lutM2 a => tableWord 2#3 a
  | .lutM3 a => tableWord 3#3 a
  | .lutM9 a => tableWord 4#3 a
  | .lutM11 a => tableWord 5#3 a
  | .lutM13 a => tableWord 6#3 a
  | .lutM14 a => tableWord 7#3 a

/-- The format an operation is encoded in (R91, R95, R96). -/
def formatOf (i : Instr) : Format :=
  match encode i with
  | .host _ => .host
  | .micro _ => .micro
  | .table _ => .table

/-- Whether a decoder accepts a word. -/
def accepts (w : CodeWord) : Bool :=
  match decode w with
  | .ok _ => true
  | .error _ => false

/-- DESIGN CHOICE (log entry 12). The interface word that `nbits` bits of value `w` stand for: 8 bits are
a format H word, 12 a format U word, 11 a format T address. The widths 11 and 12 both fill two whole bytes,
so 16 bits name no one interface: they are read as a format U word where the format U decoder accepts them,
else as a format T address where they fit in 11 bits, else as a format U word where they fit in 12. -/
def codeWordOf (nbits w : Nat) : Option CodeWord :=
  if nbits = 8 then
    if w < 2 ^ 8 then some (.host (BitVec.ofNat 8 w)) else none
  else if nbits = 11 then
    if w < 2 ^ 11 then some (.table (BitVec.ofNat 11 w)) else none
  else if nbits = 12 then
    if w < 2 ^ 12 then some (.micro (BitVec.ofNat 12 w)) else none
  else if nbits = 16 then
    if w < 2 ^ 12 ∧ accepts (.micro (BitVec.ofNat 12 w)) = true then some (.micro (BitVec.ofNat 12 w))
    else if w < 2 ^ 11 then some (.table (BitVec.ofNat 11 w))
    else if w < 2 ^ 12 then some (.micro (BitVec.ofNat 12 w))
    else none
  else none

/-- The operation the decoder reads from `nbits` bits of value `w`. -/
def decodeTableWord (nbits w : Nat) : Option Instr :=
  match codeWordOf nbits w with
  | none => none
  | some c =>
    match decode c with
    | .ok i => some i
    | .error _ => none

end Sys2Proof
end

