-- ==== Sys2Proof/Machine/Field.lean ====
section
/-! DEFINITION. The arithmetic of GF(2^8) and the affine transform, by the rules of `42_tables_gf.md`. The lookup
memories are defined from their listings (Machine/Tables.lean); `Sys2Proof/Laws/Tables.lean` checks that the two agree,
as R209 and R248 ask. -/

namespace Sys2Proof.Machine

/-- `xtime(b)`: left shift, XOR 0x1B when the shifted-out bit was set (R192). -/
def xtime (b : Byte) : Byte := if b.getLsbD 7 then (b <<< 1) ^^^ 0x1b#8 else b <<< 1

/-- The loop of R193 over the bits of the constant, from bit `k` up: `p` is `xtime^k(b)`. -/
def cmulFrom (c : Byte) : Nat → Nat → Byte → Byte → Byte
  | 0, _, acc, _ => acc
  | n + 1, k, acc, p => cmulFrom c n (k + 1) (if c.getLsbD k then acc ^^^ p else acc) (xtime p)

/-- `cmul(c, b)`, the field product `c · b` (R193, R195). -/
def cmul (c b : Byte) : Byte := cmulFrom c 8 0 0#8 b

/-- `inv(a)` as `a^254`, so `inv(0) = 0` (R197). -/
def fieldInverse (a : Byte) : Byte :=
  let a2 := cmul a a
  let a4 := cmul a2 a2
  let a8 := cmul a4 a4
  let a16 := cmul a8 a8
  let a32 := cmul a16 a16
  let a64 := cmul a32 a32
  let a128 := cmul a64 a64
  cmul a2 (cmul a4 (cmul a8 (cmul a16 (cmul a32 (cmul a64 a128)))))

/-- The affine transform `A` of the S-box (R211; log entry 13). -/
def affine (y : Byte) : Byte :=
  y ^^^ y.rotateLeft 1 ^^^ y.rotateLeft 2 ^^^ y.rotateLeft 3 ^^^ y.rotateLeft 4 ^^^ 0x63#8

end Sys2Proof.Machine
end

