-- ==== Sys2Proof/Config.lean ====
section
/-! DEFINITION. The parameter values of an instance (`00_scope.md` R7, R8), what the spec leaves open as a
parameter (R10), and the free values: constants with no body, so that nothing can be proved of what they
are (log entries 4, 14 and 16). -/

namespace Sys2Proof

/-- A block or key size in 32-bit words: 4, 6 or 8 (R7, R25). -/
inductive WordCount where
  | four
  | six
  | eight
deriving DecidableEq, Repr, Inhabited

/-- A round count: 10, 12 or 14 (R8, R25). -/
inductive Rounds where
  | ten
  | twelve
  | fourteen
deriving DecidableEq, Repr, Inhabited

/-! Free values drawn by number (log entry 4): the contents the spec calls unspecified. They are the same functions for
every instance (DESIGN CHOICE, log entry 19). -/

/-- `DIR` while the slot is EMPTY (R24, R223, R228). -/
opaque Config.freeDirection : Nat → Direction
/-- `NB` while the slot is EMPTY (R25, R223, R228). -/
opaque Config.freeBlockWords : Nat → WordCount
/-- `NK` while the slot is EMPTY (R25, R223, R228). -/
opaque Config.freeKeyWords : Nat → WordCount
/-- `NR` while the slot is EMPTY (R25, R223, R228). -/
opaque Config.freeRounds : Nat → Rounds
/-- `W` while the slot is EMPTY (R31, R223, R228). -/
opaque Config.freeSchedule : Nat → Schedule
/-- `BLK` after an XFORM, a DISCARD or a reset (R34, R228, R291). -/
opaque Config.freeBlock : Nat → Buf
/-- `TMP` after a row rotation, an XFORM, a DISCARD or a reset (R34, R155, R228, R291). -/
opaque Config.freeTemporary : Nat → Buf
/-- `DOUT` where a command leaves it unspecified (R36, R226, R227, R228, R302). -/
opaque Config.freeOutput : Nat → Buf
/-- `cw` after a reset event (R42). -/
opaque Config.freeCommandWord : Nat → Byte
/-- `bsz` after a reset event (R42). -/
opaque Config.freeBlockSize : Nat → Half
/-- `ksz` after a reset event (R42). -/
opaque Config.freeKeySize : Nat → Half
/-- `klen` after a reset event (R42). -/
opaque Config.freeKeyLength : Nat → Half
/-- `dlen` after a reset event (R42). -/
opaque Config.freeDataLength : Nat → Half
/-- `KEYIN` after a reset event (R42). -/
opaque Config.freeKeyInput : Nat → Buf
/-- `DIN` after a reset event (R42). -/
opaque Config.freeDataInput : Nat → Buf

/-! Elements that do not exist (log entry 14): no rule reads one (R69). -/

/-- Byte `n` of a 32-byte buffer, `n >= 32`. -/
opaque Config.absentByte : Nat → Byte
/-- Word `i` of the expanded-key file, `i >= 120`. -/
opaque Config.absentWord : Nat → Word
/-- Round constant `j`, `j = 0` or `j > 30` (R124). -/
opaque Config.absentRoundConstant : Nat → Word

/-- How many instances a chip holds beyond the first: `NINST = instancesBeyondFirst + 1 >= 1` (R10,
OPEN; log entry 16). -/
opaque Config.instancesBeyondFirst : Nat

end Sys2Proof
end

