-- ==== Sys2Proof/Machine/State.lean ====
section
/-! DEFINITION. Everything the spec gives one instance (`10_state.md`), the host's moves (`43_host_commands.md`
R231), the reasons a step can stop, and the state after reset (R42). -/

namespace Sys2Proof.Machine

/-- CR0 `STATE`: whether the slot holds a transform (R22). -/
inductive SlotState where
  | empty
  | ready
deriving DecidableEq, Repr

/-- The seven result codes ever produced (R261, U10). -/
inductive ResultCode where
  | ok
  | blockSize
  | keySize
  | keyLength
  | blockLength
  | noTransform
  | illegalCmd
deriving DecidableEq, Repr

/-- The moves of the host on one instance (R231), and reset from outside the core (R290). The host has no
move that reaches `W`, `BLK`, `TMP`, the configuration registers, the tables or `RCON` (R70). -/
inductive HostMove where
  /-- Write `bsz` (R35). -/
  | writeBsz (v : Half)
  /-- Write `ksz` (R35). -/
  | writeKsz (v : Half)
  /-- Write `klen` (R35). -/
  | writeKlen (v : Half)
  /-- Write `KEYIN[0..]`, byte 0 first (R35). -/
  | writeKeyin (bytes : List Byte)
  /-- Write `dlen` (R35). -/
  | writeDlen (v : Half)
  /-- Write `DIN[0..]`, byte 0 first (R35). -/
  | writeDin (bytes : List Byte)
  /-- Read `STATUS`, `rc` or `DOUT`: no side effect (R28, R231). -/
  | readResult
  /-- Present a command word; the command is one step (R220). -/
  | command (cw : Byte)
  /-- Present a command word; the sequencer then steps one micro-operation at a time (D19). -/
  | start (cw : Byte)
  /-- Reset from outside the core, at any time (R290, R291). -/
  | reset
deriving DecidableEq, Repr

/-- Why the machine stops. -/
inductive Fault where
  /-- Raised by the fetch: BUSY = 1 and `cw` names no running command or `UPC` lies outside its sequence.
  SAFE: no run reaches it, since a command sets `UPC` to 0 and ends when it equals the length (R38). -/
  | sequencerLost
deriving DecidableEq, Repr

/-- Why an operation has no meaning. -/
inductive Refusal where
  /-- Raised by `exec` alone, for an operation without a meaning yet. SAFE. -/
  | notModelled (mnemonic : String)
  /-- Raised by the fetch: the word at the micro-operation port is a reserved word of format U, which
  "have no meaning and no rule" (R98, U10). SAFE. -/
  | reservedWord
  /-- Raised by KSTEP and ARK: the operand lies outside the configuration's range, a reserved word of
  format U (R98, U10). SAFE. -/
  | reservedOperand
  /-- Raised by CONSTRUCT, XFORM and DISCARD while BUSY = 1: "what happens under it is undefined" (R300,
  U3). SAFE; no host move leads to it. -/
  | commandWhileBusy
deriving DecidableEq, Repr

/-- One instance, its host's moves, and the model's own bookkeeping. -/
structure State where
  /-- CR0 `STATE` (R22). -/
  slot : SlotState
  /-- CR1 `ERR` (R23). -/
  err : ResultCode
  /-- `rc` (R36). -/
  rc : ResultCode
  /-- CR2 `DIR` (R24). -/
  dir : Direction
  /-- CR3 `NB` (R25). -/
  nb : WordCount
  /-- CR4 `NK` (R25). -/
  nk : WordCount
  /-- CR5 `NR` (R25). -/
  nr : Rounds
  /-- `W[0..119]`, of which `EK[0..479]` is the byte view (R29, R30). -/
  w : Schedule
  /-- `BLK[0..31]` (R32). -/
  blk : Buf
  /-- `TMP[0..31]` (R33). -/
  tmp : Buf
  /-- `cw` (R35). -/
  cw : Byte
  /-- `bsz` (R35). -/
  bsz : Half
  /-- `ksz` (R35). -/
  ksz : Half
  /-- `klen` (R35). -/
  klen : Half
  /-- `KEYIN[0..31]` (R35). -/
  keyin : Buf
  /-- `dlen` (R35). -/
  dlen : Half
  /-- `DIN[0..31]` (R35). -/
  din : Buf
  /-- `DOUT[0..31]` (R36). -/
  dout : Buf
  /-- `UPC` (R38). -/
  upc : BitVec 7
  /-- `BUSY` (R39). -/
  busy : Bool
  /-- The record of contract violations, latest first, never cleared (R23, R270; log entry 7). -/
  violations : List ResultCode
  /-- Model's own: the host's moves still to come (log entry 8). -/
  host : List HostMove
  /-- Model's own: a format U word presented from outside the sequencer (log entry 9). -/
  microPort : Option (BitVec 12)
  /-- Model's own: a format T address presented from outside the datapath (log entry 9). -/
  tablePort : Option (BitVec 11)
  /-- Model's own: the byte a stand-alone lookup returned (log entry 9). -/
  tabOut : Byte
  /-- Model's own: how many free values have been drawn (log entry 4). -/
  drawn : Nat
deriving DecidableEq, Repr

/-- The state of R42. STATE, ERR, rc, UPC and BUSY have the values R42 gives; every register R42 calls
unspecified holds the value log entry 2 names (DESIGN CHOICE). -/
def State.reset : State where
  slot := .empty
  err := .ok
  rc := .ok
  dir := .encrypt
  nb := .four
  nk := .four
  nr := .ten
  w := Vector.replicate 120 0#32
  blk := Vector.replicate 32 0#8
  tmp := Vector.replicate 32 0#8
  cw := 0#8
  bsz := 0#16
  ksz := 0#16
  klen := 0#16
  keyin := Vector.replicate 32 0#8
  dlen := 0#16
  din := Vector.replicate 32 0#8
  dout := Vector.replicate 32 0#8
  upc := 0#7
  busy := false
  violations := []
  host := []
  microPort := none
  tablePort := none
  tabOut := 0#8
  drawn := 0

end Sys2Proof.Machine
end

