-- ==== Sys2Proof/Machine/Flags.lean ====
section
/-! DEFINITION. The status the core has: no condition codes, no flags (`10_state.md` R27), the codes of R261 and
the `STATUS` register of R28. -/

namespace Sys2Proof.Machine

/-- The 4-bit value of a result code (R261). -/
def resultBits : ResultCode → BitVec 4
  | .ok => 0#4
  | .blockSize => 1#4
  | .keySize => 2#4
  | .keyLength => 3#4
  | .blockLength => 4#4
  | .noTransform => 5#4
  | .illegalCmd => 6#4

/-- The second tier of errors, the caller's (R260, R261). -/
def isContractViolation : ResultCode → Bool
  | .blockLength | .noTransform | .illegalCmd => true
  | .ok | .blockSize | .keySize | .keyLength => false

/-- The 1-bit value of `STATE` (R22). -/
def slotBit : SlotState → BitVec 1
  | .empty => 0#1
  | .ready => 1#1

/-- `STATUS[0] = STATE`, `STATUS[3:1] = 0`, `STATUS[7:4] = ERR` (R28). -/
def State.status (s : State) : BitVec 8 := resultBits s.err ++ 0#3 ++ slotBit s.slot

end Sys2Proof.Machine
end

