-- ==== Sys2Proof/Machine/Operands.lean ====
section
/-! DEFINITION. Operand forms: sizes (`00_scope.md` R7, R8, R9), byte order (R13), byte and word access to the
spaces of `20_memory.md` R60, and the checks CONSTRUCT makes of its operands (R221). -/

namespace Sys2Proof.Machine

/-- A size in words as a number (R7). -/
def wordCount : WordCount → Nat
  | .four => 4
  | .six => 6
  | .eight => 8

/-- A round count as a number (R8). -/
def roundCount : Rounds → Nat
  | .ten => 10
  | .twelve => 12
  | .fourteen => 14

/-- `size div 32` for a legal size in bits, 128, 192 or 256; none for every other value (R92, R221). -/
def sizeInWords? (size : Half) : Option WordCount :=
  if size = 128#16 then some .four
  else if size = 192#16 then some .six
  else if size = 256#16 then some .eight
  else none

/-- "14 if Nb==8 or Nk==8; 12 if Nb==6 or Nk==6; else 10", tested in that order (R8). -/
def roundsFor (nb nk : WordCount) : Rounds :=
  if nb = .eight ∨ nk = .eight then .fourteen
  else if nb = .six ∨ nk = .six then .twelve
  else .ten

/-- `BL = 4*NB`, the block length in bytes (R9). -/
def blockBytes (nb : WordCount) : Nat := 4 * wordCount nb

/-- `KL = 4*NK`, the key length in bytes (R9). -/
def keyBytes (nk : WordCount) : Nat := 4 * wordCount nk

/-- `NW = NB*(NR+1)`, the length of the schedule in words (R9). -/
def scheduleWords (nb : WordCount) (nr : Rounds) : Nat := wordCount nb * (roundCount nr + 1)

/-- `be32(b0,b1,b2,b3)`: `b0` is the high-order byte (R13). -/
def be32 (b0 b1 b2 b3 : Byte) : Word := b0 ++ b1 ++ b2 ++ b3

/-- `byte_k(w)`, k in 0..3, is `w[31-8k : 24-8k]`: `byte_0` is the high-order byte (R13). -/
def byteOf (k : Nat) (w : Word) : Byte := w.extractLsb' (24 - 8 * k) 8

/-- `X[n]` of a 32-byte buffer (R15). -/
def bufByte (b : Buf) (n : Nat) : Byte := if h : n < 32 then b[n] else Config.absentByte n

/-- The buffer whose byte `n` is `f n` for `n < len` and unchanged from there up; every `f n` is read
before any byte is written (R15, "simultaneously"). -/
def bufFill (len : Nat) (f : Nat → Byte) (b : Buf) : Buf :=
  Vector.ofFn fun n => if n.val < len then f n.val else b[n]

/-- The buffer with the host's bytes written from index 0 up (R101). -/
def bufLoad (bytes : List Byte) (b : Buf) : Buf :=
  bufFill bytes.length (fun n => bytes.getD n 0#8) b

/-- `W[i]` (R29). -/
def State.word (s : State) (i : Nat) : Word := if h : i < 120 then s.w[i] else Config.absentWord i

/-- `EK[n] = byte_k(W[i])` with `n = 4i + k`: the byte view of the one storage (R30, R65). -/
def State.ekByte (s : State) (n : Nat) : Byte := byteOf (n % 4) (s.word (n / 4))

/-- `W[i] <- v` (R29); a word that does not exist is not written. -/
def State.setWord (s : State) (i : Nat) (v : Word) : State := { s with w := s.w.setIfInBounds i v }

/-- The three tests of CONSTRUCT in the order of R221 (R222, R269; log entry 15): the sizes in words, or the
first error. `8 * klen` is computed without wrap-around (R221, C13). -/
def State.checkConstruct (s : State) : Except ResultCode (WordCount × WordCount) :=
  match sizeInWords? s.bsz with
  | none => .error .blockSize
  | some nb =>
    match sizeInWords? s.ksz with
    | none => .error .keySize
    | some nk => if 8 * s.klen.toNat ≠ s.ksz.toNat then .error .keyLength else .ok (nb, nk)

/-- The two tests of XFORM in the order of R225 (R269). -/
def State.checkXform (s : State) : Except ResultCode Unit :=
  if s.slot ≠ .ready then .error .noTransform
  else if s.dlen.toNat ≠ blockBytes s.nb then .error .blockLength
  else .ok ()

/-- `KSTEP i` is a word of the configuration: `NK <= i <= NW-1` (R98, R125). -/
abbrev State.kstepInRange (s : State) (i : Nat) : Prop :=
  wordCount s.nk ≤ i ∧ i < scheduleWords s.nb s.nr

/-- `ARK r` is a word of the configuration: `r <= NR` (R98, R151). -/
abbrev State.arkInRange (s : State) (r : Nat) : Prop := r ≤ roundCount s.nr

end Sys2Proof.Machine
end

