-- ==== Sys2Proof/Machine/Ops.lean ====
section
/-! DEFINITION. The operations commands share: drawing free values, `raise` (`60_exceptions.md` R262), success,
the start and the end of a command, and reset (`70_reset_and_hazards.md` R290). -/

namespace Sys2Proof.Machine

/-- A step that answers a next state, a fault or a refusal. -/
abbrev Result := Host.Outcome State Fault Refusal

/-- `DIR`, `NB`, `NK`, `NR` and `W` become unspecified (R223, R228; log entry 4). DESIGN CHOICE (log entry 19): the values
are drawn by `drawn` alone, so two instances with equal counts draw equal ones; the spec leaves open whether the
unspecified contents of two instances coincide (R276). -/
def State.unspecifyInstance (s : State) : State :=
  { s with
    dir := Config.freeDirection s.drawn
    nb := Config.freeBlockWords s.drawn
    nk := Config.freeKeyWords s.drawn
    nr := Config.freeRounds s.drawn
    w := Config.freeSchedule s.drawn
    drawn := s.drawn + 1 }

/-- `TMP` becomes unspecified (R155; log entries 5, 19). -/
def State.unspecifyTmp (s : State) : State :=
  { s with tmp := Config.freeTemporary s.drawn, drawn := s.drawn + 1 }

/-- `BLK` and `TMP` become unspecified (R34; log entries 5, 19). -/
def State.unspecifyScratch (s : State) : State :=
  { s with
    blk := Config.freeBlock s.drawn
    tmp := Config.freeTemporary s.drawn
    drawn := s.drawn + 1 }

/-- `DOUT[kept..31]` becomes unspecified (R36; log entries 6, 19). -/
def State.unspecifyDout (s : State) (kept : Nat) : State :=
  { s with dout := bufFill kept (bufByte s.dout) (Config.freeOutput s.drawn), drawn := s.drawn + 1 }

/-- `rc <- OK ; ERR <- OK` (R221, R225, R228). -/
def State.succeed (s : State) : State := { s with rc := .ok, err := .ok }

/-- `raise E` (R262): `rc <- E`, `ERR <- E`, `BUSY <- 0`, nothing else; a contract violation is also entered
in the model's own record (R270; log entry 7). -/
def State.raise (s : State) (e : ResultCode) : State :=
  { s with
    rc := e
    err := e
    busy := false
    violations := if isContractViolation e then e :: s.violations else s.violations }

/-- A command's sequence starts: `BUSY <- 1`, `UPC` is 0 (R38, R220). -/
def State.begin (s : State) : State := { s with busy := true, upc := 0#7 }

/-- `UPC` goes up by one after a micro-operation (R38). -/
def State.tick (s : State) : State := { s with upc := s.upc + 1#7 }

/-- A command's sequence has ended: `BUSY <- 0` (R220), and `UPC` is 0 again for the next command (R38; log
entry 1). -/
def State.idle (s : State) : State := { s with busy := false, upc := 0#7 }

/-- `NB`, `NK` and `NR` written together (R25, R221). -/
def State.configure (s : State) (nb nk : WordCount) : State :=
  { s with nb := nb, nk := nk, nr := roundsFor nb nk }

/-- A failed CONSTRUCT (R221, R223): the slot is EMPTY, the instance's registers and `DOUT` are unspecified, the
error is raised. -/
def State.failConstruct (s : State) (e : ResultCode) : State :=
  (({ s with slot := .empty }.unspecifyInstance).unspecifyDout 0).raise e

/-- A failed XFORM (R226, R227): nothing runs, `DOUT` is unspecified, the error is raised. -/
def State.failXform (s : State) (e : ResultCode) : State := (s.unspecifyDout 0).raise e

/-- CONSTRUCT up to the start of its sequence (R221): `STATE <- EMPTY`, the three tests, `NB`, `NK`, `NR`. -/
def State.openConstruct (s : State) : State :=
  match s.checkConstruct with
  | .error e => s.failConstruct e
  | .ok (nb, nk) => ({ s with slot := .empty }.configure nb nk).begin

/-- CONSTRUCT after its sequence (R221): `DIR <- dir`, `STATE <- READY`, success; `DOUT` is unspecified (R36,
R302; log entry 6). -/
def State.closeConstruct (s : State) (d : Direction) : State :=
  ({ s with dir := d, slot := .ready }.unspecifyDout 0).succeed.idle

/-- XFORM up to the start of its sequence (R225): the two tests. -/
def State.openXform (s : State) : State :=
  match s.checkXform with
  | .error e => s.failXform e
  | .ok () => s.begin

/-- XFORM after its sequence (R225): success; the scratch buffers (R34) and `DOUT[4*NB..31]` (R36) are
unspecified. -/
def State.closeXform (s : State) : State :=
  (s.unspecifyScratch.unspecifyDout (blockBytes s.nb)).succeed.idle

/-- Reset from outside the core, at any time (R290, R291): `STATE`, `ERR`, `rc`, `BUSY` and `UPC` as R42 says, every
other register of R42 unspecified (log entries 18, 19). -/
def State.resetEvent (s : State) : State :=
  let t := (s.unspecifyInstance.unspecifyScratch).unspecifyDout 0
  { t with
    slot := .empty
    err := .ok
    rc := .ok
    cw := Config.freeCommandWord t.drawn
    bsz := Config.freeBlockSize t.drawn
    ksz := Config.freeKeySize t.drawn
    klen := Config.freeKeyLength t.drawn
    keyin := Config.freeKeyInput t.drawn
    dlen := Config.freeDataLength t.drawn
    din := Config.freeDataInput t.drawn
    upc := 0#7
    busy := false
    drawn := t.drawn + 1 }

end Sys2Proof.Machine
end

