-- ==== Sys2Proof/Machine/KeySchedule.lean ====
section
/-! DEFINITION. The key scheduler: its functions and its three micro-operations (`40_key_scheduler.md`). -/

namespace Sys2Proof.Machine

/-- `RotWord(be32(a0,a1,a2,a3)) = be32(a1,a2,a3,a0)` (R121). -/
def rotWord (t : Word) : Word := t.extractLsb' 0 24 ++ t.extractLsb' 24 8

/-- The S-box on each byte of a word; the positions do not move (R122). -/
def subWord (t : Word) : Word :=
  be32 (tabRead .sbox (byteOf 0 t)) (tabRead .sbox (byteOf 1 t))
    (tabRead .sbox (byteOf 2 t)) (tabRead .sbox (byteOf 3 t))

/-- `rc(j+1)`: 0x01 doubled `j` times (R124). -/
def roundConstantByte : Nat → Byte
  | 0 => 0x01#8
  | j + 1 => xtime (roundConstantByte j)

/-- `RCON(j)`, j in 1..30: only the high-order byte is non-zero (R123, R124). No other index exists (R21, U6;
log entry 14). -/
def rcon (j : Nat) : Word :=
  if 1 ≤ j ∧ j ≤ 30 then be32 (roundConstantByte (j - 1)) 0#8 0#8 0#8 else Config.absentRoundConstant j

/-- The effect of KLOAD (R120): the raw key as `NK` big-endian words in `W[0..NK-1]`. -/
def State.kload (s : State) : State :=
  { s with
    w := Vector.ofFn fun j =>
      if j.val < wordCount s.nk then
        be32 (bufByte s.keyin (4 * j.val)) (bufByte s.keyin (4 * j.val + 1))
          (bufByte s.keyin (4 * j.val + 2)) (bufByte s.keyin (4 * j.val + 3))
      else s.w[j] }

/-- `temp` of KSTEP at position `i`, after its three cases in the order of R125. -/
def State.kstepTemp (s : State) (i : Nat) : Word :=
  let nk := wordCount s.nk
  let temp := s.word (i - 1)
  if i % nk = 0 then subWord (rotWord temp) ^^^ rcon (i / nk)
  else if 6 < nk ∧ i % nk = 4 then subWord temp
  else temp

/-- The effect of `KSTEP i` (R125): `W[i] <- W[i-NK] xor temp`. -/
def State.kstep (s : State) (i : Nat) : State :=
  s.setWord i (s.word (i - wordCount s.nk) ^^^ s.kstepTemp i)

/-- KLOAD (R120). -/
def execKload (s : State) : Result := .next s.kload

/-- `KSTEP i` (R125); an index outside `NK..NW-1` is a reserved word with "no meaning and no rule" (R98, U10). -/
def execKstep (i : Byte) (s : State) : Result :=
  if s.kstepInRange i.toNat then .next (s.kstep i.toNat) else .refused .reservedOperand

/-- KSER (R126): `W` and `EK` are two views of one storage, so nothing is written (R30, D23). -/
def execKser (s : State) : Result := .next s

end Sys2Proof.Machine
end

