-- ==== Sys2Proof/Machine/RoundDatapath.lean ====
section
/-! DEFINITION. The round-pipeline datapath: its nine micro-operations (`41_round_datapath.md`). Byte `n` of a block
is row `n mod 4` of column `n div 4` (`00_scope.md` R16). -/

namespace Sys2Proof.Machine

/-- The working block with its used bytes replaced; every right-hand side is the block before (R15, R67). -/
def State.mapBlock (s : State) (f : Nat → Byte) : State :=
  { s with blk := bufFill (blockBytes s.nb) f s.blk }

/-- The shift of row 0 is 0 and of rows 1 to 3 `SHIFT[0..2]`, selected by `NB` and the direction (R26, R154,
R156). -/
def rowShift (nb : WordCount) (d : Direction) (row : Nat) : Nat :=
  match row, d, nb with
  | 0, _, _ => 0
  | 1, .encrypt, _ => 1
  | 2, .encrypt, .four | 2, .encrypt, .six => 2
  | 2, .encrypt, .eight => 3
  | _, .encrypt, .four | _, .encrypt, .six => 3
  | _, .encrypt, .eight => 4
  | 1, .decrypt, .four => 3
  | 1, .decrypt, .six => 5
  | 1, .decrypt, .eight => 7
  | 2, .decrypt, .four => 2
  | 2, .decrypt, .six => 4
  | 2, .decrypt, .eight => 5
  | _, .decrypt, .four => 1
  | _, .decrypt, .six => 3
  | _, .decrypt, .eight => 4

/-- `src(n)`: the byte that a row rotation brings to place `n`, column `(c + s_k) mod NB` of the same row
(R154, R157, R158). -/
def rotationSource (nb : WordCount) (d : Direction) (n : Nat) : Nat :=
  4 * ((n / 4 + rowShift nb d (n % 4)) % wordCount nb) + n % 4

/-- A row rotation by the shifts of a direction; it goes through `TMP`, whose content is unspecified to every
later rule (R154, R155; log entry 5). -/
def State.rotateRows (s : State) (d : Direction) : State :=
  (s.mapBlock fun n => bufByte s.blk (rotationSource s.nb d n)).unspecifyTmp

/-- One output of the forward column formula (R160). -/
def forwardMix (s0 s1 s2 s3 : Byte) (row : Nat) : Byte :=
  match row with
  | 0 => tabRead .m2 s0 ^^^ tabRead .m3 s1 ^^^ s2 ^^^ s3
  | 1 => s0 ^^^ tabRead .m2 s1 ^^^ tabRead .m3 s2 ^^^ s3
  | 2 => s0 ^^^ s1 ^^^ tabRead .m2 s2 ^^^ tabRead .m3 s3
  | _ => tabRead .m3 s0 ^^^ s1 ^^^ s2 ^^^ tabRead .m2 s3

/-- One output of the inverse column formula (R161). -/
def inverseMix (s0 s1 s2 s3 : Byte) (row : Nat) : Byte :=
  match row with
  | 0 => tabRead .m14 s0 ^^^ tabRead .m11 s1 ^^^ tabRead .m13 s2 ^^^ tabRead .m9 s3
  | 1 => tabRead .m9 s0 ^^^ tabRead .m14 s1 ^^^ tabRead .m11 s2 ^^^ tabRead .m13 s3
  | 2 => tabRead .m13 s0 ^^^ tabRead .m9 s1 ^^^ tabRead .m14 s2 ^^^ tabRead .m11 s3
  | _ => tabRead .m11 s0 ^^^ tabRead .m13 s1 ^^^ tabRead .m9 s2 ^^^ tabRead .m14 s3

/-- A column formula at byte `n` of a block: row `n mod 4` of column `n div 4` (R159). -/
def mixedByte (formula : Byte → Byte → Byte → Byte → Nat → Byte) (b : Buf) (n : Nat) : Byte :=
  formula (bufByte b (4 * (n / 4))) (bufByte b (4 * (n / 4) + 1))
    (bufByte b (4 * (n / 4) + 2)) (bufByte b (4 * (n / 4) + 3)) (n % 4)

/-- The effect of LDBLK (R150). -/
def State.ldblk (s : State) : State := s.mapBlock (bufByte s.din)

/-- The effect of `ARK r` (R151): `BLK[n] <- BLK[n] xor EK[r*BL + n]`. -/
def State.ark (s : State) (r : Nat) : State :=
  s.mapBlock fun n => bufByte s.blk n ^^^ s.ekByte (r * blockBytes s.nb + n)

/-- The effect of SUBB (R152). -/
def State.subb (s : State) : State := s.mapBlock fun n => tabRead .sbox (bufByte s.blk n)

/-- The effect of ISUBB (R153). -/
def State.isubb (s : State) : State := s.mapBlock fun n => tabRead .isbox (bufByte s.blk n)

/-- The effect of MIXC (R160). -/
def State.mixc (s : State) : State := s.mapBlock (mixedByte forwardMix s.blk)

/-- The effect of IMIXC (R161). -/
def State.imixc (s : State) : State := s.mapBlock (mixedByte inverseMix s.blk)

/-- The effect of STBLK (R162). -/
def State.stblk (s : State) : State :=
  { s with dout := bufFill (blockBytes s.nb) (bufByte s.blk) s.dout }

/-- LDBLK (R150). -/
def execLdblk (s : State) : Result := .next s.ldblk

/-- `ARK r` (R151); a round above `NR` is a reserved word with "no meaning and no rule" (R98, U10). -/
def execArk (r : Byte) (s : State) : Result :=
  if s.arkInRange r.toNat then .next (s.ark r.toNat) else .refused .reservedOperand

/-- SUBB (R152). -/
def execSubb (s : State) : Result := .next s.subb

/-- ISUBB (R153). -/
def execIsubb (s : State) : Result := .next s.isubb

/-- SHROW (R157): the row rotation with the encrypt shifts. -/
def execShrow (s : State) : Result := .next (s.rotateRows .encrypt)

/-- ISHROW (R158): the row rotation with the decrypt shifts. -/
def execIshrow (s : State) : Result := .next (s.rotateRows .decrypt)

/-- MIXC (R160). -/
def execMixc (s : State) : Result := .next s.mixc

/-- IMIXC (R161). -/
def execImixc (s : State) : Result := .next s.imixc

/-- STBLK (R162). -/
def execStblk (s : State) : Result := .next s.stblk

end Sys2Proof.Machine
end

