-- ==== Sys2Proof/Machine/Sequencer.lean ====
section
/-! DEFINITION. The fixed sequences of micro-operations a command expands to (`40_key_scheduler.md` R130,
`41_round_datapath.md` R170, R171) and running one of them. -/

namespace Sys2Proof.Machine

/-- The sequencer's steps, one for each code of format U (R95). -/
inductive MicroOp where
  | kload
  | kstep (i : Nat)
  | kser
  | ldblk
  | ark (r : Nat)
  | subb
  | isubb
  | shrow
  | ishrow
  | mixc
  | imixc
  | stblk
deriving DecidableEq, Repr

/-- The operation a step of the sequencer is (R95). -/
def MicroOp.toInstr : MicroOp → Instr
  | .kload => .kload
  | .kstep i => .kstep (BitVec.ofNat 8 i)
  | .kser => .kser
  | .ldblk => .ldblk
  | .ark r => .ark (BitVec.ofNat 8 r)
  | .subb => .subb
  | .isubb => .isubb
  | .shrow => .shrow
  | .ishrow => .ishrow
  | .mixc => .mixc
  | .imixc => .imixc
  | .stblk => .stblk

/-- `KeySeq(NB, NK, NR)`: KLOAD, then KSTEP for every `i` in `NK..NW-1` upwards, then KSER (R130). -/
def keySeq (nb nk : WordCount) (nr : Rounds) : List MicroOp :=
  let first := wordCount nk
  MicroOp.kload ::
    ((List.range' first (scheduleWords nb nr - first)).map MicroOp.kstep ++ [MicroOp.kser])

/-- `EncSeq(NR)` (R170): the final round has no MIXC (R163). -/
def encSeq (nr : Rounds) : List MicroOp :=
  let last := roundCount nr
  [.ldblk, .ark 0] ++
    ((List.range' 1 (last - 1)).flatMap fun r => [.subb, .shrow, .mixc, .ark r]) ++
    [.subb, .shrow, .ark last, .stblk]

/-- `DecSeq(NR)` (R171): the first inverse step has no IMIXC (R163). -/
def decSeq (nr : Rounds) : List MicroOp :=
  let last := roundCount nr
  [.ldblk, .ark last, .ishrow, .isubb] ++
    ((List.range' 1 (last - 1)).reverse.flatMap fun r => [.ark r, .imixc, .ishrow, .isubb]) ++
    [.ark 0, .stblk]

/-- The sequence XFORM runs, by the direction fixed at construction (R225). -/
def xformSeq (d : Direction) (nr : Rounds) : List MicroOp :=
  match d with
  | .encrypt => encSeq nr
  | .decrypt => decSeq nr

/-- The effect of one micro-operation of a sequence; none can fail (R176). -/
def MicroOp.apply (m : MicroOp) (s : State) : State :=
  match m with
  | .kload => s.kload
  | .kstep i => s.kstep i
  | .kser => s
  | .ldblk => s.ldblk
  | .ark r => s.ark r
  | .subb => s.subb
  | .isubb => s.isubb
  | .shrow => s.rotateRows .encrypt
  | .ishrow => s.rotateRows .decrypt
  | .mixc => s.mixc
  | .imixc => s.imixc
  | .stblk => s.stblk

/-- The micro-operations of a list, one after another, `UPC` going up by one after each (R38, R71). -/
def State.runMicro (s : State) (ms : List MicroOp) : State := ms.foldl (fun t m => (m.apply t).tick) s

/-- The sequence of the command that is running, named by `cw`, which the host must not change while it runs
(R38, R231, R301). -/
def State.sequence? (s : State) : Option (List MicroOp) :=
  match decodeHost s.cw with
  | .ok (.construct _) => some (keySeq s.nb s.nk s.nr)
  | .ok .xform => some (xformSeq s.dir s.nr)
  | _ => none

/-- What the running command does after its sequence (R221, R225). -/
def State.closeCommand (s : State) : State :=
  match decodeHost s.cw with
  | .ok (.construct d) => s.closeConstruct d
  | .ok .xform => s.closeXform
  | _ => s

/-- After a micro-operation the sequencer issued: `UPC` goes up by one, and "the command ends when UPC equals the
length of the sequence" (R38). -/
def State.advance (s : State) : State :=
  let t := s.tick
  match t.sequence? with
  | some ms => if t.upc.toNat = ms.length then t.closeCommand else t
  | none => t

end Sys2Proof.Machine
end

