-- ==== Sys2Proof/Machine/HostCommands.lean ====
section
/-! DEFINITION. The three host commands, each one atomic transition (`43_host_commands.md` R220). While BUSY = 1 a
command is not the host's to issue and its outcome is undefined (`70_reset_and_hazards.md` R300). -/

namespace Sys2Proof.Machine

/-- CONSTRUCT (R221): the tests, then `KeySeq` to its end, then `DIR`, READY and success. -/
def execConstruct (d : Direction) (s : State) : Result :=
  if s.busy then .refused .commandWhileBusy
  else
    let t := s.openConstruct
    if t.busy then .next ((t.runMicro (keySeq t.nb t.nk t.nr)).closeConstruct d) else .next t

/-- XFORM (R225): the tests, then the sequence of the direction to its end, then success. -/
def execXform (s : State) : Result :=
  if s.busy then .refused .commandWhileBusy
  else
    let t := s.openXform
    if t.busy then .next ((t.runMicro (xformSeq t.dir t.nr)).closeXform) else .next t

/-- DISCARD (R228): the slot is EMPTY and everything but `rc` and `ERR` is unspecified; on an EMPTY slot it "changes
nothing but `rc` and `ERR`". -/
def execDiscard (s : State) : Result :=
  if s.busy then .refused .commandWhileBusy
  else if s.slot = .empty then .next s.succeed
  else
    .next ((({ s with slot := .empty }.unspecifyInstance).unspecifyScratch).unspecifyDout 0).succeed

end Sys2Proof.Machine
end

