-- ==== Sys2Proof/Machine/Lookup.lean ====
section
/-! DEFINITION. The eight lookups (`42_tables_gf.md` R201 to R208). Each "takes one byte and returns one byte"; the
model keeps the byte returned in `tabOut` (log entry 9). -/

namespace Sys2Proof.Machine

/-- A lookup answers with one byte and changes nothing else (R68, R210). -/
def State.lookup (s : State) (t : Table) (a : Byte) : State := { s with tabOut := tabRead t a }

/-- `LUT.SBOX a` (R201). -/
def execLutSbox (a : Byte) (s : State) : Result := .next (s.lookup .sbox a)

/-- `LUT.ISBOX a` (R202). -/
def execLutIsbox (a : Byte) (s : State) : Result := .next (s.lookup .isbox a)

/-- `LUT.M2 a` (R203). -/
def execLutM2 (a : Byte) (s : State) : Result := .next (s.lookup .m2 a)

/-- `LUT.M3 a` (R204). -/
def execLutM3 (a : Byte) (s : State) : Result := .next (s.lookup .m3 a)

/-- `LUT.M9 a` (R205). -/
def execLutM9 (a : Byte) (s : State) : Result := .next (s.lookup .m9 a)

/-- `LUT.M11 a` (R206). -/
def execLutM11 (a : Byte) (s : State) : Result := .next (s.lookup .m11 a)

/-- `LUT.M13 a` (R207). -/
def execLutM13 (a : Byte) (s : State) : Result := .next (s.lookup .m13 a)

/-- `LUT.M14 a` (R208). -/
def execLutM14 (a : Byte) (s : State) : Result := .next (s.lookup .m14 a)

end Sys2Proof.Machine
end

