-- ==== Sys2Proof/Machine/Dispatch.lean ====
section
/-! DEFINITION. One arm per row of the opcode table (`30_encoding.md` R104). -/

namespace Sys2Proof.Machine

def exec (i : Instr) (s : State) : Host.Outcome State Fault Refusal :=
  match i with
  | .construct d => Sys2Proof.Machine.execConstruct d s
  | .xform => Sys2Proof.Machine.execXform s
  | .discard => Sys2Proof.Machine.execDiscard s
  | .kload => Sys2Proof.Machine.execKload s
  | .kstep n => Sys2Proof.Machine.execKstep n s
  | .kser => Sys2Proof.Machine.execKser s
  | .ldblk => Sys2Proof.Machine.execLdblk s
  | .ark r => Sys2Proof.Machine.execArk r s
  | .subb => Sys2Proof.Machine.execSubb s
  | .isubb => Sys2Proof.Machine.execIsubb s
  | .shrow => Sys2Proof.Machine.execShrow s
  | .ishrow => Sys2Proof.Machine.execIshrow s
  | .mixc => Sys2Proof.Machine.execMixc s
  | .imixc => Sys2Proof.Machine.execImixc s
  | .stblk => Sys2Proof.Machine.execStblk s
  | .lutSbox a => Sys2Proof.Machine.execLutSbox a s
  | .lutIsbox a => Sys2Proof.Machine.execLutIsbox a s
  | .lutM2 a => Sys2Proof.Machine.execLutM2 a s
  | .lutM3 a => Sys2Proof.Machine.execLutM3 a s
  | .lutM9 a => Sys2Proof.Machine.execLutM9 a s
  | .lutM11 a => Sys2Proof.Machine.execLutM11 a s
  | .lutM13 a => Sys2Proof.Machine.execLutM13 a s
  | .lutM14 a => Sys2Proof.Machine.execLutM14 a s

end Sys2Proof.Machine
end

