-- ==== Sys2Proof/Machine/Fetch.lean ====
section
/-! DEFINITION. What moves next (`00_scope.md` R11): a word at one of the internal ports, a reset, the sequencer while
BUSY = 1, the host while BUSY = 0 (`70_reset_and_hazards.md` R300). -/

namespace Sys2Proof.Machine

/-- What a step adds after the operation it ran. -/
inductive Retire where
  /-- Nothing. -/
  | plain
  /-- The sequencer issued it: `UPC` goes up and the command may end (R38). -/
  | sequenced
deriving DecidableEq, Repr

/-- What a step is. -/
inductive Fetched where
  /-- Run an operation at a state, then retire it. -/
  | issue (i : Instr) (t : State) (r : Retire)
  /-- No operation runs: the next state is this one. -/
  | settled (t : State)
  /-- The word fetched has no meaning. -/
  | reserved (r : Refusal)
  /-- There is nothing to fetch where a word must be. -/
  | stuck (f : Fault)
deriving DecidableEq, Repr

/-- The sequencer's next micro-operation: the entry of the running sequence at `UPC` (R38). -/
def State.fetchMicroOp (s : State) : Fetched :=
  match s.sequence? with
  | none => .stuck .sequencerLost
  | some ms =>
    match ms[s.upc.toNat]? with
    | none => .stuck .sequencerLost
    | some m => .issue m.toInstr s .sequenced

/-- The host presents a command word and the command runs as one step; a word that spells no command raises
E_ILLEGAL_CMD and changes nothing else (R94, R220, R268). -/
def State.presentCommand (s : State) (cw : Byte) : Fetched :=
  let t := { s with cw := cw }
  match decodeHost cw with
  | .ok i => .issue i t .plain
  | .error _ => .settled (t.raise .illegalCmd)

/-- The same at the sequencer's grain (D19): the command's tests are made, and if they hold its sequence is
started. DISCARD has no sequence (R305). -/
def State.startCommand (s : State) (cw : Byte) : Fetched :=
  let t := { s with cw := cw }
  match decodeHost cw with
  | .ok (.construct _) => .settled t.openConstruct
  | .ok .xform => .settled t.openXform
  | .ok i => .issue i t .plain
  | .error _ => .settled (t.raise .illegalCmd)

/-- One move of the host (R231), already taken off the list. -/
def State.fetchMove (s : State) (m : HostMove) : Fetched :=
  match m with
  | .writeBsz v => .settled { s with bsz := v }
  | .writeKsz v => .settled { s with ksz := v }
  | .writeKlen v => .settled { s with klen := v }
  | .writeKeyin bytes => .settled { s with keyin := bufLoad bytes s.keyin }
  | .writeDlen v => .settled { s with dlen := v }
  | .writeDin bytes => .settled { s with din := bufLoad bytes s.din }
  | .readResult => .settled s
  | .command cw => s.presentCommand cw
  | .start cw => s.startCommand cw
  | .reset => .settled s.resetEvent

/-- The host or the sequencer: a reset comes at any time (R291), every other move of the host waits while BUSY = 1
(R300), and with no move to make the core "holds its state and waits" (R275). -/
def State.fetchAgent (s : State) : Fetched :=
  match s.host with
  | [] => if s.busy then s.fetchMicroOp else .settled s
  | m :: rest =>
    if s.busy = true ∧ m ≠ .reset then s.fetchMicroOp else { s with host := rest }.fetchMove m

/-- What the step at a state is: a word at an internal port comes first (log entry 9). -/
def State.fetch (s : State) : Fetched :=
  match s.tablePort with
  | some a => .issue (decodeTable a) { s with tablePort := none } .plain
  | none =>
    match s.microPort with
    | some w =>
      match decodeMicro w with
      | .ok i => .issue i { s with microPort := none } .plain
      | .error _ => .reserved .reservedWord
    | none => s.fetchAgent

/-- What a step adds after the operation it ran. -/
def State.retire (s : State) (r : Retire) : State :=
  match r with
  | .plain => s
  | .sequenced => s.advance

/-- A step's outcome from the outcome of the operation it ran. -/
def retireResult (r : Retire) (o : Result) : Result :=
  match o with
  | .next t => .next (t.retire r)
  | .fault f => .fault f
  | .refused q => .refused q

/-- The state in which the very next step runs the word: a format H word is the host's next move, with BUSY = 0; a
format U word or a format T address stands at its port (log entries 8, 9). -/
def State.place (s : State) (c : CodeWord) : State :=
  match c with
  | .host w =>
    { s with host := .command w :: s.host, busy := false, microPort := none, tablePort := none }
  | .micro w => { s with microPort := some w, tablePort := none }
  | .table a => { s with tablePort := some a }

end Sys2Proof.Machine
end

