-- ==== Sys2Proof/Machine/Step.lean ====
section
/-! DEFINITION. One step of the machine. -/

namespace Sys2Proof.Machine

/-- One step: an operation run by `exec`, or a move in which no operation runs. -/
def step (s : State) : Host.Outcome State Fault Refusal :=
  match s.fetch with
  | .issue i t r => retireResult r (exec i t)
  | .settled t => .next t
  | .reserved q => .refused q
  | .stuck f => .fault f

/-- `s` with the word of `nbits` bits stored where `step` fetches its next instruction (log entry 12). -/
def State.withFetchWord (s : State) (nbits w : Nat) : State :=
  match codeWordOf nbits w with
  | some c => s.place c
  | none => s

end Sys2Proof.Machine
end

