-- ==== Sys2Proof/Machine/Chip.lean ====
section
/-! DEFINITION. A chip of `NINST` instances (`60_exceptions.md` R276): each a complete core, sharing nothing writable
(`20_memory.md` R74). -/

namespace Sys2Proof.Machine

/-- `NINST`, at least 1 (R10, OPEN; log entry 16). -/
def ninst : Nat := Config.instancesBeyondFirst + 1

/-- The instances of a chip, by position. -/
structure Chip where
  instances : List State
deriving DecidableEq, Repr

/-- After reset every instance is EMPTY (R276, R290). DESIGN CHOICE (log entries 2, 19): the contents R42 calls
unspecified are the same in every instance. -/
def Chip.reset : Chip := { instances := List.replicate ninst State.reset }

/-- Instance `k` takes one step; which one moves next is free, any interleaving is allowed (R74). -/
def Chip.stepAt (c : Chip) (k : Nat) : Host.Outcome Chip Fault Refusal :=
  match c.instances[k]? with
  | none => .next c
  | some s =>
    match step s with
    | .next t => .next { c with instances := c.instances.set k t }
    | .fault f => .fault f
    | .refused q => .refused q

end Sys2Proof.Machine
end

