-- ==== Sys2Proof/Machine/Cipher.lean ====
section
/-! DEFINITION. The cipher as a function of a schedule and a block (`41_round_datapath.md` R172), and the inverse of a
micro-operation (R171, R173). XFORM computes this function; no rule of the machine is defined by it. -/

namespace Sys2Proof.Machine

/-- The bytes of a buffer that hold a block, `X[0..BL-1]` (R9, R16). -/
def blockOf (nb : WordCount) (b : Buf) : List Byte := (List.range (blockBytes nb)).map (bufByte b)

/-- A machine with this configuration, schedule and input block. Everything else is as after reset; the function below
"depends on nothing else" (R172). -/
def cipherStart (nb : WordCount) (nr : Rounds) (w : Schedule) (input : List Byte) : State :=
  { State.reset with nb := nb, nr := nr, w := w, din := bufLoad input State.reset.din }

/-- `Xform(DIR, NB, NR, EK, in)`: the content of `DOUT[0..BL-1]` after the sequence for the direction has run (R172). -/
def xformBlock (d : Direction) (nb : WordCount) (nr : Rounds) (w : Schedule) (input : List Byte) : List Byte :=
  blockOf nb ((cipherStart nb nr w input).runMicro (xformSeq d nr)).dout

/-- `Encrypt(NB, NR, EK, in) = Xform(0, ...)` (R172). -/
def encryptBlock : WordCount → Rounds → Schedule → List Byte → List Byte := xformBlock .encrypt

/-- `Decrypt(NB, NR, EK, in) = Xform(1, ...)` (R172). -/
def decryptBlock : WordCount → Rounds → Schedule → List Byte → List Byte := xformBlock .decrypt

/-- The micro-operation that undoes one of the round datapath: ARK is its own inverse, the others come in pairs
(R173 (b), (c)). The two copies and the key scheduler's three "keep their places" (R171). -/
def MicroOp.inverse : MicroOp → MicroOp
  | .ark r => .ark r
  | .subb => .isubb
  | .isubb => .subb
  | .shrow => .ishrow
  | .ishrow => .shrow
  | .mixc => .imixc
  | .imixc => .mixc
  | .ldblk => .ldblk
  | .stblk => .stblk
  | .kload => .kload
  | .kstep i => .kstep i
  | .kser => .kser

/-- The micro-operations between the two copies, LDBLK first and STBLK last (R170, R171). -/
def roundsOf (ms : List MicroOp) : List MicroOp := (ms.drop 1).dropLast

end Sys2Proof.Machine
end

