-- ==== Sys2Proof/Safety.lean ====
section
/-! DEFINITION. The terms claims are stated in: the invariant of an instance, the reserved words of format U, which
operations write which space, a run of operations, a run without a contract violation. -/

namespace Sys2Proof.Machine

/-- No word stands at an internal port: what moves next is the host or the sequencer. -/
abbrev State.portsEmpty (s : State) : Prop := s.tablePort = none ∧ s.microPort = none

/-- What holds of an instance while a command runs (BUSY = 1): `cw` names a command with a sequence, the command's
tests held, `STATE` is as the command's rule has it, and `UPC` lies inside the sequence (R38, R221, R225). -/
def State.running (s : State) : Bool :=
  match decodeHost s.cw with
  | .ok (.construct _) =>
    decide (s.slot = .empty ∧ s.checkConstruct = .ok (s.nb, s.nk) ∧
      s.upc.toNat < (keySeq s.nb s.nk s.nr).length)
  | .ok .xform =>
    decide (s.slot = .ready ∧ s.checkXform = .ok () ∧ s.upc.toNat < (xformSeq s.dir s.nr).length)
  | _ => false

/-- The invariant of an instance: `rc` and `ERR` hold the same value (R36); `NR` is fixed by `NB` and `NK` while a
transform is held or a command runs (R25); the sequencer is where `running` says while one runs (R38). That `UPC` is 0 between
commands is the model's own choice (log entry 1): R38 gives it "no meaning between commands". -/
abbrev State.Inv (s : State) : Prop :=
  s.rc = s.err ∧
  (s.slot = .ready ∨ s.busy = true → s.nr = roundsFor s.nb s.nk) ∧
  (s.busy = false → s.upc = 0#7) ∧
  (s.busy = true → s.running = true)

/-- The reserved words of format U at a configuration (R98): `code` 0x0 or 0xD..0xF; a non-zero `arg` with a code
that takes none; KSTEP with `i < NK` or `i >= NW`; ARK with `r > NR`. -/
abbrev reservedMicroWord (s : State) (w : BitVec 12) : Prop :=
  let code := w.toNat / 256
  let arg := w.toNat % 256
  code = 0 ∨ 13 ≤ code ∨
  (code = 2 ∧ (arg < wordCount s.nk ∨ scheduleWords s.nb s.nr ≤ arg)) ∨
  (code = 5 ∧ roundCount s.nr < arg) ∨
  (code ≠ 2 ∧ code ≠ 5 ∧ arg ≠ 0)

/-- The operations that write `STATE`, `DIR`, `NB`, `NK`, `NR` or `W` (R22, R24, R25, R60). -/
def writesInstance : Instr → Bool
  | .construct _ | .discard | .kload | .kstep _ => true
  | .xform | .kser | .ldblk | .ark _ | .subb | .isubb | .shrow | .ishrow | .mixc | .imixc | .stblk
  | .lutSbox _ | .lutIsbox _ | .lutM2 _ | .lutM3 _ | .lutM9 _ | .lutM11 _ | .lutM13 _ | .lutM14 _ => false

/-- The operations that write `BLK` or leave it unspecified (R60, R225, R228). -/
def writesBlock : Instr → Bool
  | .xform | .discard | .ldblk | .ark _ | .subb | .isubb | .shrow | .ishrow | .mixc | .imixc => true
  | .construct _ | .kload | .kstep _ | .kser | .stblk
  | .lutSbox _ | .lutIsbox _ | .lutM2 _ | .lutM3 _ | .lutM9 _ | .lutM11 _ | .lutM13 _ | .lutM14 _ => false

/-- The operations that write `TMP` or leave it unspecified (R60, R225, R228). -/
def writesTemporary : Instr → Bool
  | .xform | .discard | .shrow | .ishrow => true
  | .construct _ | .kload | .kstep _ | .kser | .ldblk | .ark _ | .subb | .isubb | .mixc | .imixc | .stblk
  | .lutSbox _ | .lutIsbox _ | .lutM2 _ | .lutM3 _ | .lutM9 _ | .lutM11 _ | .lutM13 _ | .lutM14 _ => false

/-- The operations that write `DOUT` or leave it unspecified (R36, R60). -/
def writesOutput : Instr → Bool
  | .construct _ | .xform | .discard | .stblk => true
  | .kload | .kstep _ | .kser | .ldblk | .ark _ | .subb | .isubb | .shrow | .ishrow | .mixc | .imixc
  | .lutSbox _ | .lutIsbox _ | .lutM2 _ | .lutM3 _ | .lutM9 _ | .lutM11 _ | .lutM13 _ | .lutM14 _ => false

/-- The host commands, the operations that end with a result code (R23). -/
def isHostCommand : Instr → Bool
  | .construct _ | .xform | .discard => true
  | .kload | .kstep _ | .kser | .ldblk | .ark _ | .subb | .isubb | .shrow | .ishrow | .mixc | .imixc | .stblk
  | .lutSbox _ | .lutIsbox _ | .lutM2 _ | .lutM3 _ | .lutM9 _ | .lutM11 _ | .lutM13 _ | .lutM14 _ => false

/-- Operations run one after another by `exec`, stopping at the first that answers no next state. -/
def execAll : List Instr → State → Result
  | [], s => .next s
  | i :: rest, s =>
    match exec i s with
    | .next t => execAll rest t
    | .fault f => .fault f
    | .refused q => .refused q

/-- A run in which no command was a contract violation (R270): the premise "no fault" of `93_implementation_defined.md`
U1 and U10. -/
abbrev State.noViolation (s : State) : Prop := s.violations = []

end Sys2Proof.Machine
end

