-- ==== Sys2Proof/Certificates/Slice0/Obligations.lean ====
section
/-! DEFINITION. The statements for the provers, from the spec's numbered rules. A value written through `t.field` in
an equation for the next state `t` (a schedule, a buffer, a count of free values drawn) is described by the clauses
after the equation, or is one the spec leaves unspecified. -/

open Sys2Proof Sys2Proof.Machine

/-! ## Reset and the invariant -/

/-- R42, R290: what reset leaves, of the registers whose value the spec gives. -/
def Obligations.ResetLeavesSlotEmpty : Prop :=
  State.reset.slot = .empty ∧ State.reset.err = .ok ∧ State.reset.rc = .ok ∧
  State.reset.upc = 0#7 ∧ State.reset.busy = false ∧ State.reset.status = 0x00#8

/-- The invariant holds after reset. -/
def Obligations.ResetMeetsInvariant : Prop := State.reset.Inv

/-- R25, R36, R38: every step keeps the invariant, in every state that has it. Its clause that UPC is 0 while BUSY = 0 is
the model's choice (log entry 1): R38 gives UPC no meaning between commands. -/
def Obligations.StepKeepsInvariant : Prop :=
  ∀ s t : State, s.Inv → step s = .next t → t.Inv

/-- R176, R220: from a state with the invariant a step answers a next state, but for a reserved word (R98) at the
micro-operation port, which is refused; the port is the model's own (log entry 9). The sequencer never loses its
place. -/
def Obligations.StepFromInvariantNeverFaults : Prop :=
  ∀ s : State, s.Inv →
    (∃ t, step s = .next t) ∨
    (s.tablePort = none ∧ ∃ w, s.microPort = some w ∧ reservedMicroWord s w ∧ ∃ q, step s = .refused q)

/-- R290, R291: a reset, at any time, leaves STATE, ERR, rc, BUSY and UPC as R42 says; the model's own record of
contract violations stays (R270, log entries 7 and 18). -/
def Obligations.ResetComesAtAnyTime : Prop :=
  ∀ (s : State) (rest : List HostMove), s.portsEmpty → s.host = .reset :: rest →
    ∃ t, step s = .next t ∧ t.slot = .empty ∧ t.err = .ok ∧ t.rc = .ok ∧ t.busy = false ∧ t.upc = 0#7 ∧
      t.violations = s.violations ∧ t.host = rest

/-! ## Encodings -/

/-- R91, R95, R96: decoding the word of a well-formed operation gives the operation back. -/
def Obligations.DecodeEncodeRoundTrip : Prop :=
  ∀ i : Instr, wellFormed i = true → decode (encode i) = .ok i

/-- R91, R95, R96: each word has one meaning: what decodes is well formed and encodes to the same word. -/
def Obligations.DecodedWordsReencode : Prop :=
  ∀ (c : CodeWord) (i : Instr), decode c = .ok i → wellFormed i = true ∧ encode i = c

/-- R91, R95, R96: words written out from the formats, one of each family. -/
def Obligations.SpecWordsDecode : Prop :=
  decode (.host 0b00010001#8) = .ok (.construct .decrypt) ∧
  decode (.host 0b00100000#8) = .ok .xform ∧
  decode (.micro 0b001000101011#12) = .ok (.kstep 43#8) ∧
  decode (.micro 0b010100001010#12) = .ok (.ark 10#8) ∧
  decode (.micro 0b101100000000#12) = .ok .imixc ∧
  decode (.table 0b00101100011#11) = .ok (.lutIsbox 0x63#8) ∧
  decode (.table 0b11101010111#11) = .ok (.lutM14 0x57#8)

/-- R94, R268: exactly four of the 256 words spell a command; any other, presented while BUSY = 0, raises E_ILLEGAL_CMD
and changes nothing else. That it is entered in the record of violations is the model's own (log entry 7). -/
def Obligations.IllegalCommandWordChangesOnlyResult : Prop :=
  (∀ w : BitVec 8, (∃ i, decodeHost w = .ok i) ↔ (w = 0x10#8 ∨ w = 0x11#8 ∨ w = 0x20#8 ∨ w = 0x30#8)) ∧
  ∀ (s : State) (w : BitVec 8) (rest : List HostMove),
    s.portsEmpty → s.busy = false → (s.host = .command w :: rest ∨ s.host = .start w :: rest) →
    w ≠ 0x10#8 → w ≠ 0x11#8 → w ≠ 0x20#8 → w ≠ 0x30#8 →
    step s = .next { s with
      host := rest
      cw := w
      rc := .illegalCmd
      err := .illegalCmd
      violations := .illegalCmd :: s.violations }

/-- R98: a reserved word of format U is refused, and the sequencer never emits one. The port at which a word is presented is
the model's own (log entry 9), that the bounds of KSTEP and ARK are refused when executed is the model's reading (log
entry 10), and that every word that is not reserved runs is this statement's own converse. -/
def Obligations.ReservedMicroWordsAreRefused : Prop :=
  (∀ (s : State) (w : BitVec 12), s.tablePort = none → s.microPort = some w →
    (reservedMicroWord s w → ∃ q, step s = .refused q) ∧
    (¬ reservedMicroWord s w → ∃ t, step s = .next t)) ∧
  ∀ (s : State) (m : MicroOp), s.nr = roundsFor s.nb s.nk →
    (m ∈ keySeq s.nb s.nk s.nr ∨ m ∈ encSeq s.nr ∨ m ∈ decSeq s.nr) →
    ∃ w, encode m.toInstr = .micro w ∧ ¬ reservedMicroWord s w

/-! ## What a step runs -/

/-- R11, R38, R90, R220: a step runs the operation decoded from the word it fetches: from the host while BUSY = 0, or the
running sequence's entry at UPC while BUSY = 1, after which UPC goes up by one and the command ends when it equals the
length of the sequence. The first two clauses, a word at the table port or at the micro-operation port and its coming
before everything else, are the model's choice (log entry 9). -/
def Obligations.StepRunsDecodedInstruction : Prop :=
  (∀ (s : State) (a : BitVec 11) (i : Instr), s.tablePort = some a → decode (.table a) = .ok i →
    step s = exec i { s with tablePort := none }) ∧
  (∀ (s : State) (w : BitVec 12) (i : Instr), s.tablePort = none → s.microPort = some w →
    decode (.micro w) = .ok i → step s = exec i { s with microPort := none }) ∧
  (∀ (s : State) (w : BitVec 8) (i : Instr) (rest : List HostMove), s.portsEmpty → s.busy = false →
    s.host = .command w :: rest → decode (.host w) = .ok i →
    step s = exec i { s with host := rest, cw := w }) ∧
  (∀ (s : State) (ms : List MicroOp) (m : MicroOp), s.portsEmpty → s.busy = true →
    s.host.head? ≠ some .reset → s.sequence? = some ms → ms[s.upc.toNat]? = some m →
    step s = match exec m.toInstr s with
      | .next t => .next t.advance
      | .fault f => .fault f
      | .refused q => .refused q) ∧
  (∀ (t : State) (ms : List MicroOp), t.sequence? = some ms →
    t.advance = if (t.upc + 1#7).toNat = ms.length then { t with upc := t.upc + 1#7 }.closeCommand
      else { t with upc := t.upc + 1#7 })

/-- The model's own placing of a word (log entries 8, 9): the very next step runs the operation it spells. -/
def Obligations.PlacedWordRunsNext : Prop :=
  (∀ (s : State) (w : BitVec 8) (i : Instr), decode (.host w) = .ok i →
    step (s.place (.host w)) = exec i { s with cw := w, busy := false, microPort := none, tablePort := none }) ∧
  (∀ (s : State) (w : BitVec 12) (i : Instr), decode (.micro w) = .ok i →
    step (s.place (.micro w)) = exec i { s with microPort := none, tablePort := none }) ∧
  (∀ (s : State) (w : BitVec 11) (i : Instr), decode (.table w) = .ok i →
    step (s.place (.table w)) = exec i { s with tablePort := none })

/-- D19, R220: a command run one micro-operation a step ends, within 119 steps, in the state the same command taken
as one step answers. -/
def Obligations.StartedCommandAgreesWithAtomicCommand : Prop :=
  ∀ (s : State) (cw : Byte) (rest : List HostMove), s.portsEmpty → s.busy = false →
    rest.head? ≠ some .reset →
    ∃ n, n ≤ 119 ∧
      Sys2Proof.core.run n { s with host := .start cw :: rest } = step { s with host := .command cw :: rest }

/-- R300, U3: a host move other than a reset waits while BUSY = 1, with the operand registers unchanged; a command
executed while BUSY = 1 is undefined and refused by name. -/
def Obligations.HostWaitsWhileBusy : Prop :=
  (∀ s t : State, s.portsEmpty → s.busy = true → s.host.head? ≠ some .reset → step s = .next t →
    t.host = s.host ∧ t.cw = s.cw ∧ t.bsz = s.bsz ∧ t.ksz = s.ksz ∧ t.klen = s.klen ∧ t.keyin = s.keyin ∧
    t.dlen = s.dlen ∧ t.din = s.din) ∧
  ∀ (s : State) (i : Instr), s.busy = true → isHostCommand i = true → exec i s = .refused .commandWhileBusy

/-- R231, R275: with BUSY = 0 each write of the host sets its operand register and nothing else, a read changes
nothing, and with no move to make the core waits. -/
def Obligations.HostMovesWriteOperands : Prop :=
  ∀ (s : State) (rest : List HostMove), s.portsEmpty → s.busy = false →
    (∀ v, step { s with host := .writeBsz v :: rest } = .next { s with host := rest, bsz := v }) ∧
    (∀ v, step { s with host := .writeKsz v :: rest } = .next { s with host := rest, ksz := v }) ∧
    (∀ v, step { s with host := .writeKlen v :: rest } = .next { s with host := rest, klen := v }) ∧
    (∀ v, step { s with host := .writeDlen v :: rest } = .next { s with host := rest, dlen := v }) ∧
    (∀ bs : List Byte, ∃ b, step { s with host := .writeKeyin bs :: rest } = .next { s with host := rest, keyin := b } ∧
      ∀ n < 32, bufByte b n = (bs[n]?).getD (bufByte s.keyin n)) ∧
    (∀ bs : List Byte, ∃ b, step { s with host := .writeDin bs :: rest } = .next { s with host := rest, din := b } ∧
      ∀ n < 32, bufByte b n = (bs[n]?).getD (bufByte s.din n)) ∧
    step { s with host := .readResult :: rest } = .next { s with host := rest } ∧
    step { s with host := [] } = .next { s with host := [] }

/-- R28: STATUS is STATE in bit 0, zeros in bits 3:1, ERR in bits 7:4; reading it changes nothing and no write of the
host changes it. -/
def Obligations.StatusShowsStateAndError : Prop :=
  (∀ s : State, s.status.extractLsb' 0 1 = slotBit s.slot ∧ s.status.extractLsb' 1 3 = 0#3 ∧
    s.status.extractLsb' 4 4 = resultBits s.err) ∧
  (∀ (s : State) (rest : List HostMove), s.portsEmpty → s.busy = false → s.host = .readResult :: rest →
    step s = .next { s with host := rest }) ∧
  (∀ (s t : State) (m : HostMove) (rest : List HostMove), s.portsEmpty → s.busy = false → s.host = m :: rest →
    (∀ w, m ≠ .command w ∧ m ≠ .start w) → m ≠ .reset → step s = .next t → t.status = s.status)

/-! ## The field and the lookup memories -/

/-- R196: the product of the field is commutative, associative, distributes over XOR, has 0x01 as identity and 0x00 as
absorbing element, and every non-zero element has exactly one inverse. -/
def Obligations.FieldProductLaws : Prop :=
  (∀ a b : Byte, cmul a b = cmul b a) ∧
  (∀ a b c : Byte, cmul (cmul a b) c = cmul a (cmul b c)) ∧
  (∀ a b c : Byte, cmul a (b ^^^ c) = cmul a b ^^^ cmul a c) ∧
  (∀ a : Byte, cmul 0x01#8 a = a ∧ cmul 0x00#8 a = 0x00#8) ∧
  (∀ a : Byte, a ≠ 0x00#8 → ∃ y, cmul a y = 0x01#8 ∧ ∀ z, cmul a z = 0x01#8 → z = y)

/-- R198: `SBOX[a] = A(inv(a))`, `inv(a)` being the byte whose product with `a` is 0x01 (0 for 0, R197); it is a
permutation with no fixed point and no byte mapped to its complement. -/
def Obligations.SboxIsAffineOfInverse : Prop :=
  (∀ a : Byte, tabRead .sbox a = affine (fieldInverse a)) ∧
  fieldInverse 0x00#8 = 0x00#8 ∧ (∀ a : Byte, a ≠ 0x00#8 → cmul a (fieldInverse a) = 0x01#8) ∧
  (∀ a b : Byte, tabRead .sbox a = tabRead .sbox b → a = b) ∧
  (∀ a : Byte, tabRead .sbox a ≠ a ∧ tabRead .sbox a ≠ ~~~a) ∧
  tabRead .sbox 0x00#8 = 0x63#8 ∧ tabRead .sbox 0x01#8 = 0x7c#8 ∧
  tabRead .sbox 0x53#8 = 0xed#8 ∧ tabRead .sbox 0xff#8 = 0x16#8

/-- R199: ISBOX is the exact inverse permutation of SBOX. -/
def Obligations.InverseSboxUndoesSbox : Prop :=
  (∀ a : Byte, tabRead .isbox (tabRead .sbox a) = a ∧ tabRead .sbox (tabRead .isbox a) = a) ∧
  tabRead .isbox 0x63#8 = 0x00#8 ∧ tabRead .isbox 0xed#8 = 0x53#8 ∧
  tabRead .isbox 0x00#8 = 0x52#8 ∧ tabRead .isbox 0xff#8 = 0x7d#8

/-- R200: each multiplication table is the field product with its constant, maps 0x00 to 0x00 and 0x01 to the
constant, and is a permutation. -/
def Obligations.MultiplicationTablesAreProducts : Prop :=
  ∀ p ∈ [(Table.m2, 0x02#8), (Table.m3, 0x03#8), (Table.m9, 0x09#8), (Table.m11, 0x0b#8), (Table.m13, 0x0d#8),
      (Table.m14, 0x0e#8)],
    (∀ b : Byte, tabRead p.1 b = cmul p.2 b) ∧ tabRead p.1 0x00#8 = 0x00#8 ∧ tabRead p.1 0x01#8 = p.2 ∧
    ∀ a b : Byte, tabRead p.1 a = tabRead p.1 b → a = b

/-- R201 to R208: each lookup is at its table-bank address, returns the byte of its table, and changes nothing else.
The byte is kept in `tabOut`, the model's own register (log entry 9). -/
def Obligations.LookupsReturnTableBytes : Prop :=
  ∀ (s : State) (a : Byte),
    (decodeTable (0#3 ++ a) = .lutSbox a ∧ exec (.lutSbox a) s = .next { s with tabOut := affine (fieldInverse a) }) ∧
    (decodeTable (1#3 ++ a) = .lutIsbox a ∧
      ∃ y, exec (.lutIsbox a) s = .next { s with tabOut := y } ∧ tabRead .sbox y = a) ∧
    (decodeTable (2#3 ++ a) = .lutM2 a ∧ exec (.lutM2 a) s = .next { s with tabOut := cmul 0x02#8 a }) ∧
    (decodeTable (3#3 ++ a) = .lutM3 a ∧ exec (.lutM3 a) s = .next { s with tabOut := cmul 0x03#8 a }) ∧
    (decodeTable (4#3 ++ a) = .lutM9 a ∧ exec (.lutM9 a) s = .next { s with tabOut := cmul 0x09#8 a }) ∧
    (decodeTable (5#3 ++ a) = .lutM11 a ∧ exec (.lutM11 a) s = .next { s with tabOut := cmul 0x0b#8 a }) ∧
    (decodeTable (6#3 ++ a) = .lutM13 a ∧ exec (.lutM13 a) s = .next { s with tabOut := cmul 0x0d#8 a }) ∧
    (decodeTable (7#3 ++ a) = .lutM14 a ∧ exec (.lutM14 a) s = .next { s with tabOut := cmul 0x0e#8 a })

/-- R8, R9: the round count and the derived sizes of the nine pairs: Nb, Nk, Nr, NW, EKB, BL, KL, JMAX. -/
def Obligations.DerivedSizesOfTheNinePairs : Prop :=
  (∀ nb nk : WordCount, roundCount (roundsFor nb nk) =
    if wordCount nb = 8 ∨ wordCount nk = 8 then 14 else if wordCount nb = 6 ∨ wordCount nk = 6 then 12 else 10) ∧
  (∀ nb nk : WordCount, roundCount (roundsFor nb nk) = max (wordCount nb) (wordCount nk) + 6) ∧
  ([WordCount.four, .six, .eight].flatMap fun nb => [WordCount.four, .six, .eight].map fun nk =>
      let nw := scheduleWords nb (roundsFor nb nk)
      [wordCount nb, wordCount nk, roundCount (roundsFor nb nk), nw, 4 * nw, blockBytes nb, keyBytes nk,
        (nw - 1) / wordCount nk]) =
    [[4, 4, 10, 44, 176, 16, 16, 10], [4, 6, 12, 52, 208, 16, 24, 8], [4, 8, 14, 60, 240, 16, 32, 7],
     [6, 4, 12, 78, 312, 24, 16, 19], [6, 6, 12, 78, 312, 24, 24, 12], [6, 8, 14, 90, 360, 24, 32, 11],
     [8, 4, 14, 120, 480, 32, 16, 29], [8, 6, 14, 120, 480, 32, 24, 19], [8, 8, 14, 120, 480, 32, 32, 14]]

/-! ## The key scheduler -/

/-- R121, R122: RotWord moves the high-order byte to the low-order place; SubWord is the S-box on each byte in its
place. -/
def Obligations.RotWordAndSubWordActOnBytes : Prop :=
  (∀ a0 a1 a2 a3 : Byte, rotWord (be32 a0 a1 a2 a3) = be32 a1 a2 a3 a0) ∧
  (∀ t : Word, rotWord t = t.rotateLeft 8) ∧ rotWord 0x0c0d0e0f#32 = 0x0d0e0f0c#32 ∧
  (∀ (t : Word) (k : Nat), k < 4 → byteOf k (subWord t) = tabRead .sbox (byteOf k t)) ∧
  subWord 0x0d0e0f0c#32 = 0xd7ab76fe#32

/-- R123, R124: a round constant has only its high-order byte non-zero, so that XOR with it changes only that byte of
the operand; it starts at 0x01 for index 1 and doubles from index to index; the 30 values. -/
def Obligations.RoundConstantsDouble : Prop :=
  rcon 1 = 0x01000000#32 ∧
  (∀ j, 1 ≤ j → j < 30 → byteOf 0 (rcon (j + 1)) = xtime (byteOf 0 (rcon j))) ∧
  (∀ (j : Nat) (w : Word) (k : Nat), 1 ≤ j → j ≤ 30 → 1 ≤ k → k < 4 →
    byteOf k (rcon j) = 0#8 ∧ byteOf k (w ^^^ rcon j) = byteOf k w) ∧
  (List.range' 1 30).map rcon = [0x01000000#32, 0x02000000#32, 0x04000000#32, 0x08000000#32, 0x10000000#32, 0x20000000#32,
    0x40000000#32, 0x80000000#32, 0x1b000000#32, 0x36000000#32, 0x6c000000#32, 0xd8000000#32,
    0xab000000#32, 0x4d000000#32, 0x9a000000#32, 0x2f000000#32, 0x5e000000#32, 0xbc000000#32,
    0x63000000#32, 0xc6000000#32, 0x97000000#32, 0x35000000#32, 0x6a000000#32, 0xd4000000#32,
    0xb3000000#32, 0x7d000000#32, 0xfa000000#32, 0xef000000#32, 0xc5000000#32, 0x91000000#32]

/-- R30, R65: EK is the byte view of W, word i at bytes 4i to 4i+3: after W[i] is written its four bytes are those of the word, high-order byte
first, and every other byte is as before. -/
def Obligations.ScheduleBytesViewWords : Prop :=
  ∀ (s : State) (i : Nat) (v : Word), i < 120 →
    (∀ k < 4, s.ekByte (4 * i + k) = byteOf k (s.word i)) ∧
    (∀ k < 4, (s.setWord i v).ekByte (4 * i + k) = byteOf k v) ∧
    (∀ n < 480, n / 4 ≠ i → (s.setWord i v).ekByte n = s.ekByte n)

/-- R120: KLOAD loads the raw key as NK big-endian words into W[0..NK-1]; nothing else changes. -/
def Obligations.KloadLoadsKeyWords : Prop :=
  decode (.micro 0x100#12) = .ok .kload ∧
  ∀ s : State, ∃ t, exec .kload s = .next t ∧ t = { s with w := t.w } ∧
    ∀ i < 120, t.word i =
      if i < wordCount s.nk then
        be32 (bufByte s.keyin (4 * i)) (bufByte s.keyin (4 * i + 1)) (bufByte s.keyin (4 * i + 2))
          (bufByte s.keyin (4 * i + 3))
      else s.word i

/-- R125: KSTEP i, for NK <= i <= NW-1, writes W[i] by its three cases, tested in order; nothing else changes. -/
def Obligations.KstepComputesNextWord : Prop :=
  (∀ i : Byte, 4 ≤ i.toNat → i.toNat ≤ 119 → decode (.micro (0x2#4 ++ i)) = .ok (.kstep i)) ∧
  ∀ (s : State) (i : Byte), wordCount s.nk ≤ i.toNat → i.toNat < scheduleWords s.nb s.nr →
    ∃ t, exec (.kstep i) s = .next t ∧ t = { s with w := t.w } ∧
      t.word i.toNat = s.word (i.toNat - wordCount s.nk) ^^^
        (if i.toNat % wordCount s.nk = 0 then
          subWord (rotWord (s.word (i.toNat - 1))) ^^^ rcon (i.toNat / wordCount s.nk)
        else if 6 < wordCount s.nk ∧ i.toNat % wordCount s.nk = 4 then subWord (s.word (i.toNat - 1))
        else s.word (i.toNat - 1)) ∧
      ∀ j < 120, j ≠ i.toNat → t.word j = s.word j

/-- R126: KSER writes nothing: the schedule's bytes already are the words', high-order byte first. -/
def Obligations.KserChangesNothing : Prop :=
  decode (.micro 0x300#12) = .ok .kser ∧
  ∀ s : State, exec .kser s = .next s ∧ ∀ i < 120, ∀ k < 4, s.ekByte (4 * i + k) = byteOf k (s.word i)

/-- R131, R221: CONSTRUCT with legal operands answers a READY slot whose schedule is KeyExpand in closed form; words
from NW up are not written; the other registers R221 names are as it says and nothing else changes, but that UPC is 0
after the command is the model's choice (log entry 1) and that DOUT is unspecified is R36 and R302 (log entry 6). -/
def Obligations.ConstructExpandsKey : Prop :=
  ∀ (s : State) (d : Direction) (nb nk : WordCount), s.busy = false →
    s.bsz.toNat = 32 * wordCount nb → s.ksz.toNat = 32 * wordCount nk → s.klen.toNat = 4 * wordCount nk →
    ∃ t, exec (.construct d) s = .next t ∧
      t = { s with
        slot := .ready
        err := .ok
        rc := .ok
        dir := d
        nb := nb
        nk := nk
        nr := roundsFor nb nk
        upc := 0#7
        w := t.w
        dout := t.dout
        drawn := t.drawn } ∧
      (∀ j < wordCount nk, t.word j =
        be32 (bufByte s.keyin (4 * j)) (bufByte s.keyin (4 * j + 1)) (bufByte s.keyin (4 * j + 2))
          (bufByte s.keyin (4 * j + 3))) ∧
      (∀ i, wordCount nk ≤ i → i < scheduleWords nb (roundsFor nb nk) → t.word i =
        t.word (i - wordCount nk) ^^^
          (if i % wordCount nk = 0 then subWord (rotWord (t.word (i - 1))) ^^^ rcon (i / wordCount nk)
          else if nk = .eight ∧ i % 8 = 4 then subWord (t.word (i - 1))
          else t.word (i - 1))) ∧
      (∀ i, scheduleWords nb (roundsFor nb nk) ≤ i → t.word i = s.word i)

/-- R221, R223, R263, R264, R265: CONSTRUCT with an illegal operand answers an EMPTY slot and an error; which one where
several conditions hold, the first of block size, key size, key length, is a choice (R222, R269, D9; log entry 15). It
leaves alone BLK, TMP, the operands and what is the model's own. -/
def Obligations.ConstructReportsFirstError : Prop :=
  ∀ (s : State) (d : Direction), s.busy = false →
    let legal := fun n : Nat => n = 128 ∨ n = 192 ∨ n = 256
    ¬ (legal s.bsz.toNat ∧ legal s.ksz.toNat ∧ 8 * s.klen.toNat = s.ksz.toNat) →
    ∃ t, exec (.construct d) s = .next t ∧ t.slot = .empty ∧ t.err = t.rc ∧
      (¬ legal s.bsz.toNat → t.rc = .blockSize) ∧
      (legal s.bsz.toNat → ¬ legal s.ksz.toNat → t.rc = .keySize) ∧
      (legal s.bsz.toNat → legal s.ksz.toNat → t.rc = .keyLength) ∧
      t = { s with
        slot := t.slot
        err := t.err
        rc := t.rc
        dir := t.dir
        nb := t.nb
        nk := t.nk
        nr := t.nr
        w := t.w
        dout := t.dout
        drawn := t.drawn }

/-- R132, R133: the schedule depends on the key and its size alone: two constructions with the same key size and key
bytes, whatever their directions and block sizes, agree on every word both write. -/
def Obligations.ScheduleDependsOnKeyAlone : Prop :=
  ∀ (s₁ s₂ t₁ t₂ : State) (d₁ d₂ : Direction), s₁.busy = false → s₂.busy = false → s₁.ksz = s₂.ksz →
    (∀ n < s₁.ksz.toNat / 8, bufByte s₁.keyin n = bufByte s₂.keyin n) →
    exec (.construct d₁) s₁ = .next t₁ → exec (.construct d₂) s₂ = .next t₂ →
    t₁.slot = .ready → t₂.slot = .ready →
    ∀ i, i < scheduleWords t₁.nb t₁.nr → i < scheduleWords t₂.nb t₂.nr → t₁.word i = t₂.word i

/-- R63: after CONSTRUCT the first bytes of the schedule are the raw key. -/
def Obligations.ScheduleBeginsWithRawKey : Prop :=
  ∀ (s t : State) (d : Direction), exec (.construct d) s = .next t → t.slot = .ready →
    ∀ n < keyBytes t.nk, t.ekByte n = bufByte s.keyin n

/-! ## The round datapath -/

/-- R150: LDBLK copies the input block into the working block; nothing else changes. -/
def Obligations.LdblkCopiesInputBlock : Prop :=
  decode (.micro 0x400#12) = .ok .ldblk ∧
  ∀ s : State, ∃ t, exec .ldblk s = .next t ∧ t = { s with blk := t.blk } ∧
    ∀ n < 32, bufByte t.blk n = if n < 4 * wordCount s.nb then bufByte s.din n else bufByte s.blk n

/-- R162: STBLK copies the working block to the output block; DOUT[BL..31] and everything else are not written. -/
def Obligations.StblkCopiesOutputBlock : Prop :=
  decode (.micro 0xC00#12) = .ok .stblk ∧
  ∀ s : State, ∃ t, exec .stblk s = .next t ∧ t = { s with dout := t.dout } ∧
    ∀ n < 32, bufByte t.dout n = if n < 4 * wordCount s.nb then bufByte s.blk n else bufByte s.dout n

/-- R151: ARK r, for r <= NR, XORs the round key at byte offset r*BL into the working block; in words, column c takes
W[r*NB + c], high-order byte to row 0. The schedule and everything else are not changed. -/
def Obligations.ArkAddsRoundKey : Prop :=
  (∀ r : Byte, r.toNat ≤ 14 → decode (.micro (0x5#4 ++ r)) = .ok (.ark r)) ∧
  ∀ (s : State) (r : Byte), r.toNat ≤ roundCount s.nr →
    ∃ t, exec (.ark r) s = .next t ∧ t = { s with blk := t.blk } ∧
      (∀ n < 32, bufByte t.blk n =
        if n < 4 * wordCount s.nb then bufByte s.blk n ^^^ s.ekByte (r.toNat * (4 * wordCount s.nb) + n)
        else bufByte s.blk n) ∧
      (∀ c < wordCount s.nb, ∀ k < 4, bufByte t.blk (4 * c + k) =
        bufByte s.blk (4 * c + k) ^^^ byteOf k (s.word (r.toNat * wordCount s.nb + c)))

/-- R152: SUBB replaces every byte of the block by its S-box entry; nothing else changes. -/
def Obligations.SubbSubstitutesBytes : Prop :=
  decode (.micro 0x600#12) = .ok .subb ∧
  ∀ s : State, ∃ t, exec .subb s = .next t ∧ t = { s with blk := t.blk } ∧
    ∀ n < 32, bufByte t.blk n =
      if n < 4 * wordCount s.nb then tabRead .sbox (bufByte s.blk n) else bufByte s.blk n

/-- R153: ISUBB replaces every byte of the block by its inverse S-box entry; nothing else changes. -/
def Obligations.IsubbSubstitutesBytes : Prop :=
  decode (.micro 0x700#12) = .ok .isubb ∧
  ∀ s : State, ∃ t, exec .isubb s = .next t ∧ t = { s with blk := t.blk } ∧
    ∀ n < 32, bufByte t.blk n =
      if n < 4 * wordCount s.nb then tabRead .isbox (bufByte s.blk n) else bufByte s.blk n

/-- R154, R156, R157: SHROW rotates row k left by the encrypt shift of the block size; TMP is unspecified afterwards
(R155); nothing else changes. -/
def Obligations.ShrowRotatesRows : Prop :=
  decode (.micro 0x800#12) = .ok .shrow ∧
  ∀ s : State, ∃ t, exec .shrow s = .next t ∧ t = { s with blk := t.blk, tmp := t.tmp, drawn := t.drawn } ∧
    (∀ c < wordCount s.nb, ∀ k < 4,
      let shift := (match s.nb with
        | .four => [0, 1, 2, 3]
        | .six => [0, 1, 2, 3]
        | .eight => [0, 1, 3, 4])[k]?.getD 0
      bufByte t.blk (4 * c + k) = bufByte s.blk (4 * ((c + shift) % wordCount s.nb) + k)) ∧
    (∀ n < 32, 4 * wordCount s.nb ≤ n → bufByte t.blk n = bufByte s.blk n)

/-- R154, R156, R158: ISHROW rotates row k left by the decrypt shift of the block size; TMP is unspecified afterwards
(R155); nothing else changes. -/
def Obligations.IshrowRotatesRows : Prop :=
  decode (.micro 0x900#12) = .ok .ishrow ∧
  ∀ s : State, ∃ t, exec .ishrow s = .next t ∧ t = { s with blk := t.blk, tmp := t.tmp, drawn := t.drawn } ∧
    (∀ c < wordCount s.nb, ∀ k < 4,
      let shift := (match s.nb with
        | .four => [0, 3, 2, 1]
        | .six => [0, 5, 4, 3]
        | .eight => [0, 7, 5, 4])[k]?.getD 0
      bufByte t.blk (4 * c + k) = bufByte s.blk (4 * ((c + shift) % wordCount s.nb) + k)) ∧
    (∀ n < 32, 4 * wordCount s.nb ≤ n → bufByte t.blk n = bufByte s.blk n)

/-- R160: MIXC replaces each column by the forward formula in GF(2^8), all four bytes read before any is written;
nothing else changes. -/
def Obligations.MixcDiffusesColumns : Prop :=
  decode (.micro 0xA00#12) = .ok .mixc ∧
  ∀ s : State, ∃ t, exec .mixc s = .next t ∧ t = { s with blk := t.blk } ∧
    (∀ c < wordCount s.nb,
      let s0 := bufByte s.blk (4 * c)
      let s1 := bufByte s.blk (4 * c + 1)
      let s2 := bufByte s.blk (4 * c + 2)
      let s3 := bufByte s.blk (4 * c + 3)
      bufByte t.blk (4 * c) = cmul 2#8 s0 ^^^ cmul 3#8 s1 ^^^ s2 ^^^ s3 ∧
      bufByte t.blk (4 * c + 1) = s0 ^^^ cmul 2#8 s1 ^^^ cmul 3#8 s2 ^^^ s3 ∧
      bufByte t.blk (4 * c + 2) = s0 ^^^ s1 ^^^ cmul 2#8 s2 ^^^ cmul 3#8 s3 ∧
      bufByte t.blk (4 * c + 3) = cmul 3#8 s0 ^^^ s1 ^^^ s2 ^^^ cmul 2#8 s3) ∧
    (∀ n < 32, 4 * wordCount s.nb ≤ n → bufByte t.blk n = bufByte s.blk n)

/-- R161: IMIXC replaces each column by the inverse formula in GF(2^8), all four bytes read before any is written;
nothing else changes. -/
def Obligations.ImixcDiffusesColumns : Prop :=
  decode (.micro 0xB00#12) = .ok .imixc ∧
  ∀ s : State, ∃ t, exec .imixc s = .next t ∧ t = { s with blk := t.blk } ∧
    (∀ c < wordCount s.nb,
      let s0 := bufByte s.blk (4 * c)
      let s1 := bufByte s.blk (4 * c + 1)
      let s2 := bufByte s.blk (4 * c + 2)
      let s3 := bufByte s.blk (4 * c + 3)
      bufByte t.blk (4 * c) = cmul 14#8 s0 ^^^ cmul 11#8 s1 ^^^ cmul 13#8 s2 ^^^ cmul 9#8 s3 ∧
      bufByte t.blk (4 * c + 1) = cmul 9#8 s0 ^^^ cmul 14#8 s1 ^^^ cmul 11#8 s2 ^^^ cmul 13#8 s3 ∧
      bufByte t.blk (4 * c + 2) = cmul 13#8 s0 ^^^ cmul 9#8 s1 ^^^ cmul 14#8 s2 ^^^ cmul 11#8 s3 ∧
      bufByte t.blk (4 * c + 3) = cmul 11#8 s0 ^^^ cmul 13#8 s1 ^^^ cmul 9#8 s2 ^^^ cmul 14#8 s3) ∧
    (∀ n < 32, 4 * wordCount s.nb ≤ n → bufByte t.blk n = bufByte s.blk n)

/-- R151, R173 (b): ARK r is its own inverse. -/
def Obligations.ArkIsInvolution : Prop :=
  ∀ (s : State) (r : Byte), r.toNat ≤ roundCount s.nr → execAll [.ark r, .ark r] s = .next s

/-- R153, R173 (c): ISUBB inverts SUBB and SUBB inverts ISUBB. -/
def Obligations.IsubbInvertsSubb : Prop :=
  ∀ s : State, execAll [.subb, .isubb] s = .next s ∧ execAll [.isubb, .subb] s = .next s

/-- R158, R173 (c): ISHROW inverts SHROW and SHROW inverts ISHROW, on BLK (TMP is unspecified). -/
def Obligations.IshrowInvertsShrow : Prop :=
  ∀ s : State,
    (∃ t, execAll [.shrow, .ishrow] s = .next t ∧ t.blk = s.blk) ∧
    (∃ t, execAll [.ishrow, .shrow] s = .next t ∧ t.blk = s.blk)

/-- R161, R173 (c): IMIXC inverts MIXC and MIXC inverts IMIXC. -/
def Obligations.ImixcInvertsMixc : Prop :=
  ∀ s : State, execAll [.mixc, .imixc] s = .next s ∧ execAll [.imixc, .mixc] s = .next s

/-- R173 (a): SUBB and SHROW commute, and ISUBB and ISHROW commute: in both orders BLK is the same and everything else is as
it was, but for TMP, which is unspecified (R155), and the count of free values drawn. -/
def Obligations.SubstitutionCommutesWithRotation : Prop :=
  ∀ s : State,
    (∃ t u, execAll [.subb, .shrow] s = .next t ∧ execAll [.shrow, .subb] s = .next u ∧ t.blk = u.blk ∧
      t = { s with blk := t.blk, tmp := t.tmp, drawn := t.drawn } ∧
      u = { s with blk := u.blk, tmp := u.tmp, drawn := u.drawn }) ∧
    (∃ t u, execAll [.isubb, .ishrow] s = .next t ∧ execAll [.ishrow, .isubb] s = .next u ∧ t.blk = u.blk ∧
      t = { s with blk := t.blk, tmp := t.tmp, drawn := t.drawn } ∧
      u = { s with blk := u.blk, tmp := u.tmp, drawn := u.drawn })

/-! ## Sequences and commands -/

/-- R130, R163, R170, R171, R305: the entries of the sequences and their lengths. -/
def Obligations.SequencesHaveTheirEntries : Prop :=
  (∀ nb nk : WordCount,
    let nr := roundsFor nb nk
    let nw := scheduleWords nb nr
    (keySeq nb nk nr).length = nw - wordCount nk + 2 ∧
    (keySeq nb nk nr)[0]? = some .kload ∧
    (∀ i < 120, wordCount nk ≤ i → i < nw → (keySeq nb nk nr)[i - wordCount nk + 1]? = some (.kstep i)) ∧
    (keySeq nb nk nr)[nw - wordCount nk + 1]? = some .kser) ∧
  (∀ nr : Rounds,
    let last := roundCount nr
    (encSeq nr).length = 4 * last + 2 ∧ (decSeq nr).length = 4 * last + 2 ∧
    (encSeq nr).take 2 = [.ldblk, .ark 0] ∧
    (∀ r < 14, 1 ≤ r → r < last → ((encSeq nr).drop (4 * r - 2)).take 4 = [.subb, .shrow, .mixc, .ark r]) ∧
    (encSeq nr).drop (4 * last - 2) = [.subb, .shrow, .ark last, .stblk] ∧
    (decSeq nr).take 4 = [.ldblk, .ark last, .ishrow, .isubb] ∧
    (∀ r < 14, 1 ≤ r → r < last →
      ((decSeq nr).drop (4 * (last - r))).take 4 = [.ark r, .imixc, .ishrow, .isubb]) ∧
    (decSeq nr).drop (4 * last) = [.ark 0, .stblk])

/-- R225, R172: XFORM on a READY slot with dlen = 4*NB succeeds; the output block is what the sequence of the
direction, run one micro-operation after another by `exec`, leaves in DOUT; STATE, the configuration, the schedule and
the operands are not written. BLK, TMP and DOUT[4*NB..31] are unspecified afterwards. That UPC is 0 after the command
is the model's choice (log entry 1). -/
def Obligations.XformRunsItsSequence : Prop :=
  ∀ s : State, s.busy = false → s.slot = .ready → s.dlen.toNat = 4 * wordCount s.nb →
    ∃ t u,
      exec .xform s = .next t ∧
      execAll ((match s.dir with
        | .encrypt => encSeq s.nr
        | .decrypt => decSeq s.nr).map MicroOp.toInstr) s = .next u ∧
      t = { s with
        err := .ok
        rc := .ok
        upc := 0#7
        blk := t.blk
        tmp := t.tmp
        dout := t.dout
        drawn := t.drawn } ∧
      ∀ n < 4 * wordCount s.nb, bufByte t.dout n = bufByte u.dout n

/-- R173 (d): decrypting with the same schedule undoes encrypting, and encrypting undoes decrypting, for every size of
block, every schedule and every block. -/
def Obligations.XformRoundTrip : Prop :=
  ∀ s : State, s.busy = false → s.slot = .ready → s.dlen.toNat = 4 * wordCount s.nb →
    ∃ t, exec .xform s = .next t ∧
      ∀ u : State, u.busy = false → u.slot = .ready → u.dir ≠ s.dir → u.nb = s.nb → u.nr = s.nr →
        (∀ i < scheduleWords s.nb s.nr, u.word i = s.word i) →
        u.dlen.toNat = 4 * wordCount u.nb → (∀ n < 4 * wordCount s.nb, bufByte u.din n = bufByte t.dout n) →
        ∃ v, exec .xform u = .next v ∧ ∀ n < 4 * wordCount s.nb, bufByte v.dout n = bufByte s.din n

/-- R73, R172: the output block is a function of (DIR, NB, NR, EK, DIN) alone: two instances that agree on these, and
may differ in everything else, answer the same block. -/
def Obligations.XformDependsOnScheduleAndInput : Prop :=
  ∀ s₁ s₂ t₁ t₂ : State, s₁.slot = .ready → s₂.slot = .ready →
    s₁.dlen.toNat = 4 * wordCount s₁.nb → s₂.dlen.toNat = 4 * wordCount s₂.nb →
    s₁.dir = s₂.dir → s₁.nb = s₂.nb → s₁.nr = s₂.nr →
    (∀ n < 4 * scheduleWords s₁.nb s₁.nr, s₁.ekByte n = s₂.ekByte n) →
    (∀ n < 4 * wordCount s₁.nb, bufByte s₁.din n = bufByte s₂.din n) →
    exec .xform s₁ = .next t₁ → exec .xform s₂ = .next t₂ →
    ∀ n < 4 * wordCount s₁.nb, bufByte t₁.dout n = bufByte t₂.dout n

/-- R266, R267: XFORM on an EMPTY slot reports E_NO_TRANSFORM, and on a READY slot with a wrong length
E_BLOCK_LENGTH; nothing runs and nothing but rc and ERR changes, DOUT being unspecified. That the violation is entered
in the record is the model's own (log entry 7). -/
def Obligations.XformReportsContractViolations : Prop :=
  (∀ s : State, s.busy = false → s.slot = .empty →
    ∃ t, exec .xform s = .next t ∧ t = { s with
      rc := .noTransform
      err := .noTransform
      violations := .noTransform :: s.violations
      dout := t.dout
      drawn := t.drawn }) ∧
  (∀ s : State, s.busy = false → s.slot = .ready → s.dlen.toNat ≠ 4 * wordCount s.nb →
    ∃ t, exec .xform s = .next t ∧ t = { s with
      rc := .blockLength
      err := .blockLength
      violations := .blockLength :: s.violations
      dout := t.dout
      drawn := t.drawn })

/-- R228: DISCARD leaves the slot EMPTY with rc = ERR = OK; on a READY slot DIR, NB, NK, NR, W, BLK, TMP and DOUT are
unspecified afterwards; on an EMPTY slot nothing but rc and ERR changes; an XFORM after it reports E_NO_TRANSFORM. -/
def Obligations.DiscardEmptiesSlot : Prop :=
  decode (.host 0x30#8) = .ok .discard ∧
  (∀ s : State, s.busy = false →
    ∃ t, exec .discard s = .next t ∧
      t = { s with
        slot := .empty
        rc := .ok
        err := .ok
        dir := t.dir
        nb := t.nb
        nk := t.nk
        nr := t.nr
        w := t.w
        blk := t.blk
        tmp := t.tmp
        dout := t.dout
        drawn := t.drawn } ∧
      ∃ u, exec .xform t = .next u ∧ u.rc = .noTransform) ∧
  (∀ s : State, s.busy = false → s.slot = .empty → exec .discard s = .next { s with rc := .ok, err := .ok })

/-- R229: the lifecycle of a slot. From EMPTY or READY a CONSTRUCT leaves READY where it succeeds and EMPTY where it
fails; an XFORM leaves STATE as it was and reports E_NO_TRANSFORM on EMPTY; a DISCARD leaves EMPTY. -/
def Obligations.SlotLifecycle : Prop :=
  ∀ s t : State, s.busy = false →
    (∀ d, exec (.construct d) s = .next t → (t.slot = .ready ↔ t.rc = .ok)) ∧
    (exec .xform s = .next t → t.slot = s.slot ∧ (s.slot = .empty → t.rc = .noTransform)) ∧
    (exec .discard s = .next t → t.slot = .empty)

/-- R174: the known vector, both ways. -/
def Obligations.KnownVectorHolds : Prop :=
  let key := [0x00#8, 0x01#8, 0x02#8, 0x03#8, 0x04#8, 0x05#8, 0x06#8, 0x07#8, 0x08#8, 0x09#8, 0x0a#8, 0x0b#8, 0x0c#8,
    0x0d#8, 0x0e#8, 0x0f#8]
  let plain := [0x00#8, 0x11#8, 0x22#8, 0x33#8, 0x44#8, 0x55#8, 0x66#8, 0x77#8, 0x88#8, 0x99#8, 0xaa#8, 0xbb#8, 0xcc#8,
    0xdd#8, 0xee#8, 0xff#8]
  let cipher := [0x69#8, 0xc4#8, 0xe0#8, 0xd8#8, 0x6a#8, 0x7b#8, 0x04#8, 0x30#8, 0xd8#8, 0xcd#8, 0xb7#8, 0x80#8, 0x70#8,
    0xb4#8, 0xc5#8, 0x5a#8]
  ∀ p ∈ [(Direction.encrypt, plain, cipher), (Direction.decrypt, cipher, plain)],
    ∃ t, execAll [.construct p.1, .xform] { State.reset with
        bsz := 128#16
        ksz := 128#16
        klen := 16#16
        keyin := bufLoad key State.reset.keyin
        dlen := 16#16
        din := bufLoad p.2.1 State.reset.din } = .next t ∧
      t.rc = .ok ∧ (List.range 16).map (bufByte t.dout) = p.2.2

/-! ## Rules of the whole machine -/

/-- R35: no operation writes an operand register; nor does one touch the host's moves or the internal ports. -/
def Obligations.OperationsKeepOperands : Prop :=
  ∀ (i : Instr) (s t : State), exec i s = .next t →
    t.cw = s.cw ∧ t.bsz = s.bsz ∧ t.ksz = s.ksz ∧ t.klen = s.klen ∧ t.keyin = s.keyin ∧ t.dlen = s.dlen ∧
    t.din = s.din ∧ t.host = s.host ∧ t.microPort = s.microPort ∧ t.tablePort = s.tablePort

/-- R60, R73: STATE, DIR, NB, NK, NR and W are written by CONSTRUCT and its micro-operations and by DISCARD alone; of
these registers KLOAD and KSTEP write W alone. -/
def Obligations.InstanceIsReadOnly : Prop :=
  ∀ (i : Instr) (s t : State), exec i s = .next t →
    (writesInstance i = false → t.w = s.w) ∧
    ((∀ d, i ≠ .construct d) → i ≠ .discard →
      t.slot = s.slot ∧ t.dir = s.dir ∧ t.nb = s.nb ∧ t.nk = s.nk ∧ t.nr = s.nr)

/-- R27, R36, R60: BLK, TMP, DOUT, the result codes and the bookkeeping change only by the operations whose rules say
so. -/
def Obligations.SpacesChangeOnlyByTheirWriters : Prop :=
  ∀ (i : Instr) (s t : State), exec i s = .next t →
    (writesBlock i = false → t.blk = s.blk) ∧
    (writesTemporary i = false → t.tmp = s.tmp) ∧
    (writesOutput i = false → t.dout = s.dout) ∧
    (isHostCommand i = false →
      t.err = s.err ∧ t.rc = s.rc ∧ t.upc = s.upc ∧ t.busy = s.busy ∧ t.violations = s.violations) ∧
    (isHostCommand i = true → t.tabOut = s.tabOut)

/-- R23, R270: the model's record of contract violations only grows, whatever the step. -/
def Obligations.ViolationsAreNeverCleared : Prop :=
  ∀ s t : State, step s = .next t → ∃ l, t.violations = l ++ s.violations

/-- R74, R276: a step of one instance leaves every other instance as it was, and its own result is as if it ran
alone. -/
def Obligations.InstancesAreIndependent : Prop :=
  ∀ (c : Chip) (k : Nat) (s : State), c.instances[k]? = some s →
    (∀ t, step s = .next t → ∃ c', c.stepAt k = .next c' ∧ c'.instances[k]? = some t ∧
      c'.instances.length = c.instances.length ∧ ∀ j, j ≠ k → c'.instances[j]? = c.instances[j]?)

/-- R172, R173 (d), (e): XFORM computes the function Xform of the direction, NB, NR, the schedule and the input block;
Encrypt and Decrypt undo each other for every size of block, every schedule and every block; so for a fixed schedule
each is a permutation of the blocks of 4*NB bytes. -/
def Obligations.EncryptAndDecryptAreInversePermutations : Prop :=
  (∀ s : State, s.busy = false → s.slot = .ready → s.dlen.toNat = 4 * wordCount s.nb →
    ∃ t, exec .xform s = .next t ∧
      blockOf s.nb t.dout = xformBlock s.dir s.nb s.nr s.w (blockOf s.nb s.din)) ∧
  ∀ (nb : WordCount) (nr : Rounds) (w : Schedule),
    (∀ b : List Byte, b.length = 4 * wordCount nb →
      decryptBlock nb nr w (encryptBlock nb nr w b) = b ∧ encryptBlock nb nr w (decryptBlock nb nr w b) = b) ∧
    ∀ f ∈ [encryptBlock nb nr w, decryptBlock nb nr w],
      (∀ b, (f b).length = 4 * wordCount nb) ∧
      (∀ a b : List Byte, a.length = 4 * wordCount nb → b.length = 4 * wordCount nb → f a = f b → a = b) ∧
      ∀ c : List Byte, c.length = 4 * wordCount nb → ∃ b, b.length = 4 * wordCount nb ∧ f b = c
end

