-- ==== Sys2Proof/Laws/State.lean ====
section
/-! SUPPORT. One lemma per field per update of State, so that no later proof unfolds a record
update. -/

namespace Sys2Proof.Machine

/-! `W[i] <- v` (R29). -/

@[simp] theorem State.setWord_slot (s : State) (i : Nat) (v : Word) : (s.setWord i v).slot = s.slot := by simp only [State.setWord]
@[simp] theorem State.setWord_err (s : State) (i : Nat) (v : Word) : (s.setWord i v).err = s.err := by simp only [State.setWord]
@[simp] theorem State.setWord_rc (s : State) (i : Nat) (v : Word) : (s.setWord i v).rc = s.rc := by simp only [State.setWord]
@[simp] theorem State.setWord_dir (s : State) (i : Nat) (v : Word) : (s.setWord i v).dir = s.dir := by simp only [State.setWord]
@[simp] theorem State.setWord_nb (s : State) (i : Nat) (v : Word) : (s.setWord i v).nb = s.nb := by simp only [State.setWord]
@[simp] theorem State.setWord_nk (s : State) (i : Nat) (v : Word) : (s.setWord i v).nk = s.nk := by simp only [State.setWord]
@[simp] theorem State.setWord_nr (s : State) (i : Nat) (v : Word) : (s.setWord i v).nr = s.nr := by simp only [State.setWord]
@[simp] theorem State.setWord_w (s : State) (i : Nat) (v : Word) : (s.setWord i v).w = s.w.setIfInBounds i v := by simp only [State.setWord]
@[simp] theorem State.setWord_blk (s : State) (i : Nat) (v : Word) : (s.setWord i v).blk = s.blk := by simp only [State.setWord]
@[simp] theorem State.setWord_tmp (s : State) (i : Nat) (v : Word) : (s.setWord i v).tmp = s.tmp := by simp only [State.setWord]
@[simp] theorem State.setWord_cw (s : State) (i : Nat) (v : Word) : (s.setWord i v).cw = s.cw := by simp only [State.setWord]
@[simp] theorem State.setWord_bsz (s : State) (i : Nat) (v : Word) : (s.setWord i v).bsz = s.bsz := by simp only [State.setWord]
@[simp] theorem State.setWord_ksz (s : State) (i : Nat) (v : Word) : (s.setWord i v).ksz = s.ksz := by simp only [State.setWord]
@[simp] theorem State.setWord_klen (s : State) (i : Nat) (v : Word) : (s.setWord i v).klen = s.klen := by simp only [State.setWord]
@[simp] theorem State.setWord_keyin (s : State) (i : Nat) (v : Word) : (s.setWord i v).keyin = s.keyin := by simp only [State.setWord]
@[simp] theorem State.setWord_dlen (s : State) (i : Nat) (v : Word) : (s.setWord i v).dlen = s.dlen := by simp only [State.setWord]
@[simp] theorem State.setWord_din (s : State) (i : Nat) (v : Word) : (s.setWord i v).din = s.din := by simp only [State.setWord]
@[simp] theorem State.setWord_dout (s : State) (i : Nat) (v : Word) : (s.setWord i v).dout = s.dout := by simp only [State.setWord]
@[simp] theorem State.setWord_upc (s : State) (i : Nat) (v : Word) : (s.setWord i v).upc = s.upc := by simp only [State.setWord]
@[simp] theorem State.setWord_busy (s : State) (i : Nat) (v : Word) : (s.setWord i v).busy = s.busy := by simp only [State.setWord]
@[simp] theorem State.setWord_violations (s : State) (i : Nat) (v : Word) : (s.setWord i v).violations = s.violations := by simp only [State.setWord]
@[simp] theorem State.setWord_host (s : State) (i : Nat) (v : Word) : (s.setWord i v).host = s.host := by simp only [State.setWord]
@[simp] theorem State.setWord_microPort (s : State) (i : Nat) (v : Word) : (s.setWord i v).microPort = s.microPort := by simp only [State.setWord]
@[simp] theorem State.setWord_tablePort (s : State) (i : Nat) (v : Word) : (s.setWord i v).tablePort = s.tablePort := by simp only [State.setWord]
@[simp] theorem State.setWord_tabOut (s : State) (i : Nat) (v : Word) : (s.setWord i v).tabOut = s.tabOut := by simp only [State.setWord]
@[simp] theorem State.setWord_drawn (s : State) (i : Nat) (v : Word) : (s.setWord i v).drawn = s.drawn := by simp only [State.setWord]

/-! KLOAD (R120). -/

@[simp] theorem State.kload_slot (s : State) : (s.kload).slot = s.slot := by simp only [State.kload]
@[simp] theorem State.kload_err (s : State) : (s.kload).err = s.err := by simp only [State.kload]
@[simp] theorem State.kload_rc (s : State) : (s.kload).rc = s.rc := by simp only [State.kload]
@[simp] theorem State.kload_dir (s : State) : (s.kload).dir = s.dir := by simp only [State.kload]
@[simp] theorem State.kload_nb (s : State) : (s.kload).nb = s.nb := by simp only [State.kload]
@[simp] theorem State.kload_nk (s : State) : (s.kload).nk = s.nk := by simp only [State.kload]
@[simp] theorem State.kload_nr (s : State) : (s.kload).nr = s.nr := by simp only [State.kload]
@[simp] theorem State.kload_blk (s : State) : (s.kload).blk = s.blk := by simp only [State.kload]
@[simp] theorem State.kload_tmp (s : State) : (s.kload).tmp = s.tmp := by simp only [State.kload]
@[simp] theorem State.kload_cw (s : State) : (s.kload).cw = s.cw := by simp only [State.kload]
@[simp] theorem State.kload_bsz (s : State) : (s.kload).bsz = s.bsz := by simp only [State.kload]
@[simp] theorem State.kload_ksz (s : State) : (s.kload).ksz = s.ksz := by simp only [State.kload]
@[simp] theorem State.kload_klen (s : State) : (s.kload).klen = s.klen := by simp only [State.kload]
@[simp] theorem State.kload_keyin (s : State) : (s.kload).keyin = s.keyin := by simp only [State.kload]
@[simp] theorem State.kload_dlen (s : State) : (s.kload).dlen = s.dlen := by simp only [State.kload]
@[simp] theorem State.kload_din (s : State) : (s.kload).din = s.din := by simp only [State.kload]
@[simp] theorem State.kload_dout (s : State) : (s.kload).dout = s.dout := by simp only [State.kload]
@[simp] theorem State.kload_upc (s : State) : (s.kload).upc = s.upc := by simp only [State.kload]
@[simp] theorem State.kload_busy (s : State) : (s.kload).busy = s.busy := by simp only [State.kload]
@[simp] theorem State.kload_violations (s : State) : (s.kload).violations = s.violations := by simp only [State.kload]
@[simp] theorem State.kload_host (s : State) : (s.kload).host = s.host := by simp only [State.kload]
@[simp] theorem State.kload_microPort (s : State) : (s.kload).microPort = s.microPort := by simp only [State.kload]
@[simp] theorem State.kload_tablePort (s : State) : (s.kload).tablePort = s.tablePort := by simp only [State.kload]
@[simp] theorem State.kload_tabOut (s : State) : (s.kload).tabOut = s.tabOut := by simp only [State.kload]
@[simp] theorem State.kload_drawn (s : State) : (s.kload).drawn = s.drawn := by simp only [State.kload]

/-! A write of the used bytes of `BLK`. -/

@[simp] theorem State.mapBlock_slot (s : State) (f : Nat → Byte) : (s.mapBlock f).slot = s.slot := by simp only [State.mapBlock]
@[simp] theorem State.mapBlock_err (s : State) (f : Nat → Byte) : (s.mapBlock f).err = s.err := by simp only [State.mapBlock]
@[simp] theorem State.mapBlock_rc (s : State) (f : Nat → Byte) : (s.mapBlock f).rc = s.rc := by simp only [State.mapBlock]
@[simp] theorem State.mapBlock_dir (s : State) (f : Nat → Byte) : (s.mapBlock f).dir = s.dir := by simp only [State.mapBlock]
@[simp] theorem State.mapBlock_nb (s : State) (f : Nat → Byte) : (s.mapBlock f).nb = s.nb := by simp only [State.mapBlock]
@[simp] theorem State.mapBlock_nk (s : State) (f : Nat → Byte) : (s.mapBlock f).nk = s.nk := by simp only [State.mapBlock]
@[simp] theorem State.mapBlock_nr (s : State) (f : Nat → Byte) : (s.mapBlock f).nr = s.nr := by simp only [State.mapBlock]
@[simp] theorem State.mapBlock_w (s : State) (f : Nat → Byte) : (s.mapBlock f).w = s.w := by simp only [State.mapBlock]
@[simp] theorem State.mapBlock_blk (s : State) (f : Nat → Byte) : (s.mapBlock f).blk = bufFill (blockBytes s.nb) f s.blk := by simp only [State.mapBlock]
@[simp] theorem State.mapBlock_tmp (s : State) (f : Nat → Byte) : (s.mapBlock f).tmp = s.tmp := by simp only [State.mapBlock]
@[simp] theorem State.mapBlock_cw (s : State) (f : Nat → Byte) : (s.mapBlock f).cw = s.cw := by simp only [State.mapBlock]
@[simp] theorem State.mapBlock_bsz (s : State) (f : Nat → Byte) : (s.mapBlock f).bsz = s.bsz := by simp only [State.mapBlock]
@[simp] theorem State.mapBlock_ksz (s : State) (f : Nat → Byte) : (s.mapBlock f).ksz = s.ksz := by simp only [State.mapBlock]
@[simp] theorem State.mapBlock_klen (s : State) (f : Nat → Byte) : (s.mapBlock f).klen = s.klen := by simp only [State.mapBlock]
@[simp] theorem State.mapBlock_keyin (s : State) (f : Nat → Byte) : (s.mapBlock f).keyin = s.keyin := by simp only [State.mapBlock]
@[simp] theorem State.mapBlock_dlen (s : State) (f : Nat → Byte) : (s.mapBlock f).dlen = s.dlen := by simp only [State.mapBlock]
@[simp] theorem State.mapBlock_din (s : State) (f : Nat → Byte) : (s.mapBlock f).din = s.din := by simp only [State.mapBlock]
@[simp] theorem State.mapBlock_dout (s : State) (f : Nat → Byte) : (s.mapBlock f).dout = s.dout := by simp only [State.mapBlock]
@[simp] theorem State.mapBlock_upc (s : State) (f : Nat → Byte) : (s.mapBlock f).upc = s.upc := by simp only [State.mapBlock]
@[simp] theorem State.mapBlock_busy (s : State) (f : Nat → Byte) : (s.mapBlock f).busy = s.busy := by simp only [State.mapBlock]
@[simp] theorem State.mapBlock_violations (s : State) (f : Nat → Byte) : (s.mapBlock f).violations = s.violations := by simp only [State.mapBlock]
@[simp] theorem State.mapBlock_host (s : State) (f : Nat → Byte) : (s.mapBlock f).host = s.host := by simp only [State.mapBlock]
@[simp] theorem State.mapBlock_microPort (s : State) (f : Nat → Byte) : (s.mapBlock f).microPort = s.microPort := by simp only [State.mapBlock]
@[simp] theorem State.mapBlock_tablePort (s : State) (f : Nat → Byte) : (s.mapBlock f).tablePort = s.tablePort := by simp only [State.mapBlock]
@[simp] theorem State.mapBlock_tabOut (s : State) (f : Nat → Byte) : (s.mapBlock f).tabOut = s.tabOut := by simp only [State.mapBlock]
@[simp] theorem State.mapBlock_drawn (s : State) (f : Nat → Byte) : (s.mapBlock f).drawn = s.drawn := by simp only [State.mapBlock]

/-! STBLK (R162). -/

@[simp] theorem State.stblk_slot (s : State) : (s.stblk).slot = s.slot := by simp only [State.stblk]
@[simp] theorem State.stblk_err (s : State) : (s.stblk).err = s.err := by simp only [State.stblk]
@[simp] theorem State.stblk_rc (s : State) : (s.stblk).rc = s.rc := by simp only [State.stblk]
@[simp] theorem State.stblk_dir (s : State) : (s.stblk).dir = s.dir := by simp only [State.stblk]
@[simp] theorem State.stblk_nb (s : State) : (s.stblk).nb = s.nb := by simp only [State.stblk]
@[simp] theorem State.stblk_nk (s : State) : (s.stblk).nk = s.nk := by simp only [State.stblk]
@[simp] theorem State.stblk_nr (s : State) : (s.stblk).nr = s.nr := by simp only [State.stblk]
@[simp] theorem State.stblk_w (s : State) : (s.stblk).w = s.w := by simp only [State.stblk]
@[simp] theorem State.stblk_blk (s : State) : (s.stblk).blk = s.blk := by simp only [State.stblk]
@[simp] theorem State.stblk_tmp (s : State) : (s.stblk).tmp = s.tmp := by simp only [State.stblk]
@[simp] theorem State.stblk_cw (s : State) : (s.stblk).cw = s.cw := by simp only [State.stblk]
@[simp] theorem State.stblk_bsz (s : State) : (s.stblk).bsz = s.bsz := by simp only [State.stblk]
@[simp] theorem State.stblk_ksz (s : State) : (s.stblk).ksz = s.ksz := by simp only [State.stblk]
@[simp] theorem State.stblk_klen (s : State) : (s.stblk).klen = s.klen := by simp only [State.stblk]
@[simp] theorem State.stblk_keyin (s : State) : (s.stblk).keyin = s.keyin := by simp only [State.stblk]
@[simp] theorem State.stblk_dlen (s : State) : (s.stblk).dlen = s.dlen := by simp only [State.stblk]
@[simp] theorem State.stblk_din (s : State) : (s.stblk).din = s.din := by simp only [State.stblk]
@[simp] theorem State.stblk_dout (s : State) : (s.stblk).dout = bufFill (blockBytes s.nb) (bufByte s.blk) s.dout := by simp only [State.stblk]
@[simp] theorem State.stblk_upc (s : State) : (s.stblk).upc = s.upc := by simp only [State.stblk]
@[simp] theorem State.stblk_busy (s : State) : (s.stblk).busy = s.busy := by simp only [State.stblk]
@[simp] theorem State.stblk_violations (s : State) : (s.stblk).violations = s.violations := by simp only [State.stblk]
@[simp] theorem State.stblk_host (s : State) : (s.stblk).host = s.host := by simp only [State.stblk]
@[simp] theorem State.stblk_microPort (s : State) : (s.stblk).microPort = s.microPort := by simp only [State.stblk]
@[simp] theorem State.stblk_tablePort (s : State) : (s.stblk).tablePort = s.tablePort := by simp only [State.stblk]
@[simp] theorem State.stblk_tabOut (s : State) : (s.stblk).tabOut = s.tabOut := by simp only [State.stblk]
@[simp] theorem State.stblk_drawn (s : State) : (s.stblk).drawn = s.drawn := by simp only [State.stblk]

/-! A lookup (R201 to R208). -/

@[simp] theorem State.lookup_slot (s : State) (t : Table) (a : Byte) : (s.lookup t a).slot = s.slot := by simp only [State.lookup]
@[simp] theorem State.lookup_err (s : State) (t : Table) (a : Byte) : (s.lookup t a).err = s.err := by simp only [State.lookup]
@[simp] theorem State.lookup_rc (s : State) (t : Table) (a : Byte) : (s.lookup t a).rc = s.rc := by simp only [State.lookup]
@[simp] theorem State.lookup_dir (s : State) (t : Table) (a : Byte) : (s.lookup t a).dir = s.dir := by simp only [State.lookup]
@[simp] theorem State.lookup_nb (s : State) (t : Table) (a : Byte) : (s.lookup t a).nb = s.nb := by simp only [State.lookup]
@[simp] theorem State.lookup_nk (s : State) (t : Table) (a : Byte) : (s.lookup t a).nk = s.nk := by simp only [State.lookup]
@[simp] theorem State.lookup_nr (s : State) (t : Table) (a : Byte) : (s.lookup t a).nr = s.nr := by simp only [State.lookup]
@[simp] theorem State.lookup_w (s : State) (t : Table) (a : Byte) : (s.lookup t a).w = s.w := by simp only [State.lookup]
@[simp] theorem State.lookup_blk (s : State) (t : Table) (a : Byte) : (s.lookup t a).blk = s.blk := by simp only [State.lookup]
@[simp] theorem State.lookup_tmp (s : State) (t : Table) (a : Byte) : (s.lookup t a).tmp = s.tmp := by simp only [State.lookup]
@[simp] theorem State.lookup_cw (s : State) (t : Table) (a : Byte) : (s.lookup t a).cw = s.cw := by simp only [State.lookup]
@[simp] theorem State.lookup_bsz (s : State) (t : Table) (a : Byte) : (s.lookup t a).bsz = s.bsz := by simp only [State.lookup]
@[simp] theorem State.lookup_ksz (s : State) (t : Table) (a : Byte) : (s.lookup t a).ksz = s.ksz := by simp only [State.lookup]
@[simp] theorem State.lookup_klen (s : State) (t : Table) (a : Byte) : (s.lookup t a).klen = s.klen := by simp only [State.lookup]
@[simp] theorem State.lookup_keyin (s : State) (t : Table) (a : Byte) : (s.lookup t a).keyin = s.keyin := by simp only [State.lookup]
@[simp] theorem State.lookup_dlen (s : State) (t : Table) (a : Byte) : (s.lookup t a).dlen = s.dlen := by simp only [State.lookup]
@[simp] theorem State.lookup_din (s : State) (t : Table) (a : Byte) : (s.lookup t a).din = s.din := by simp only [State.lookup]
@[simp] theorem State.lookup_dout (s : State) (t : Table) (a : Byte) : (s.lookup t a).dout = s.dout := by simp only [State.lookup]
@[simp] theorem State.lookup_upc (s : State) (t : Table) (a : Byte) : (s.lookup t a).upc = s.upc := by simp only [State.lookup]
@[simp] theorem State.lookup_busy (s : State) (t : Table) (a : Byte) : (s.lookup t a).busy = s.busy := by simp only [State.lookup]
@[simp] theorem State.lookup_violations (s : State) (t : Table) (a : Byte) : (s.lookup t a).violations = s.violations := by simp only [State.lookup]
@[simp] theorem State.lookup_host (s : State) (t : Table) (a : Byte) : (s.lookup t a).host = s.host := by simp only [State.lookup]
@[simp] theorem State.lookup_microPort (s : State) (t : Table) (a : Byte) : (s.lookup t a).microPort = s.microPort := by simp only [State.lookup]
@[simp] theorem State.lookup_tablePort (s : State) (t : Table) (a : Byte) : (s.lookup t a).tablePort = s.tablePort := by simp only [State.lookup]
@[simp] theorem State.lookup_tabOut (s : State) (t : Table) (a : Byte) : (s.lookup t a).tabOut = tabRead t a := by simp only [State.lookup]
@[simp] theorem State.lookup_drawn (s : State) (t : Table) (a : Byte) : (s.lookup t a).drawn = s.drawn := by simp only [State.lookup]

/-! The instance's registers become unspecified (R223, R228). -/

@[simp] theorem State.unspecifyInstance_slot (s : State) : (s.unspecifyInstance).slot = s.slot := by simp only [State.unspecifyInstance]
@[simp] theorem State.unspecifyInstance_err (s : State) : (s.unspecifyInstance).err = s.err := by simp only [State.unspecifyInstance]
@[simp] theorem State.unspecifyInstance_rc (s : State) : (s.unspecifyInstance).rc = s.rc := by simp only [State.unspecifyInstance]
@[simp] theorem State.unspecifyInstance_dir (s : State) : (s.unspecifyInstance).dir = Config.freeDirection s.drawn := by simp only [State.unspecifyInstance]
@[simp] theorem State.unspecifyInstance_nb (s : State) : (s.unspecifyInstance).nb = Config.freeBlockWords s.drawn := by simp only [State.unspecifyInstance]
@[simp] theorem State.unspecifyInstance_nk (s : State) : (s.unspecifyInstance).nk = Config.freeKeyWords s.drawn := by simp only [State.unspecifyInstance]
@[simp] theorem State.unspecifyInstance_nr (s : State) : (s.unspecifyInstance).nr = Config.freeRounds s.drawn := by simp only [State.unspecifyInstance]
@[simp] theorem State.unspecifyInstance_w (s : State) : (s.unspecifyInstance).w = Config.freeSchedule s.drawn := by simp only [State.unspecifyInstance]
@[simp] theorem State.unspecifyInstance_blk (s : State) : (s.unspecifyInstance).blk = s.blk := by simp only [State.unspecifyInstance]
@[simp] theorem State.unspecifyInstance_tmp (s : State) : (s.unspecifyInstance).tmp = s.tmp := by simp only [State.unspecifyInstance]
@[simp] theorem State.unspecifyInstance_cw (s : State) : (s.unspecifyInstance).cw = s.cw := by simp only [State.unspecifyInstance]
@[simp] theorem State.unspecifyInstance_bsz (s : State) : (s.unspecifyInstance).bsz = s.bsz := by simp only [State.unspecifyInstance]
@[simp] theorem State.unspecifyInstance_ksz (s : State) : (s.unspecifyInstance).ksz = s.ksz := by simp only [State.unspecifyInstance]
@[simp] theorem State.unspecifyInstance_klen (s : State) : (s.unspecifyInstance).klen = s.klen := by simp only [State.unspecifyInstance]
@[simp] theorem State.unspecifyInstance_keyin (s : State) : (s.unspecifyInstance).keyin = s.keyin := by simp only [State.unspecifyInstance]
@[simp] theorem State.unspecifyInstance_dlen (s : State) : (s.unspecifyInstance).dlen = s.dlen := by simp only [State.unspecifyInstance]
@[simp] theorem State.unspecifyInstance_din (s : State) : (s.unspecifyInstance).din = s.din := by simp only [State.unspecifyInstance]
@[simp] theorem State.unspecifyInstance_dout (s : State) : (s.unspecifyInstance).dout = s.dout := by simp only [State.unspecifyInstance]
@[simp] theorem State.unspecifyInstance_upc (s : State) : (s.unspecifyInstance).upc = s.upc := by simp only [State.unspecifyInstance]
@[simp] theorem State.unspecifyInstance_busy (s : State) : (s.unspecifyInstance).busy = s.busy := by simp only [State.unspecifyInstance]
@[simp] theorem State.unspecifyInstance_violations (s : State) : (s.unspecifyInstance).violations = s.violations := by simp only [State.unspecifyInstance]
@[simp] theorem State.unspecifyInstance_host (s : State) : (s.unspecifyInstance).host = s.host := by simp only [State.unspecifyInstance]
@[simp] theorem State.unspecifyInstance_microPort (s : State) : (s.unspecifyInstance).microPort = s.microPort := by simp only [State.unspecifyInstance]
@[simp] theorem State.unspecifyInstance_tablePort (s : State) : (s.unspecifyInstance).tablePort = s.tablePort := by simp only [State.unspecifyInstance]
@[simp] theorem State.unspecifyInstance_tabOut (s : State) : (s.unspecifyInstance).tabOut = s.tabOut := by simp only [State.unspecifyInstance]
@[simp] theorem State.unspecifyInstance_drawn (s : State) : (s.unspecifyInstance).drawn = s.drawn + 1 := by simp only [State.unspecifyInstance]

/-! `TMP` becomes unspecified (R155). -/

@[simp] theorem State.unspecifyTmp_slot (s : State) : (s.unspecifyTmp).slot = s.slot := by simp only [State.unspecifyTmp]
@[simp] theorem State.unspecifyTmp_err (s : State) : (s.unspecifyTmp).err = s.err := by simp only [State.unspecifyTmp]
@[simp] theorem State.unspecifyTmp_rc (s : State) : (s.unspecifyTmp).rc = s.rc := by simp only [State.unspecifyTmp]
@[simp] theorem State.unspecifyTmp_dir (s : State) : (s.unspecifyTmp).dir = s.dir := by simp only [State.unspecifyTmp]
@[simp] theorem State.unspecifyTmp_nb (s : State) : (s.unspecifyTmp).nb = s.nb := by simp only [State.unspecifyTmp]
@[simp] theorem State.unspecifyTmp_nk (s : State) : (s.unspecifyTmp).nk = s.nk := by simp only [State.unspecifyTmp]
@[simp] theorem State.unspecifyTmp_nr (s : State) : (s.unspecifyTmp).nr = s.nr := by simp only [State.unspecifyTmp]
@[simp] theorem State.unspecifyTmp_w (s : State) : (s.unspecifyTmp).w = s.w := by simp only [State.unspecifyTmp]
@[simp] theorem State.unspecifyTmp_blk (s : State) : (s.unspecifyTmp).blk = s.blk := by simp only [State.unspecifyTmp]
@[simp] theorem State.unspecifyTmp_tmp (s : State) : (s.unspecifyTmp).tmp = Config.freeTemporary s.drawn := by simp only [State.unspecifyTmp]
@[simp] theorem State.unspecifyTmp_cw (s : State) : (s.unspecifyTmp).cw = s.cw := by simp only [State.unspecifyTmp]
@[simp] theorem State.unspecifyTmp_bsz (s : State) : (s.unspecifyTmp).bsz = s.bsz := by simp only [State.unspecifyTmp]
@[simp] theorem State.unspecifyTmp_ksz (s : State) : (s.unspecifyTmp).ksz = s.ksz := by simp only [State.unspecifyTmp]
@[simp] theorem State.unspecifyTmp_klen (s : State) : (s.unspecifyTmp).klen = s.klen := by simp only [State.unspecifyTmp]
@[simp] theorem State.unspecifyTmp_keyin (s : State) : (s.unspecifyTmp).keyin = s.keyin := by simp only [State.unspecifyTmp]
@[simp] theorem State.unspecifyTmp_dlen (s : State) : (s.unspecifyTmp).dlen = s.dlen := by simp only [State.unspecifyTmp]
@[simp] theorem State.unspecifyTmp_din (s : State) : (s.unspecifyTmp).din = s.din := by simp only [State.unspecifyTmp]
@[simp] theorem State.unspecifyTmp_dout (s : State) : (s.unspecifyTmp).dout = s.dout := by simp only [State.unspecifyTmp]
@[simp] theorem State.unspecifyTmp_upc (s : State) : (s.unspecifyTmp).upc = s.upc := by simp only [State.unspecifyTmp]
@[simp] theorem State.unspecifyTmp_busy (s : State) : (s.unspecifyTmp).busy = s.busy := by simp only [State.unspecifyTmp]
@[simp] theorem State.unspecifyTmp_violations (s : State) : (s.unspecifyTmp).violations = s.violations := by simp only [State.unspecifyTmp]
@[simp] theorem State.unspecifyTmp_host (s : State) : (s.unspecifyTmp).host = s.host := by simp only [State.unspecifyTmp]
@[simp] theorem State.unspecifyTmp_microPort (s : State) : (s.unspecifyTmp).microPort = s.microPort := by simp only [State.unspecifyTmp]
@[simp] theorem State.unspecifyTmp_tablePort (s : State) : (s.unspecifyTmp).tablePort = s.tablePort := by simp only [State.unspecifyTmp]
@[simp] theorem State.unspecifyTmp_tabOut (s : State) : (s.unspecifyTmp).tabOut = s.tabOut := by simp only [State.unspecifyTmp]
@[simp] theorem State.unspecifyTmp_drawn (s : State) : (s.unspecifyTmp).drawn = s.drawn + 1 := by simp only [State.unspecifyTmp]

/-! `BLK` and `TMP` become unspecified (R34). -/

@[simp] theorem State.unspecifyScratch_slot (s : State) : (s.unspecifyScratch).slot = s.slot := by simp only [State.unspecifyScratch]
@[simp] theorem State.unspecifyScratch_err (s : State) : (s.unspecifyScratch).err = s.err := by simp only [State.unspecifyScratch]
@[simp] theorem State.unspecifyScratch_rc (s : State) : (s.unspecifyScratch).rc = s.rc := by simp only [State.unspecifyScratch]
@[simp] theorem State.unspecifyScratch_dir (s : State) : (s.unspecifyScratch).dir = s.dir := by simp only [State.unspecifyScratch]
@[simp] theorem State.unspecifyScratch_nb (s : State) : (s.unspecifyScratch).nb = s.nb := by simp only [State.unspecifyScratch]
@[simp] theorem State.unspecifyScratch_nk (s : State) : (s.unspecifyScratch).nk = s.nk := by simp only [State.unspecifyScratch]
@[simp] theorem State.unspecifyScratch_nr (s : State) : (s.unspecifyScratch).nr = s.nr := by simp only [State.unspecifyScratch]
@[simp] theorem State.unspecifyScratch_w (s : State) : (s.unspecifyScratch).w = s.w := by simp only [State.unspecifyScratch]
@[simp] theorem State.unspecifyScratch_blk (s : State) : (s.unspecifyScratch).blk = Config.freeBlock s.drawn := by simp only [State.unspecifyScratch]
@[simp] theorem State.unspecifyScratch_tmp (s : State) : (s.unspecifyScratch).tmp = Config.freeTemporary s.drawn := by simp only [State.unspecifyScratch]
@[simp] theorem State.unspecifyScratch_cw (s : State) : (s.unspecifyScratch).cw = s.cw := by simp only [State.unspecifyScratch]
@[simp] theorem State.unspecifyScratch_bsz (s : State) : (s.unspecifyScratch).bsz = s.bsz := by simp only [State.unspecifyScratch]
@[simp] theorem State.unspecifyScratch_ksz (s : State) : (s.unspecifyScratch).ksz = s.ksz := by simp only [State.unspecifyScratch]
@[simp] theorem State.unspecifyScratch_klen (s : State) : (s.unspecifyScratch).klen = s.klen := by simp only [State.unspecifyScratch]
@[simp] theorem State.unspecifyScratch_keyin (s : State) : (s.unspecifyScratch).keyin = s.keyin := by simp only [State.unspecifyScratch]
@[simp] theorem State.unspecifyScratch_dlen (s : State) : (s.unspecifyScratch).dlen = s.dlen := by simp only [State.unspecifyScratch]
@[simp] theorem State.unspecifyScratch_din (s : State) : (s.unspecifyScratch).din = s.din := by simp only [State.unspecifyScratch]
@[simp] theorem State.unspecifyScratch_dout (s : State) : (s.unspecifyScratch).dout = s.dout := by simp only [State.unspecifyScratch]
@[simp] theorem State.unspecifyScratch_upc (s : State) : (s.unspecifyScratch).upc = s.upc := by simp only [State.unspecifyScratch]
@[simp] theorem State.unspecifyScratch_busy (s : State) : (s.unspecifyScratch).busy = s.busy := by simp only [State.unspecifyScratch]
@[simp] theorem State.unspecifyScratch_violations (s : State) : (s.unspecifyScratch).violations = s.violations := by simp only [State.unspecifyScratch]
@[simp] theorem State.unspecifyScratch_host (s : State) : (s.unspecifyScratch).host = s.host := by simp only [State.unspecifyScratch]
@[simp] theorem State.unspecifyScratch_microPort (s : State) : (s.unspecifyScratch).microPort = s.microPort := by simp only [State.unspecifyScratch]
@[simp] theorem State.unspecifyScratch_tablePort (s : State) : (s.unspecifyScratch).tablePort = s.tablePort := by simp only [State.unspecifyScratch]
@[simp] theorem State.unspecifyScratch_tabOut (s : State) : (s.unspecifyScratch).tabOut = s.tabOut := by simp only [State.unspecifyScratch]
@[simp] theorem State.unspecifyScratch_drawn (s : State) : (s.unspecifyScratch).drawn = s.drawn + 1 := by simp only [State.unspecifyScratch]

/-! `DOUT[k..31]` becomes unspecified (R36). -/

@[simp] theorem State.unspecifyDout_slot (s : State) (k : Nat) : (s.unspecifyDout k).slot = s.slot := by simp only [State.unspecifyDout]
@[simp] theorem State.unspecifyDout_err (s : State) (k : Nat) : (s.unspecifyDout k).err = s.err := by simp only [State.unspecifyDout]
@[simp] theorem State.unspecifyDout_rc (s : State) (k : Nat) : (s.unspecifyDout k).rc = s.rc := by simp only [State.unspecifyDout]
@[simp] theorem State.unspecifyDout_dir (s : State) (k : Nat) : (s.unspecifyDout k).dir = s.dir := by simp only [State.unspecifyDout]
@[simp] theorem State.unspecifyDout_nb (s : State) (k : Nat) : (s.unspecifyDout k).nb = s.nb := by simp only [State.unspecifyDout]
@[simp] theorem State.unspecifyDout_nk (s : State) (k : Nat) : (s.unspecifyDout k).nk = s.nk := by simp only [State.unspecifyDout]
@[simp] theorem State.unspecifyDout_nr (s : State) (k : Nat) : (s.unspecifyDout k).nr = s.nr := by simp only [State.unspecifyDout]
@[simp] theorem State.unspecifyDout_w (s : State) (k : Nat) : (s.unspecifyDout k).w = s.w := by simp only [State.unspecifyDout]
@[simp] theorem State.unspecifyDout_blk (s : State) (k : Nat) : (s.unspecifyDout k).blk = s.blk := by simp only [State.unspecifyDout]
@[simp] theorem State.unspecifyDout_tmp (s : State) (k : Nat) : (s.unspecifyDout k).tmp = s.tmp := by simp only [State.unspecifyDout]
@[simp] theorem State.unspecifyDout_cw (s : State) (k : Nat) : (s.unspecifyDout k).cw = s.cw := by simp only [State.unspecifyDout]
@[simp] theorem State.unspecifyDout_bsz (s : State) (k : Nat) : (s.unspecifyDout k).bsz = s.bsz := by simp only [State.unspecifyDout]
@[simp] theorem State.unspecifyDout_ksz (s : State) (k : Nat) : (s.unspecifyDout k).ksz = s.ksz := by simp only [State.unspecifyDout]
@[simp] theorem State.unspecifyDout_klen (s : State) (k : Nat) : (s.unspecifyDout k).klen = s.klen := by simp only [State.unspecifyDout]
@[simp] theorem State.unspecifyDout_keyin (s : State) (k : Nat) : (s.unspecifyDout k).keyin = s.keyin := by simp only [State.unspecifyDout]
@[simp] theorem State.unspecifyDout_dlen (s : State) (k : Nat) : (s.unspecifyDout k).dlen = s.dlen := by simp only [State.unspecifyDout]
@[simp] theorem State.unspecifyDout_din (s : State) (k : Nat) : (s.unspecifyDout k).din = s.din := by simp only [State.unspecifyDout]
@[simp] theorem State.unspecifyDout_dout (s : State) (k : Nat) : (s.unspecifyDout k).dout = bufFill k (bufByte s.dout) (Config.freeOutput s.drawn) := by simp only [State.unspecifyDout]
@[simp] theorem State.unspecifyDout_upc (s : State) (k : Nat) : (s.unspecifyDout k).upc = s.upc := by simp only [State.unspecifyDout]
@[simp] theorem State.unspecifyDout_busy (s : State) (k : Nat) : (s.unspecifyDout k).busy = s.busy := by simp only [State.unspecifyDout]
@[simp] theorem State.unspecifyDout_violations (s : State) (k : Nat) : (s.unspecifyDout k).violations = s.violations := by simp only [State.unspecifyDout]
@[simp] theorem State.unspecifyDout_host (s : State) (k : Nat) : (s.unspecifyDout k).host = s.host := by simp only [State.unspecifyDout]
@[simp] theorem State.unspecifyDout_microPort (s : State) (k : Nat) : (s.unspecifyDout k).microPort = s.microPort := by simp only [State.unspecifyDout]
@[simp] theorem State.unspecifyDout_tablePort (s : State) (k : Nat) : (s.unspecifyDout k).tablePort = s.tablePort := by simp only [State.unspecifyDout]
@[simp] theorem State.unspecifyDout_tabOut (s : State) (k : Nat) : (s.unspecifyDout k).tabOut = s.tabOut := by simp only [State.unspecifyDout]
@[simp] theorem State.unspecifyDout_drawn (s : State) (k : Nat) : (s.unspecifyDout k).drawn = s.drawn + 1 := by simp only [State.unspecifyDout]

/-! Success (R221, R225, R228). -/

@[simp] theorem State.succeed_slot (s : State) : (s.succeed).slot = s.slot := by simp only [State.succeed]
@[simp] theorem State.succeed_err (s : State) : (s.succeed).err = .ok := by simp only [State.succeed]
@[simp] theorem State.succeed_rc (s : State) : (s.succeed).rc = .ok := by simp only [State.succeed]
@[simp] theorem State.succeed_dir (s : State) : (s.succeed).dir = s.dir := by simp only [State.succeed]
@[simp] theorem State.succeed_nb (s : State) : (s.succeed).nb = s.nb := by simp only [State.succeed]
@[simp] theorem State.succeed_nk (s : State) : (s.succeed).nk = s.nk := by simp only [State.succeed]
@[simp] theorem State.succeed_nr (s : State) : (s.succeed).nr = s.nr := by simp only [State.succeed]
@[simp] theorem State.succeed_w (s : State) : (s.succeed).w = s.w := by simp only [State.succeed]
@[simp] theorem State.succeed_blk (s : State) : (s.succeed).blk = s.blk := by simp only [State.succeed]
@[simp] theorem State.succeed_tmp (s : State) : (s.succeed).tmp = s.tmp := by simp only [State.succeed]
@[simp] theorem State.succeed_cw (s : State) : (s.succeed).cw = s.cw := by simp only [State.succeed]
@[simp] theorem State.succeed_bsz (s : State) : (s.succeed).bsz = s.bsz := by simp only [State.succeed]
@[simp] theorem State.succeed_ksz (s : State) : (s.succeed).ksz = s.ksz := by simp only [State.succeed]
@[simp] theorem State.succeed_klen (s : State) : (s.succeed).klen = s.klen := by simp only [State.succeed]
@[simp] theorem State.succeed_keyin (s : State) : (s.succeed).keyin = s.keyin := by simp only [State.succeed]
@[simp] theorem State.succeed_dlen (s : State) : (s.succeed).dlen = s.dlen := by simp only [State.succeed]
@[simp] theorem State.succeed_din (s : State) : (s.succeed).din = s.din := by simp only [State.succeed]
@[simp] theorem State.succeed_dout (s : State) : (s.succeed).dout = s.dout := by simp only [State.succeed]
@[simp] theorem State.succeed_upc (s : State) : (s.succeed).upc = s.upc := by simp only [State.succeed]
@[simp] theorem State.succeed_busy (s : State) : (s.succeed).busy = s.busy := by simp only [State.succeed]
@[simp] theorem State.succeed_violations (s : State) : (s.succeed).violations = s.violations := by simp only [State.succeed]
@[simp] theorem State.succeed_host (s : State) : (s.succeed).host = s.host := by simp only [State.succeed]
@[simp] theorem State.succeed_microPort (s : State) : (s.succeed).microPort = s.microPort := by simp only [State.succeed]
@[simp] theorem State.succeed_tablePort (s : State) : (s.succeed).tablePort = s.tablePort := by simp only [State.succeed]
@[simp] theorem State.succeed_tabOut (s : State) : (s.succeed).tabOut = s.tabOut := by simp only [State.succeed]
@[simp] theorem State.succeed_drawn (s : State) : (s.succeed).drawn = s.drawn := by simp only [State.succeed]

/-! `raise E` (R262). -/

@[simp] theorem State.raise_slot (s : State) (e : ResultCode) : (s.raise e).slot = s.slot := by simp only [State.raise]
@[simp] theorem State.raise_err (s : State) (e : ResultCode) : (s.raise e).err = e := by simp only [State.raise]
@[simp] theorem State.raise_rc (s : State) (e : ResultCode) : (s.raise e).rc = e := by simp only [State.raise]
@[simp] theorem State.raise_dir (s : State) (e : ResultCode) : (s.raise e).dir = s.dir := by simp only [State.raise]
@[simp] theorem State.raise_nb (s : State) (e : ResultCode) : (s.raise e).nb = s.nb := by simp only [State.raise]
@[simp] theorem State.raise_nk (s : State) (e : ResultCode) : (s.raise e).nk = s.nk := by simp only [State.raise]
@[simp] theorem State.raise_nr (s : State) (e : ResultCode) : (s.raise e).nr = s.nr := by simp only [State.raise]
@[simp] theorem State.raise_w (s : State) (e : ResultCode) : (s.raise e).w = s.w := by simp only [State.raise]
@[simp] theorem State.raise_blk (s : State) (e : ResultCode) : (s.raise e).blk = s.blk := by simp only [State.raise]
@[simp] theorem State.raise_tmp (s : State) (e : ResultCode) : (s.raise e).tmp = s.tmp := by simp only [State.raise]
@[simp] theorem State.raise_cw (s : State) (e : ResultCode) : (s.raise e).cw = s.cw := by simp only [State.raise]
@[simp] theorem State.raise_bsz (s : State) (e : ResultCode) : (s.raise e).bsz = s.bsz := by simp only [State.raise]
@[simp] theorem State.raise_ksz (s : State) (e : ResultCode) : (s.raise e).ksz = s.ksz := by simp only [State.raise]
@[simp] theorem State.raise_klen (s : State) (e : ResultCode) : (s.raise e).klen = s.klen := by simp only [State.raise]
@[simp] theorem State.raise_keyin (s : State) (e : ResultCode) : (s.raise e).keyin = s.keyin := by simp only [State.raise]
@[simp] theorem State.raise_dlen (s : State) (e : ResultCode) : (s.raise e).dlen = s.dlen := by simp only [State.raise]
@[simp] theorem State.raise_din (s : State) (e : ResultCode) : (s.raise e).din = s.din := by simp only [State.raise]
@[simp] theorem State.raise_dout (s : State) (e : ResultCode) : (s.raise e).dout = s.dout := by simp only [State.raise]
@[simp] theorem State.raise_upc (s : State) (e : ResultCode) : (s.raise e).upc = s.upc := by simp only [State.raise]
@[simp] theorem State.raise_busy (s : State) (e : ResultCode) : (s.raise e).busy = false := by simp only [State.raise]
@[simp] theorem State.raise_violations (s : State) (e : ResultCode) : (s.raise e).violations = if isContractViolation e then e :: s.violations else s.violations := by simp only [State.raise]
@[simp] theorem State.raise_host (s : State) (e : ResultCode) : (s.raise e).host = s.host := by simp only [State.raise]
@[simp] theorem State.raise_microPort (s : State) (e : ResultCode) : (s.raise e).microPort = s.microPort := by simp only [State.raise]
@[simp] theorem State.raise_tablePort (s : State) (e : ResultCode) : (s.raise e).tablePort = s.tablePort := by simp only [State.raise]
@[simp] theorem State.raise_tabOut (s : State) (e : ResultCode) : (s.raise e).tabOut = s.tabOut := by simp only [State.raise]
@[simp] theorem State.raise_drawn (s : State) (e : ResultCode) : (s.raise e).drawn = s.drawn := by simp only [State.raise]

/-! The start of a sequence (R38, R220). -/

@[simp] theorem State.begin_slot (s : State) : (s.begin).slot = s.slot := by simp only [State.begin]
@[simp] theorem State.begin_err (s : State) : (s.begin).err = s.err := by simp only [State.begin]
@[simp] theorem State.begin_rc (s : State) : (s.begin).rc = s.rc := by simp only [State.begin]
@[simp] theorem State.begin_dir (s : State) : (s.begin).dir = s.dir := by simp only [State.begin]
@[simp] theorem State.begin_nb (s : State) : (s.begin).nb = s.nb := by simp only [State.begin]
@[simp] theorem State.begin_nk (s : State) : (s.begin).nk = s.nk := by simp only [State.begin]
@[simp] theorem State.begin_nr (s : State) : (s.begin).nr = s.nr := by simp only [State.begin]
@[simp] theorem State.begin_w (s : State) : (s.begin).w = s.w := by simp only [State.begin]
@[simp] theorem State.begin_blk (s : State) : (s.begin).blk = s.blk := by simp only [State.begin]
@[simp] theorem State.begin_tmp (s : State) : (s.begin).tmp = s.tmp := by simp only [State.begin]
@[simp] theorem State.begin_cw (s : State) : (s.begin).cw = s.cw := by simp only [State.begin]
@[simp] theorem State.begin_bsz (s : State) : (s.begin).bsz = s.bsz := by simp only [State.begin]
@[simp] theorem State.begin_ksz (s : State) : (s.begin).ksz = s.ksz := by simp only [State.begin]
@[simp] theorem State.begin_klen (s : State) : (s.begin).klen = s.klen := by simp only [State.begin]
@[simp] theorem State.begin_keyin (s : State) : (s.begin).keyin = s.keyin := by simp only [State.begin]
@[simp] theorem State.begin_dlen (s : State) : (s.begin).dlen = s.dlen := by simp only [State.begin]
@[simp] theorem State.begin_din (s : State) : (s.begin).din = s.din := by simp only [State.begin]
@[simp] theorem State.begin_dout (s : State) : (s.begin).dout = s.dout := by simp only [State.begin]
@[simp] theorem State.begin_upc (s : State) : (s.begin).upc = 0#7 := by simp only [State.begin]
@[simp] theorem State.begin_busy (s : State) : (s.begin).busy = true := by simp only [State.begin]
@[simp] theorem State.begin_violations (s : State) : (s.begin).violations = s.violations := by simp only [State.begin]
@[simp] theorem State.begin_host (s : State) : (s.begin).host = s.host := by simp only [State.begin]
@[simp] theorem State.begin_microPort (s : State) : (s.begin).microPort = s.microPort := by simp only [State.begin]
@[simp] theorem State.begin_tablePort (s : State) : (s.begin).tablePort = s.tablePort := by simp only [State.begin]
@[simp] theorem State.begin_tabOut (s : State) : (s.begin).tabOut = s.tabOut := by simp only [State.begin]
@[simp] theorem State.begin_drawn (s : State) : (s.begin).drawn = s.drawn := by simp only [State.begin]

/-! `UPC` goes up (R38). -/

@[simp] theorem State.tick_slot (s : State) : (s.tick).slot = s.slot := by simp only [State.tick]
@[simp] theorem State.tick_err (s : State) : (s.tick).err = s.err := by simp only [State.tick]
@[simp] theorem State.tick_rc (s : State) : (s.tick).rc = s.rc := by simp only [State.tick]
@[simp] theorem State.tick_dir (s : State) : (s.tick).dir = s.dir := by simp only [State.tick]
@[simp] theorem State.tick_nb (s : State) : (s.tick).nb = s.nb := by simp only [State.tick]
@[simp] theorem State.tick_nk (s : State) : (s.tick).nk = s.nk := by simp only [State.tick]
@[simp] theorem State.tick_nr (s : State) : (s.tick).nr = s.nr := by simp only [State.tick]
@[simp] theorem State.tick_w (s : State) : (s.tick).w = s.w := by simp only [State.tick]
@[simp] theorem State.tick_blk (s : State) : (s.tick).blk = s.blk := by simp only [State.tick]
@[simp] theorem State.tick_tmp (s : State) : (s.tick).tmp = s.tmp := by simp only [State.tick]
@[simp] theorem State.tick_cw (s : State) : (s.tick).cw = s.cw := by simp only [State.tick]
@[simp] theorem State.tick_bsz (s : State) : (s.tick).bsz = s.bsz := by simp only [State.tick]
@[simp] theorem State.tick_ksz (s : State) : (s.tick).ksz = s.ksz := by simp only [State.tick]
@[simp] theorem State.tick_klen (s : State) : (s.tick).klen = s.klen := by simp only [State.tick]
@[simp] theorem State.tick_keyin (s : State) : (s.tick).keyin = s.keyin := by simp only [State.tick]
@[simp] theorem State.tick_dlen (s : State) : (s.tick).dlen = s.dlen := by simp only [State.tick]
@[simp] theorem State.tick_din (s : State) : (s.tick).din = s.din := by simp only [State.tick]
@[simp] theorem State.tick_dout (s : State) : (s.tick).dout = s.dout := by simp only [State.tick]
@[simp] theorem State.tick_upc (s : State) : (s.tick).upc = s.upc + 1#7 := by simp only [State.tick]
@[simp] theorem State.tick_busy (s : State) : (s.tick).busy = s.busy := by simp only [State.tick]
@[simp] theorem State.tick_violations (s : State) : (s.tick).violations = s.violations := by simp only [State.tick]
@[simp] theorem State.tick_host (s : State) : (s.tick).host = s.host := by simp only [State.tick]
@[simp] theorem State.tick_microPort (s : State) : (s.tick).microPort = s.microPort := by simp only [State.tick]
@[simp] theorem State.tick_tablePort (s : State) : (s.tick).tablePort = s.tablePort := by simp only [State.tick]
@[simp] theorem State.tick_tabOut (s : State) : (s.tick).tabOut = s.tabOut := by simp only [State.tick]
@[simp] theorem State.tick_drawn (s : State) : (s.tick).drawn = s.drawn := by simp only [State.tick]

/-! The end of a command (R220). -/

@[simp] theorem State.idle_slot (s : State) : (s.idle).slot = s.slot := by simp only [State.idle]
@[simp] theorem State.idle_err (s : State) : (s.idle).err = s.err := by simp only [State.idle]
@[simp] theorem State.idle_rc (s : State) : (s.idle).rc = s.rc := by simp only [State.idle]
@[simp] theorem State.idle_dir (s : State) : (s.idle).dir = s.dir := by simp only [State.idle]
@[simp] theorem State.idle_nb (s : State) : (s.idle).nb = s.nb := by simp only [State.idle]
@[simp] theorem State.idle_nk (s : State) : (s.idle).nk = s.nk := by simp only [State.idle]
@[simp] theorem State.idle_nr (s : State) : (s.idle).nr = s.nr := by simp only [State.idle]
@[simp] theorem State.idle_w (s : State) : (s.idle).w = s.w := by simp only [State.idle]
@[simp] theorem State.idle_blk (s : State) : (s.idle).blk = s.blk := by simp only [State.idle]
@[simp] theorem State.idle_tmp (s : State) : (s.idle).tmp = s.tmp := by simp only [State.idle]
@[simp] theorem State.idle_cw (s : State) : (s.idle).cw = s.cw := by simp only [State.idle]
@[simp] theorem State.idle_bsz (s : State) : (s.idle).bsz = s.bsz := by simp only [State.idle]
@[simp] theorem State.idle_ksz (s : State) : (s.idle).ksz = s.ksz := by simp only [State.idle]
@[simp] theorem State.idle_klen (s : State) : (s.idle).klen = s.klen := by simp only [State.idle]
@[simp] theorem State.idle_keyin (s : State) : (s.idle).keyin = s.keyin := by simp only [State.idle]
@[simp] theorem State.idle_dlen (s : State) : (s.idle).dlen = s.dlen := by simp only [State.idle]
@[simp] theorem State.idle_din (s : State) : (s.idle).din = s.din := by simp only [State.idle]
@[simp] theorem State.idle_dout (s : State) : (s.idle).dout = s.dout := by simp only [State.idle]
@[simp] theorem State.idle_upc (s : State) : (s.idle).upc = 0#7 := by simp only [State.idle]
@[simp] theorem State.idle_busy (s : State) : (s.idle).busy = false := by simp only [State.idle]
@[simp] theorem State.idle_violations (s : State) : (s.idle).violations = s.violations := by simp only [State.idle]
@[simp] theorem State.idle_host (s : State) : (s.idle).host = s.host := by simp only [State.idle]
@[simp] theorem State.idle_microPort (s : State) : (s.idle).microPort = s.microPort := by simp only [State.idle]
@[simp] theorem State.idle_tablePort (s : State) : (s.idle).tablePort = s.tablePort := by simp only [State.idle]
@[simp] theorem State.idle_tabOut (s : State) : (s.idle).tabOut = s.tabOut := by simp only [State.idle]
@[simp] theorem State.idle_drawn (s : State) : (s.idle).drawn = s.drawn := by simp only [State.idle]

/-! `NB`, `NK`, `NR` (R25). -/

@[simp] theorem State.configure_slot (s : State) (nb nk : WordCount) : (s.configure nb nk).slot = s.slot := by simp only [State.configure]
@[simp] theorem State.configure_err (s : State) (nb nk : WordCount) : (s.configure nb nk).err = s.err := by simp only [State.configure]
@[simp] theorem State.configure_rc (s : State) (nb nk : WordCount) : (s.configure nb nk).rc = s.rc := by simp only [State.configure]
@[simp] theorem State.configure_dir (s : State) (nb nk : WordCount) : (s.configure nb nk).dir = s.dir := by simp only [State.configure]
@[simp] theorem State.configure_nb (s : State) (nb nk : WordCount) : (s.configure nb nk).nb = nb := by simp only [State.configure]
@[simp] theorem State.configure_nk (s : State) (nb nk : WordCount) : (s.configure nb nk).nk = nk := by simp only [State.configure]
@[simp] theorem State.configure_nr (s : State) (nb nk : WordCount) : (s.configure nb nk).nr = roundsFor nb nk := by simp only [State.configure]
@[simp] theorem State.configure_w (s : State) (nb nk : WordCount) : (s.configure nb nk).w = s.w := by simp only [State.configure]
@[simp] theorem State.configure_blk (s : State) (nb nk : WordCount) : (s.configure nb nk).blk = s.blk := by simp only [State.configure]
@[simp] theorem State.configure_tmp (s : State) (nb nk : WordCount) : (s.configure nb nk).tmp = s.tmp := by simp only [State.configure]
@[simp] theorem State.configure_cw (s : State) (nb nk : WordCount) : (s.configure nb nk).cw = s.cw := by simp only [State.configure]
@[simp] theorem State.configure_bsz (s : State) (nb nk : WordCount) : (s.configure nb nk).bsz = s.bsz := by simp only [State.configure]
@[simp] theorem State.configure_ksz (s : State) (nb nk : WordCount) : (s.configure nb nk).ksz = s.ksz := by simp only [State.configure]
@[simp] theorem State.configure_klen (s : State) (nb nk : WordCount) : (s.configure nb nk).klen = s.klen := by simp only [State.configure]
@[simp] theorem State.configure_keyin (s : State) (nb nk : WordCount) : (s.configure nb nk).keyin = s.keyin := by simp only [State.configure]
@[simp] theorem State.configure_dlen (s : State) (nb nk : WordCount) : (s.configure nb nk).dlen = s.dlen := by simp only [State.configure]
@[simp] theorem State.configure_din (s : State) (nb nk : WordCount) : (s.configure nb nk).din = s.din := by simp only [State.configure]
@[simp] theorem State.configure_dout (s : State) (nb nk : WordCount) : (s.configure nb nk).dout = s.dout := by simp only [State.configure]
@[simp] theorem State.configure_upc (s : State) (nb nk : WordCount) : (s.configure nb nk).upc = s.upc := by simp only [State.configure]
@[simp] theorem State.configure_busy (s : State) (nb nk : WordCount) : (s.configure nb nk).busy = s.busy := by simp only [State.configure]
@[simp] theorem State.configure_violations (s : State) (nb nk : WordCount) : (s.configure nb nk).violations = s.violations := by simp only [State.configure]
@[simp] theorem State.configure_host (s : State) (nb nk : WordCount) : (s.configure nb nk).host = s.host := by simp only [State.configure]
@[simp] theorem State.configure_microPort (s : State) (nb nk : WordCount) : (s.configure nb nk).microPort = s.microPort := by simp only [State.configure]
@[simp] theorem State.configure_tablePort (s : State) (nb nk : WordCount) : (s.configure nb nk).tablePort = s.tablePort := by simp only [State.configure]
@[simp] theorem State.configure_tabOut (s : State) (nb nk : WordCount) : (s.configure nb nk).tabOut = s.tabOut := by simp only [State.configure]
@[simp] theorem State.configure_drawn (s : State) (nb nk : WordCount) : (s.configure nb nk).drawn = s.drawn := by simp only [State.configure]

end Sys2Proof.Machine
end

