-- ==== Sys2Proof/Laws/Operands.lean ====
section
/-! SUPPORT. What the operand forms do: sizes and their bounds, buffers, words and bytes, the checks of CONSTRUCT and
XFORM. -/

namespace Sys2Proof.Machine

theorem wordCount_bounds (c : WordCount) : 4 ≤ wordCount c ∧ wordCount c ≤ 8 := by cases c <;> decide

theorem roundCount_bounds (r : Rounds) : 10 ≤ roundCount r ∧ roundCount r ≤ 14 := by cases r <;> decide

theorem blockBytes_le (nb : WordCount) : blockBytes nb ≤ 32 := by cases nb <;> decide

theorem scheduleWords_le (nb : WordCount) (nr : Rounds) : scheduleWords nb nr ≤ 120 := by
  cases nb <;> cases nr <;> decide

theorem wordCount_lt_scheduleWords (nb nk : WordCount) (nr : Rounds) : wordCount nk < scheduleWords nb nr := by
  cases nb <;> cases nk <;> cases nr <;> decide

/-- A size register holds a legal size exactly when it is 32 times a size in words. -/
theorem sizeInWords?_eq_some (size : Half) (c : WordCount) :
    sizeInWords? size = some c ↔ size.toNat = 32 * wordCount c := by
  unfold sizeInWords?
  split_ifs with h1 h2 h3
  · subst h1; cases c <;> simp [wordCount]
  · subst h2; cases c <;> simp [wordCount]
  · subst h3; cases c <;> simp [wordCount]
  · have h1' : size.toNat ≠ 128 := fun h => h1 (BitVec.eq_of_toNat_eq (by simpa using h))
    have h2' : size.toNat ≠ 192 := fun h => h2 (BitVec.eq_of_toNat_eq (by simpa using h))
    have h3' : size.toNat ≠ 256 := fun h => h3 (BitVec.eq_of_toNat_eq (by simpa using h))
    cases c <;> simp [wordCount, h1', h2', h3']

theorem sizeInWords?_eq_none (size : Half) :
    sizeInWords? size = none ↔ ¬ (size.toNat = 128 ∨ size.toNat = 192 ∨ size.toNat = 256) := by
  constructor
  · intro h hs
    have hn : ∀ c, size.toNat ≠ 32 * wordCount c := fun c hc => by
      rw [(sizeInWords?_eq_some size c).2 hc] at h
      exact absurd h (by simp)
    rcases hs with hs | hs | hs
    · exact hn .four (by simpa [wordCount] using hs)
    · exact hn .six (by simpa [wordCount] using hs)
    · exact hn .eight (by simpa [wordCount] using hs)
  · intro h
    cases hc : sizeInWords? size with
    | none => rfl
    | some c =>
      have := (sizeInWords?_eq_some size c).1 hc
      cases c <;> simp [wordCount] at this <;> omega

/-- Reading a byte of a filled buffer. -/
theorem bufByte_bufFill (len : Nat) (f : Nat → Byte) (b : Buf) (n : Nat) (h : n < 32) :
    bufByte (bufFill len f b) n = if n < len then f n else bufByte b n := by
  simp [bufByte, bufFill, h]

/-- Two buffers with the same bytes are the same. -/
theorem buf_ext (a b : Buf) (h : ∀ n < 32, bufByte a n = bufByte b n) : a = b := by
  apply Vector.ext
  intro n hn
  simpa [bufByte, hn] using h n hn

/-- Reading a byte of a buffer the host has written. -/
theorem bufByte_bufLoad (bytes : List Byte) (b : Buf) (n : Nat) (h : n < 32) :
    bufByte (bufLoad bytes b) n = (bytes[n]?).getD (bufByte b n) := by
  rw [bufLoad, bufByte_bufFill _ _ _ _ h]
  split
  · next hlt => simp [hlt]
  · next hge => simp [List.getElem?_eq_none (Nat.le_of_not_lt hge)]

/-- Reading a word after a word is written. -/
theorem word_setWord (s : State) (i j : Nat) (v : Word) (hj : j < 120) :
    (s.setWord i v).word j = if j = i then v else s.word j := by
  simp only [State.word, State.setWord, hj, dif_pos]
  rw [Vector.getElem_setIfInBounds]
  split_ifs with h1 h2 h2 <;> first | rfl | omega

/-- Reading a word after KLOAD (R120). -/
theorem word_kload (s : State) (j : Nat) (hj : j < 120) :
    (s.kload).word j =
      if j < wordCount s.nk then
        be32 (bufByte s.keyin (4 * j)) (bufByte s.keyin (4 * j + 1)) (bufByte s.keyin (4 * j + 2))
          (bufByte s.keyin (4 * j + 3))
      else s.word j := by
  simp [State.word, State.kload, hj]

/-- A word from 120 up does not exist, whatever the state. -/
theorem word_absent (s : State) (i : Nat) (h : 120 ≤ i) : s.word i = Config.absentWord i := by
  simp [State.word, Nat.not_lt.2 h]

/-- The bytes of an assembled word, high-order byte first (R13). -/
theorem byteOf_be32 (b0 b1 b2 b3 : Byte) :
    byteOf 0 (be32 b0 b1 b2 b3) = b0 ∧ byteOf 1 (be32 b0 b1 b2 b3) = b1 ∧
    byteOf 2 (be32 b0 b1 b2 b3) = b2 ∧ byteOf 3 (be32 b0 b1 b2 b3) = b3 := by
  unfold byteOf be32
  refine ⟨?_, ?_, ?_, ?_⟩ <;>
    · ext i hi
      simp only [BitVec.getElem_extractLsb', BitVec.getLsbD_append]
      simp
      grind

/-- A word is assembled from its bytes (R13). -/
theorem be32_byteOf (w : Word) : be32 (byteOf 0 w) (byteOf 1 w) (byteOf 2 w) (byteOf 3 w) = w := by
  unfold byteOf be32
  ext i hi
  simp only [← BitVec.getLsbD_eq_getElem, BitVec.getLsbD_append, BitVec.getLsbD_extractLsb']
  grind

/-- The byte view of the schedule (R30). -/
theorem ekByte_word (s : State) (i k : Nat) (hk : k < 4) : s.ekByte (4 * i + k) = byteOf k (s.word i) := by
  have h1 : (4 * i + k) % 4 = k := by omega
  have h2 : (4 * i + k) / 4 = i := by omega
  simp [State.ekByte, h1, h2]

/-- What CONSTRUCT's tests accept (R221). -/
theorem checkConstruct_eq_ok (s : State) (nb nk : WordCount) :
    s.checkConstruct = .ok (nb, nk) ↔
      s.bsz.toNat = 32 * wordCount nb ∧ s.ksz.toNat = 32 * wordCount nk ∧ s.klen.toNat = 4 * wordCount nk := by
  unfold State.checkConstruct
  cases hb : sizeInWords? s.bsz with
  | none =>
    have := (sizeInWords?_eq_none s.bsz).1 hb
    cases nb <;> simp [wordCount] <;> omega
  | some b =>
    have hb' := (sizeInWords?_eq_some _ _).1 hb
    cases hk : sizeInWords? s.ksz with
    | none =>
      have := (sizeInWords?_eq_none s.ksz).1 hk
      cases nk <;> simp [wordCount] <;> omega
    | some k =>
      have hk' := (sizeInWords?_eq_some _ _).1 hk
      have inj : ∀ a c, wordCount a = wordCount c → a = c := fun a c => by cases a <;> cases c <;> decide
      by_cases hl : 8 * s.klen.toNat = s.ksz.toNat
      · simp only [hl, ne_eq, not_true_eq_false, if_false, Except.ok.injEq, Prod.mk.injEq]
        constructor
        · rintro ⟨rfl, rfl⟩
          omega
        · rintro ⟨h1, h2, _⟩
          exact ⟨inj _ _ (by omega), inj _ _ (by omega)⟩
      · simp only [hl, ne_eq, not_false_eq_true, if_true, reduceCtorEq, false_iff]
        omega

/-- What XFORM's tests accept (R225). -/
theorem checkXform_eq_ok (s : State) :
    s.checkXform = .ok () ↔ s.slot = .ready ∧ s.dlen.toNat = blockBytes s.nb := by
  unfold State.checkXform
  split_ifs with h1 h2 <;> simp_all

end Sys2Proof.Machine
end

