-- ==== Sys2Proof/Laws/Ops.lean ====
section
/-! SUPPORT. Everything the shared operations of a command can do, one lemma each, for the provers to cite instead of
unfolding them. -/

namespace Sys2Proof.Machine

/-- CONSTRUCT up to its sequence: a failed attempt with one of the three configuration errors, or the sequence is
started on the configuration the operands give (R221). -/
theorem openConstruct_cases (s : State) :
    (∃ e, s.checkConstruct = .error e ∧ isContractViolation e = false ∧ s.openConstruct = s.failConstruct e) ∨
    (∃ nb nk, s.checkConstruct = .ok (nb, nk) ∧
      s.openConstruct = ({ s with slot := .empty }.configure nb nk).begin) := by
  unfold State.openConstruct
  cases h : s.checkConstruct with
  | ok p => exact .inr ⟨p.1, p.2, rfl, rfl⟩
  | error e =>
    refine .inl ⟨e, rfl, ?_, rfl⟩
    unfold State.checkConstruct at h
    split at h
    · cases h; rfl
    · split at h
      · cases h; rfl
      · split at h <;> cases h
        rfl

/-- XFORM up to its sequence: one of the two contract violations, or the sequence is started (R225). -/
theorem openXform_cases (s : State) :
    (s.slot = .empty ∧ s.openXform = s.failXform .noTransform) ∨
    (s.slot = .ready ∧ s.dlen.toNat ≠ blockBytes s.nb ∧ s.openXform = s.failXform .blockLength) ∨
    (s.slot = .ready ∧ s.dlen.toNat = blockBytes s.nb ∧ s.openXform = s.begin) := by
  unfold State.openXform State.checkXform
  cases hs : s.slot with
  | empty => simp
  | ready => by_cases hl : s.dlen.toNat = blockBytes s.nb <;> simp [hl]

/-- A micro-operation changes only `W`, `BLK`, `TMP`, `DOUT` and the count of free values drawn (R60). -/
theorem MicroOp.apply_frame (m : MicroOp) (s : State) :
    m.apply s = { s with
      w := (m.apply s).w
      blk := (m.apply s).blk
      tmp := (m.apply s).tmp
      dout := (m.apply s).dout
      drawn := (m.apply s).drawn } := by
  cases m <;>
    simp only [MicroOp.apply, State.kload, State.kstep, State.setWord, State.ldblk, State.ark, State.subb, State.isubb,
      State.rotateRows, State.mixc, State.imixc, State.stblk, State.mapBlock, State.unspecifyTmp]

/-- A micro-operation in the configuration's range is the operation `exec` runs. -/
theorem exec_toInstr (m : MicroOp) (s : State)
    (hi : ∀ i, m = .kstep i → s.kstepInRange i) (hr : ∀ r, m = .ark r → s.arkInRange r) :
    exec m.toInstr s = .next (m.apply s) := by
  cases m with
  | kstep i =>
    have h := hi i rfl
    have h120 := scheduleWords_le s.nb s.nr
    have hmod : (BitVec.ofNat 8 i).toNat = i := by
      rw [BitVec.toNat_ofNat]
      exact Nat.mod_eq_of_lt (by have := h.2; omega)
    simp only [MicroOp.toInstr, exec, execKstep, MicroOp.apply]
    rw [hmod, if_pos h]
  | ark r =>
    have h := hr r rfl
    have h14 := roundCount_bounds s.nr
    have hmod : (BitVec.ofNat 8 r).toNat = r := by
      rw [BitVec.toNat_ofNat]
      exact Nat.mod_eq_of_lt (by have : r ≤ roundCount s.nr := h; omega)
    simp only [MicroOp.toInstr, exec, execArk, MicroOp.apply]
    rw [hmod, if_pos h]
  | _ => rfl

/-- Every entry of the key scheduler's sequence is in range (R69, R98). -/
theorem keySeq_inRange (nb nk : WordCount) (nr : Rounds) (m : MicroOp) (hm : m ∈ keySeq nb nk nr) :
    (∀ i, m = .kstep i → wordCount nk ≤ i ∧ i < scheduleWords nb nr) ∧ ∀ r, m ≠ .ark r := by
  have hlt := wordCount_lt_scheduleWords nb nk nr
  simp only [keySeq, List.mem_cons, List.mem_append, List.mem_map, List.mem_range'_1, List.not_mem_nil, or_false] at hm
  rcases hm with rfl | ⟨j, hj, rfl⟩ | rfl
  · simp
  · refine ⟨fun i hi => ?_, by simp⟩
    cases hi
    omega
  · simp

/-- Every entry of the engine's sequences is in range (R69, R98). -/
theorem xformSeq_inRange (d : Direction) (nr : Rounds) (m : MicroOp) (hm : m ∈ xformSeq d nr) :
    (∀ r, m = .ark r → r ≤ roundCount nr) ∧ ∀ i, m ≠ .kstep i := by
  have hb := roundCount_bounds nr
  cases d <;>
    · simp only [xformSeq, encSeq, decSeq, List.mem_append, List.mem_cons, List.mem_flatMap, List.mem_reverse,
        List.mem_range'_1, List.not_mem_nil, or_false] at hm
      constructor
      · rintro r rfl
        simp at hm
        omega
      · rintro i rfl
        simp at hm

/-- Running micro-operations changes only `W`, `BLK`, `TMP`, `DOUT`, `UPC` and the count of free values drawn. -/
theorem runMicro_frame (ms : List MicroOp) (s : State) :
    s.runMicro ms = { s with
      w := (s.runMicro ms).w
      blk := (s.runMicro ms).blk
      tmp := (s.runMicro ms).tmp
      dout := (s.runMicro ms).dout
      upc := (s.runMicro ms).upc
      drawn := (s.runMicro ms).drawn } := by
  induction ms generalizing s with
  | nil => rfl
  | cons m ms ih =>
    have h : s.runMicro (m :: ms) = ((m.apply s).tick).runMicro ms := rfl
    rw [h, ih]
    rw [MicroOp.apply_frame m s]
    rfl

/-- Running micro-operations raises `UPC` by their number (R38). -/
theorem runMicro_upc (ms : List MicroOp) (s : State) :
    (s.runMicro ms).upc = s.upc + BitVec.ofNat 7 ms.length := by
  induction ms generalizing s with
  | nil => simp [State.runMicro]
  | cons m ms ih =>
    have h : s.runMicro (m :: ms) = ((m.apply s).tick).runMicro ms := rfl
    rw [h, ih, State.tick_upc, MicroOp.apply_frame m s, List.length_cons, Nat.add_comm, BitVec.ofNat_add,
      BitVec.add_assoc]

theorem runMicro_append (as bs : List MicroOp) (s : State) :
    s.runMicro (as ++ bs) = (s.runMicro as).runMicro bs := by
  simp [State.runMicro, List.foldl_append]

end Sys2Proof.Machine
end

