-- ==== Sys2Proof/Laws/Cipher.lean ====
section
/-! SUPPORT. The shape of the cipher's two sequences (`41_round_datapath.md` R171), and what the function of R172 takes
its block from. -/

namespace Sys2Proof.Machine

/-- An inverse micro-operation's inverse is the operation. -/
@[simp] theorem MicroOp.inverse_inverse (m : MicroOp) : m.inverse.inverse = m := by cases m <;> rfl

/-- "`DecSeq` is `EncSeq` read backwards with every micro-operation replaced by its inverse, LDBLK and STBLK keeping
their places" (R171). -/
theorem decSeq_mirrors_encSeq (nr : Rounds) :
    decSeq nr = .ldblk :: ((roundsOf (encSeq nr)).reverse.map MicroOp.inverse ++ [.stblk]) := by
  cases nr <;> decide

/-- The encrypt sequence is its rounds between the two copies (R170). -/
theorem encSeq_rounds (nr : Rounds) : encSeq nr = .ldblk :: (roundsOf (encSeq nr) ++ [.stblk]) := by
  cases nr <;> decide

/-- A block is as long as the block size says (R9). -/
@[simp] theorem blockOf_length (nb : WordCount) (b : Buf) : (blockOf nb b).length = blockBytes nb := by
  simp [blockOf]

@[simp] theorem cipherStart_nb (nb nr w input) : (cipherStart nb nr w input).nb = nb := rfl
@[simp] theorem cipherStart_nr (nb nr w input) : (cipherStart nb nr w input).nr = nr := rfl
@[simp] theorem cipherStart_w (nb nr w input) : (cipherStart nb nr w input).w = w := rfl
@[simp] theorem cipherStart_din (nb nr w input) :
    (cipherStart nb nr w input).din = bufLoad input State.reset.din := rfl

end Sys2Proof.Machine
end

