-- ==== Sys2Proof/Laws/Exec.lean ====
section
/-! SUPPORT. Everything `exec` can do: one lemma for the micro-operations and the lookups together, one for each host
command. -/

namespace Sys2Proof.Machine

/-- A micro-operation or a lookup that answers a next state changes only `W`, `BLK`, `TMP`, `DOUT`, `tabOut` and the
count of free values drawn. -/
theorem exec_datapath_frame (i : Instr) (s t : State) (hc : ∀ d, i ≠ .construct d) (hx : i ≠ .xform)
    (hd : i ≠ .discard) (h : exec i s = .next t) :
    t = { s with w := t.w, blk := t.blk, tmp := t.tmp, dout := t.dout, tabOut := t.tabOut, drawn := t.drawn } := by
  cases i with
  | construct d => exact absurd rfl (hc d)
  | xform => exact absurd rfl hx
  | discard => exact absurd rfl hd
  | kstep i =>
    simp only [exec, execKstep] at h
    split at h
    · cases h
      simp only [State.kstep, State.setWord]
    · cases h
  | ark r =>
    simp only [exec, execArk] at h
    split at h
    · cases h
      simp only [State.ark, State.mapBlock]
    · cases h
  | kser =>
    simp only [exec, execKser] at h
    cases h
    rfl
  | _ =>
    simp only [exec, execKload, execLdblk, execSubb, execIsubb, execShrow, execIshrow, execMixc, execImixc, execStblk,
      execLutSbox, execLutIsbox, execLutM2, execLutM3, execLutM9, execLutM11, execLutM13, execLutM14] at h
    cases h
    simp only [State.kload, State.ldblk, State.subb, State.isubb, State.rotateRows, State.mixc, State.imixc,
      State.stblk, State.mapBlock, State.unspecifyTmp, State.lookup]

/-- What CONSTRUCT can do (R221): refused while BUSY = 1; else a configuration error; else the whole sequence on the
configuration the operands give. -/
theorem execConstruct_cases (d : Direction) (s : State) :
    (s.busy = true ∧ exec (.construct d) s = .refused .commandWhileBusy) ∨
    (s.busy = false ∧ ∃ e, s.checkConstruct = .error e ∧ isContractViolation e = false ∧
      exec (.construct d) s = .next (s.failConstruct e)) ∨
    (s.busy = false ∧ ∃ nb nk, s.checkConstruct = .ok (nb, nk) ∧
      exec (.construct d) s =
        .next ((((({ s with slot := .empty }.configure nb nk).begin).runMicro
          (keySeq nb nk (roundsFor nb nk)))).closeConstruct d)) := by
  cases hb : s.busy with
  | true => exact .inl ⟨rfl, by simp [exec, execConstruct, hb]⟩
  | false =>
    refine .inr ?_
    rcases openConstruct_cases s with ⟨e, he, hv, ho⟩ | ⟨nb, nk, hc, ho⟩
    · exact .inl ⟨rfl, e, he, hv, by simp [exec, execConstruct, hb, ho, State.failConstruct]⟩
    · exact .inr ⟨rfl, nb, nk, hc, by simp [exec, execConstruct, hb, ho]⟩

/-- What XFORM can do (R225): refused while BUSY = 1; else a contract violation; else the whole sequence of the
direction. -/
theorem execXform_cases (s : State) :
    (s.busy = true ∧ exec .xform s = .refused .commandWhileBusy) ∨
    (s.busy = false ∧ s.slot = .empty ∧ exec .xform s = .next (s.failXform .noTransform)) ∨
    (s.busy = false ∧ s.slot = .ready ∧ s.dlen.toNat ≠ blockBytes s.nb ∧
      exec .xform s = .next (s.failXform .blockLength)) ∨
    (s.busy = false ∧ s.slot = .ready ∧ s.dlen.toNat = blockBytes s.nb ∧
      exec .xform s = .next ((s.begin.runMicro (xformSeq s.dir s.nr)).closeXform)) := by
  cases hb : s.busy with
  | true => exact .inl ⟨rfl, by simp [exec, execXform, hb]⟩
  | false =>
    refine .inr ?_
    rcases openXform_cases s with ⟨hs, ho⟩ | ⟨hs, hl, ho⟩ | ⟨hs, hl, ho⟩
    · exact .inl ⟨rfl, hs, by simp [exec, execXform, hb, ho, State.failXform]⟩
    · exact .inr (.inl ⟨rfl, hs, hl, by simp [exec, execXform, hb, ho, State.failXform]⟩)
    · exact .inr (.inr ⟨rfl, hs, hl, by simp [exec, execXform, hb, ho]⟩)

/-- What DISCARD can do (R228). -/
theorem execDiscard_cases (s : State) :
    (s.busy = true ∧ exec .discard s = .refused .commandWhileBusy) ∨
    (s.busy = false ∧ s.slot = .empty ∧ exec .discard s = .next s.succeed) ∨
    (s.busy = false ∧ s.slot = .ready ∧ exec .discard s =
      .next (((({ s with slot := .empty }.unspecifyInstance).unspecifyScratch).unspecifyDout 0).succeed)) := by
  cases hb : s.busy with
  | true => exact .inl ⟨rfl, by simp [exec, execDiscard, hb]⟩
  | false =>
    cases hs : s.slot with
    | empty => exact .inr (.inl ⟨rfl, rfl, by simp [exec, execDiscard, hb, hs]⟩)
    | ready => exact .inr (.inr ⟨rfl, rfl, by simp [exec, execDiscard, hb, hs]⟩)

end Sys2Proof.Machine
end

