-- ==== Sys2Proof/Laws/PerInstr.lean ====
section
/-! SUPPORT. A law of every operation as syntax: its word is an instance of its row of the opcode table. -/

namespace Sys2Proof.Laws.TableRow

/-- A row of `opcode_table.json`: the format, and the `match` of the bits its `mask` fixes. -/
inductive Row where
  | host (mask value : BitVec 8)
  | micro (mask value : BitVec 12)
  | table (mask value : BitVec 11)
deriving DecidableEq, Repr

/-- The row of each operation, as the table has it. -/
def row : Instr → Row
  | .construct _ => .host 0xfe 0x10
  | .xform => .host 0xff 0x20
  | .discard => .host 0xff 0x30
  | .kload => .micro 0xfff 0x100
  | .kstep _ => .micro 0xf00 0x200
  | .kser => .micro 0xfff 0x300
  | .ldblk => .micro 0xfff 0x400
  | .ark _ => .micro 0xf00 0x500
  | .subb => .micro 0xfff 0x600
  | .isubb => .micro 0xfff 0x700
  | .shrow => .micro 0xfff 0x800
  | .ishrow => .micro 0xfff 0x900
  | .mixc => .micro 0xfff 0xa00
  | .imixc => .micro 0xfff 0xb00
  | .stblk => .micro 0xfff 0xc00
  | .lutSbox _ => .table 0x700 0x000
  | .lutIsbox _ => .table 0x700 0x100
  | .lutM2 _ => .table 0x700 0x200
  | .lutM3 _ => .table 0x700 0x300
  | .lutM9 _ => .table 0x700 0x400
  | .lutM11 _ => .table 0x700 0x500
  | .lutM13 _ => .table 0x700 0x600
  | .lutM14 _ => .table 0x700 0x700

/-- A word is an instance of a row: the same format, and the fixed bits are the row's. -/
def fits : CodeWord → Row → Bool
  | .host w, .host mask value => w &&& mask == value
  | .micro w, .micro mask value => w &&& mask == value
  | .table w, .table mask value => w &&& mask == value
  | .host _, .micro _ _ | .host _, .table _ _ | .micro _, .host _ _ | .micro _, .table _ _
  | .table _, .host _ _ | .table _, .micro _ _ => false

/-- The word of an operation is an instance of its row. -/
def Statement (i : Instr) : Prop := fits (encode i) (row i) = true

theorem construct (d : Direction) : Statement (.construct d) := by cases d <;> rfl
theorem xform : Statement .xform := rfl
theorem discard : Statement .discard := rfl
theorem kload : Statement .kload := rfl
theorem kstep (i : Byte) : Statement (.kstep i) := by unfold Statement; revert i; decide
theorem kser : Statement .kser := rfl
theorem ldblk : Statement .ldblk := rfl
theorem ark (r : Byte) : Statement (.ark r) := by unfold Statement; revert r; decide
theorem subb : Statement .subb := rfl
theorem isubb : Statement .isubb := rfl
theorem shrow : Statement .shrow := rfl
theorem ishrow : Statement .ishrow := rfl
theorem mixc : Statement .mixc := rfl
theorem imixc : Statement .imixc := rfl
theorem stblk : Statement .stblk := rfl
theorem lutSbox (a : Byte) : Statement (.lutSbox a) := by unfold Statement; revert a; decide
theorem lutIsbox (a : Byte) : Statement (.lutIsbox a) := by unfold Statement; revert a; decide
theorem lutM2 (a : Byte) : Statement (.lutM2 a) := by unfold Statement; revert a; decide
theorem lutM3 (a : Byte) : Statement (.lutM3 a) := by unfold Statement; revert a; decide
theorem lutM9 (a : Byte) : Statement (.lutM9 a) := by unfold Statement; revert a; decide
theorem lutM11 (a : Byte) : Statement (.lutM11 a) := by unfold Statement; revert a; decide
theorem lutM13 (a : Byte) : Statement (.lutM13 a) := by unfold Statement; revert a; decide
theorem lutM14 (a : Byte) : Statement (.lutM14 a) := by unfold Statement; revert a; decide

end Sys2Proof.Laws.TableRow
end

