-- ==== Sys2Proof/Laws/Step.lean ====
section
/-! SUPPORT. Everything a step can do, said once: which of the fetch's cases holds and what the step then is. -/

namespace Sys2Proof.Machine

/-- An operation that is not the sequencer's is retired as it is. -/
@[simp] theorem retireResult_plain (o : Result) : retireResult .plain o = o := by
  cases o <;> rfl

/-- A step at a state whose fetch issues an operation. -/
theorem step_issue (s t : State) (i : Instr) (r : Retire) (h : s.fetch = .issue i t r) :
    step s = retireResult r (exec i t) := by
  simp only [step, h]

theorem step_settled (s t : State) (h : s.fetch = .settled t) : step s = .next t := by
  simp only [step, h]

/-- With an address at the table port the step is its lookup. -/
theorem step_tablePort (s : State) (a : BitVec 11) (h : s.tablePort = some a) :
    step s = exec (decodeTable a) { s with tablePort := none } := by
  rw [step_issue s { s with tablePort := none } (decodeTable a) .plain (by simp only [State.fetch, h]), retireResult_plain]

/-- With a word at the micro-operation port the step is its operation, or its refusal. -/
theorem step_microPort (s : State) (w : BitVec 12) (ht : s.tablePort = none) (hm : s.microPort = some w) :
    step s = match decodeMicro w with
      | .ok i => exec i { s with microPort := none }
      | .error _ => .refused .reservedWord := by
  cases hd : decodeMicro w with
  | ok i =>
    rw [step_issue s { s with microPort := none } i .plain (by simp only [State.fetch, ht, hm, hd]), retireResult_plain]
  | error e => simp only [step, State.fetch, ht, hm, hd]

/-- With no word at the internal ports the step is the host's or the sequencer's. -/
theorem fetch_agent (s : State) (ht : s.tablePort = none) (hm : s.microPort = none) : s.fetch = s.fetchAgent := by
  simp only [State.fetch, ht, hm]

/-- While BUSY = 1 and no reset comes, the sequencer moves. -/
theorem fetchAgent_busy (s : State) (hb : s.busy = true) (hr : s.host.head? ≠ some .reset) :
    s.fetchAgent = s.fetchMicroOp := by
  unfold State.fetchAgent
  cases hh : s.host with
  | nil => simp [hb]
  | cons m rest =>
    have hne : m ≠ .reset := fun he => hr (by simp [hh, he])
    simp [hb, hne]

/-- While BUSY = 0, or when the move is a reset, the host moves. -/
theorem fetchAgent_move (s : State) (m : HostMove) (rest : List HostMove) (hh : s.host = m :: rest)
    (hb : s.busy = false ∨ m = .reset) : s.fetchAgent = { s with host := rest }.fetchMove m := by
  unfold State.fetchAgent
  rcases hb with hb | hb <;> simp [hh, hb]

/-- What the sequencer issues: the entry of the running sequence at `UPC`. -/
theorem fetchMicroOp_some (s : State) (ms : List MicroOp) (m : MicroOp) (hs : s.sequence? = some ms)
    (hm : ms[s.upc.toNat]? = some m) : s.fetchMicroOp = .issue m.toInstr s .sequenced := by
  simp only [State.fetchMicroOp, hs, hm]

/-- What one host move does: an operand register is written, nothing happens, a command runs, a sequence is started, an
illegal word is reported, or the core is reset. -/
theorem fetchMove_cases (s : State) (m : HostMove) :
    (∃ t, s.fetchMove m = .settled t ∧ t.slot = s.slot ∧ t.err = s.err ∧ t.rc = s.rc ∧ t.dir = s.dir ∧ t.nb = s.nb ∧
      t.nk = s.nk ∧ t.nr = s.nr ∧ t.w = s.w ∧ t.dout = s.dout ∧ t.upc = s.upc ∧ t.busy = s.busy ∧ t.cw = s.cw ∧
      t.violations = s.violations) ∨
    (∃ cw i, decodeHost cw = .ok i ∧ s.fetchMove m = .issue i { s with cw := cw } .plain) ∨
    (∃ cw d, decodeHost cw = .ok (.construct d) ∧ s.fetchMove m = .settled { s with cw := cw }.openConstruct) ∨
    (∃ cw, decodeHost cw = .ok .xform ∧ s.fetchMove m = .settled { s with cw := cw }.openXform) ∨
    (∃ cw, s.fetchMove m = .settled ({ s with cw := cw }.raise .illegalCmd)) ∨
    s.fetchMove m = .settled s.resetEvent := by
  cases m with
  | command cw =>
    simp only [State.fetchMove, State.presentCommand]
    cases h : decodeHost cw with
    | ok i => exact .inr (.inl ⟨cw, i, h, rfl⟩)
    | error e => exact .inr (.inr (.inr (.inr (.inl ⟨cw, rfl⟩))))
  | start cw =>
    simp only [State.fetchMove, State.startCommand]
    cases h : decodeHost cw with
    | error e => exact .inr (.inr (.inr (.inr (.inl ⟨cw, rfl⟩))))
    | ok i =>
      cases i with
      | construct d => exact .inr (.inr (.inl ⟨cw, d, h, rfl⟩))
      | xform => exact .inr (.inr (.inr (.inl ⟨cw, h, rfl⟩)))
      | _ => exact .inr (.inl ⟨cw, _, h, rfl⟩)
  | reset => exact .inr (.inr (.inr (.inr (.inr rfl))))
  | _ => exact .inl ⟨_, rfl, rfl, rfl, rfl, rfl, rfl, rfl, rfl, rfl, rfl, rfl, rfl, rfl, rfl⟩

/-- A word of format H decodes to a host command (R91). -/
theorem decodeHost_isCommand (w : BitVec 8) (i : Instr) (h : decodeHost w = .ok i) :
    (∃ d, i = .construct d) ∨ i = .xform ∨ i = .discard := by
  unfold decodeHost at h
  simp only at h
  split_ifs at h <;> cases h <;> simp

/-- A run of one step more, from a step that answers a next state. -/
theorem run_succ (M : Host.Core) (n : Nat) (s t : M.State) (h : M.step s = .next t) : M.run (n + 1) s = M.run n t := by
  rw [Host.Core.run, h]

/-- The same of the machine behind the host's interface. -/
theorem core_run_succ (n : Nat) (s t : State) (h : step s = .next t) :
    Sys2Proof.core.run (n + 1) s = Sys2Proof.core.run n t :=
  run_succ Sys2Proof.core n s t h

end Sys2Proof.Machine
end

