-- ==== Sys2Proof/Laws/Tables.lean ====
section
/-! SUPPORT. The listings of the lookup memories agree with the rules that define them (`42_tables_gf.md` R209,
`44_table_contents.md` R248), and the laws of the field that the datapath's proofs use. -/

namespace Sys2Proof.Machine

theorem m2_eq_xtime : ∀ b : Byte, tabRead .m2 b = xtime b := by decide +kernel

theorem m3_eq_cmul : ∀ b : Byte, tabRead .m3 b = cmul 0x03#8 b := by decide +kernel

theorem m9_eq_cmul : ∀ b : Byte, tabRead .m9 b = cmul 0x09#8 b := by decide +kernel

theorem m11_eq_cmul : ∀ b : Byte, tabRead .m11 b = cmul 0x0b#8 b := by decide +kernel

theorem m13_eq_cmul : ∀ b : Byte, tabRead .m13 b = cmul 0x0d#8 b := by decide +kernel

theorem m14_eq_cmul : ∀ b : Byte, tabRead .m14 b = cmul 0x0e#8 b := by decide +kernel

/-- R248 (b): the entries of M9, M11, M13 and M14 from those of M2. -/
theorem multiplication_tables_from_m2 : ∀ b : Byte,
    tabRead .m3 b = tabRead .m2 b ^^^ b ∧
    tabRead .m9 b = tabRead .m2 (tabRead .m2 (tabRead .m2 b)) ^^^ b ∧
    tabRead .m11 b = tabRead .m9 b ^^^ tabRead .m2 b ∧
    tabRead .m13 b = tabRead .m9 b ^^^ tabRead .m2 (tabRead .m2 b) ∧
    tabRead .m14 b = tabRead .m2 (tabRead .m2 (tabRead .m2 b)) ^^^ tabRead .m2 (tabRead .m2 b) ^^^ tabRead .m2 b := by
  decide +kernel

/-- Doubling is linear over XOR: the shift is, and the bit shifted out of a sum is the sum of the bits shifted out. -/
theorem xtime_xor (a b : Byte) : xtime (a ^^^ b) = xtime a ^^^ xtime b := by
  unfold xtime
  rw [BitVec.getLsbD_xor, BitVec.shiftLeft_xor_distrib]
  cases a.getLsbD 7 <;> cases b.getLsbD 7 <;> simp <;> ext i <;> simp <;> grind

end Sys2Proof.Machine
end

