-- ==== Sys2Proof/Tests/Slice0.lean ====
section
/-! SUPPORT. Tests. Every expected value is the spec's: `95_test_vectors.md` by its name (T1, T2, K1, K4, U3, U4, U6,
U7, E1 to E13), or the rule named. After them, a witness for the hypotheses of every obligation that has some. -/

namespace Sys2Proof.Tests

open Sys2Proof Sys2Proof.Machine

/-! ## Helpers -/

/-- A run of hex digits as `n` bytes, byte 0 first (R12). -/
def bytes (n value : Nat) : List Byte := (List.range n).map fun k => BitVec.ofNat 8 (value / 256 ^ (n - 1 - k))

/-- A buffer that begins with the bytes. -/
def buf (l : List Byte) : Buf := bufLoad l (Vector.replicate 32 0#8)

/-- The first `n` bytes of a buffer. -/
def first (n : Nat) (b : Buf) : List Byte := (List.range n).map (bufByte b)

/-- The operation answered a next state that the check accepts. -/
def answers (o : Result) (check : State → Bool) : Bool :=
  match o with
  | .next t => check t
  | .fault _ | .refused _ => false

/-- The operation was refused for this reason. -/
def refuses (o : Result) (q : Refusal) : Bool :=
  match o with
  | .refused r => r == q
  | .next _ | .fault _ => false

/-- A block size and a working block, the rest as after reset. -/
def withBlock (nb : WordCount) (l : List Byte) : State := { State.reset with nb := nb, blk := buf l }

/-- The operands of CONSTRUCT, the rest as after reset. -/
def withKey (bsz ksz klen : Nat) (key : List Byte) : State :=
  { State.reset with
    bsz := BitVec.ofNat 16 bsz
    ksz := BitVec.ofNat 16 ksz
    klen := BitVec.ofNat 16 klen
    keyin := buf key }

/-- A READY slot for blocks of 16 bytes, the schedule all zeros. -/
def readySlot (d : Direction) : State := { State.reset with slot := .ready, dir := d, dlen := 16#16 }

/-- The host has these moves to make. -/
def hosting (s : State) (moves : List HostMove) : State := { s with host := moves }

/-- CONSTRUCT is running, at a place of its sequence. -/
def constructing (upc : Nat) : State :=
  { withKey 128 128 16 [] with cw := 0x10#8, busy := true, upc := BitVec.ofNat 7 upc }

/-- XFORM is running, at a place of its sequence. -/
def transforming (d : Direction) (upc : Nat) : State :=
  { readySlot d with cw := 0x20#8, busy := true, upc := BitVec.ofNat 7 upc }

/-! ## Well-formedness: a term for each check, which the check refuses (R95, R98) -/

theorem test_wellFormed_refuses :
    wellFormed (.kstep 3#8) = false ∧ wellFormed (.kstep 120#8) = false ∧ wellFormed (.ark 15#8) = false := by decide

theorem test_wellFormed_accepts :
    wellFormed (.kstep 4#8) = true ∧ wellFormed (.kstep 119#8) = true ∧ wellFormed (.ark 0#8) = true ∧
    wellFormed (.ark 14#8) = true := by decide

/-! ## Decoding: each word written out from R91, R95 or R96 -/

theorem test_decode_construct_enc : decode (.host 0b00010000#8) = .ok (.construct .encrypt) := by decide
theorem test_decode_construct_dec : decode (.host 0b00010001#8) = .ok (.construct .decrypt) := by decide
theorem test_decode_xform : decode (.host 0b00100000#8) = .ok .xform := by decide
theorem test_decode_discard : decode (.host 0b00110000#8) = .ok .discard := by decide
theorem test_decode_kload : decode (.micro 0b000100000000#12) = .ok .kload := by decide
theorem test_decode_kstep : decode (.micro 0b001000101011#12) = .ok (.kstep 43#8) := by decide
theorem test_decode_kser : decode (.micro 0b001100000000#12) = .ok .kser := by decide
theorem test_decode_ldblk : decode (.micro 0b010000000000#12) = .ok .ldblk := by decide
theorem test_decode_ark : decode (.micro 0b010100001010#12) = .ok (.ark 10#8) := by decide
theorem test_decode_subb : decode (.micro 0b011000000000#12) = .ok .subb := by decide
theorem test_decode_isubb : decode (.micro 0b011100000000#12) = .ok .isubb := by decide
theorem test_decode_shrow : decode (.micro 0b100000000000#12) = .ok .shrow := by decide
theorem test_decode_ishrow : decode (.micro 0b100100000000#12) = .ok .ishrow := by decide
theorem test_decode_mixc : decode (.micro 0b101000000000#12) = .ok .mixc := by decide
theorem test_decode_imixc : decode (.micro 0b101100000000#12) = .ok .imixc := by decide
theorem test_decode_stblk : decode (.micro 0b110000000000#12) = .ok .stblk := by decide
theorem test_decode_lutSbox : decode (.table 0b00001010011#11) = .ok (.lutSbox 0x53#8) := by decide
theorem test_decode_lutIsbox : decode (.table 0b00111101101#11) = .ok (.lutIsbox 0xed#8) := by decide
theorem test_decode_lutM2 : decode (.table 0b01001010111#11) = .ok (.lutM2 0x57#8) := by decide
theorem test_decode_lutM3 : decode (.table 0b01101010111#11) = .ok (.lutM3 0x57#8) := by decide
theorem test_decode_lutM9 : decode (.table 0b10001010111#11) = .ok (.lutM9 0x57#8) := by decide
theorem test_decode_lutM11 : decode (.table 0b10101010111#11) = .ok (.lutM11 0x57#8) := by decide
theorem test_decode_lutM13 : decode (.table 0b11001010111#11) = .ok (.lutM13 0x57#8) := by decide
theorem test_decode_lutM14 : decode (.table 0b11101010111#11) = .ok (.lutM14 0x57#8) := by decide

/-- E9: words that spell no command, each with one field wrong. -/
theorem test_decode_illegal_host : ∀ w ∈ [0x00#8, 0x01#8, 0x12#8, 0x18#8, 0x21#8, 0x31#8, 0x40#8, 0xf0#8, 0xff#8],
    decode (.host w) = .error .illegalCommand := by decide

/-- R98: a reserved word of each kind that no configuration has. -/
theorem test_decode_reserved_micro :
    decode (.micro 0x000#12) = .error .reservedCode ∧ decode (.micro 0xd00#12) = .error .reservedCode ∧
    decode (.micro 0xf00#12) = .error .reservedCode ∧ decode (.micro 0x101#12) = .error .argumentNotZero ∧
    decode (.micro 0xc80#12) = .error .argumentNotZero ∧ decode (.micro 0x203#12) = .error .wordIndexOutOfRange ∧
    decode (.micro 0x278#12) = .error .wordIndexOutOfRange ∧ decode (.micro 0x50f#12) = .error .roundOutOfRange := by
  decide

/-- The widths of the three formats, and 16 bits for two of them (log entry 12). -/
theorem test_decodeTableWord :
    decodeTableWord 8 0x11 = some (.construct .decrypt) ∧ decodeTableWord 12 0x22b = some (.kstep 43#8) ∧
    decodeTableWord 11 0x153 = some (.lutIsbox 0x53#8) ∧ decodeTableWord 16 0x800 = some .shrow ∧
    decodeTableWord 16 0x053 = some (.lutSbox 0x53#8) ∧ decodeTableWord 8 0x31 = none := by decide

/-! ## One step of each operation -/

/-- R221's example, K1. -/
theorem test_construct : answers (exec (.construct .encrypt) (withKey 128 128 16 (bytes 16 0x000102030405060708090a0b0c0d0e0f)))
    (fun t => t.rc == .ok && t.slot == .ready && t.dir == .encrypt && t.nb == .four && t.nk == .four && t.nr == .ten &&
      t.word 4 == 0xd6aa74fd#32 && t.word 43 == 0x4d2b30c5#32) = true := by decide +kernel

/-- E6b: the product `8 * klen` does not wrap (C13). -/
theorem test_construct_klen_does_not_wrap : answers (exec (.construct .encrypt) (withKey 128 128 8208 []))
    (fun t => t.rc == .keyLength && t.slot == .empty && t.status == 0x30#8) = true := by decide

/-- K5, V00: the zero key and the zero block. -/
theorem test_xform : answers (execAll [.construct .encrypt, .xform] { withKey 128 128 16 [] with dlen := 16#16 })
    (fun t => t.rc == .ok && first 16 t.dout == bytes 16 0x66e94bd4ef8a2c3b884cfa59ca342b2e) = true := by decide +kernel

/-- R173 (d), with a schedule of zeros: the block comes back. -/
theorem test_encryptBlock_decryptBlock :
    decryptBlock .four .ten (Vector.replicate 120 0#32) (encryptBlock .four .ten (Vector.replicate 120 0#32)
      (bytes 16 0x00112233445566778899aabbccddeeff)) = bytes 16 0x00112233445566778899aabbccddeeff := by decide +kernel

/-- E8: a length one byte short. -/
theorem test_xform_length : answers (exec .xform { readySlot .encrypt with dlen := 15#16 })
    (fun t => t.rc == .blockLength && t.slot == .ready && t.status == 0x41#8) = true := by decide

/-- E12 and the example of R228: an XFORM after it has no transform. -/
theorem test_discard : answers (execAll [.discard, .xform] (readySlot .encrypt))
    (fun t => t.rc == .noTransform && t.status == 0x50#8 && t.violations == [.noTransform]) = true := by decide

/-- E12b. -/
theorem test_discard_empty : answers (exec .discard { State.reset with err := .keySize, rc := .keySize })
    (fun t => t == State.reset) = true := by decide +kernel

/-- K1: the first line of the schedule. -/
theorem test_kload : answers (exec .kload (withKey 128 128 16 (bytes 16 0x000102030405060708090a0b0c0d0e0f)))
    (fun t => t.word 0 == 0x00010203#32 && t.word 3 == 0x0c0d0e0f#32 && t.word 4 == 0#32) = true := by decide

/-- K1: the rotation case at 4. -/
theorem test_kstep_rotation : answers (exec (.kstep 4#8) ((State.reset.setWord 0 0x00010203#32).setWord 3 0x0c0d0e0f#32))
    (fun t => t.word 4 == 0xd6aa74fd#32) = true := by decide +kernel

/-- K4: the case of `NK > 6`, `i mod NK == 4`, at 12. -/
theorem test_kstep_middle : answers
    (exec (.kstep 12#8) (({ State.reset with nk := .eight, nr := .fourteen }.setWord 4 0x10111213#32).setWord 11 0xa572c09c#32))
    (fun t => t.word 12 == 0x1651a8cd#32) = true := by decide +kernel

/-- R126: nothing is written. -/
theorem test_kser : answers (exec .kser (State.reset.setWord 4 0xd6aa74fd#32))
    (fun t => t == State.reset.setWord 4 0xd6aa74fd#32 && t.ekByte 16 == 0xd6#8 && t.ekByte 19 == 0xfd#8) = true := by decide +kernel

/-- T1, UPC 0; only the bytes of the block are written. -/
theorem test_ldblk : answers (exec .ldblk { State.reset with din := Vector.replicate 32 0xff#8 })
    (fun t => first 17 t.blk == List.replicate 16 0xff#8 ++ [0x00#8]) = true := by decide

/-- T1, UPC 5, with the words of round 1 of K1. -/
theorem test_ark : answers (exec (.ark 1#8)
      ((((withBlock .four (bytes 16 0x5f72641557f5bc92f7be3b291db9f91a)).setWord 4 0xd6aa74fd#32).setWord 5 0xd2af72fa#32).setWord 6
        0xdaa678f1#32 |>.setWord 7 0xd6ab76fe#32))
    (fun t => first 16 t.blk == bytes 16 0x89d810e8855ace682d1843d8cb128fe4) = true := by decide +kernel

/-- U7: with `NB = 8` round 14 starts at byte 448 of the schedule. -/
theorem test_ark_last : answers
    (exec (.ark 14#8) ({ withBlock .eight [] with nr := .fourteen }.setWord 119 0x5931c2aa#32))
    (fun t => bufByte t.blk 28 == 0x59#8 && bufByte t.blk 31 == 0xaa#8 && bufByte t.blk 0 == 0#8) = true := by decide +kernel

/-- T1, UPC 2. -/
theorem test_subb : answers (exec .subb (withBlock .four (bytes 16 0x00102030405060708090a0b0c0d0e0f0)))
    (fun t => first 16 t.blk == bytes 16 0x63cab7040953d051cd60e0e7ba70e18c) = true := by decide

/-- T2, UPC 3. -/
theorem test_isubb : answers (exec .isubb (withBlock .four (bytes 16 0x7a9f102789d5f50b2beffd9f3dca4ea7)))
    (fun t => first 16 t.blk == bytes 16 0xbd6e7c3df2b5779e0b61216e8b10b689) = true := by decide

/-- U6, `NB = 8`. -/
theorem test_shrow : answers (exec .shrow (withBlock .eight ((List.range 32).map (BitVec.ofNat 8))))
    (fun t => first 32 t.blk == [0, 5, 14, 19, 4, 9, 18, 23, 8, 13, 22, 27, 12, 17, 26, 31, 16, 21, 30, 3, 20, 25, 2, 7, 24,
      29, 6, 11, 28, 1, 10, 15]) = true := by decide

/-- U6, `NB = 6`. -/
theorem test_ishrow : answers (exec .ishrow (withBlock .six ((List.range 24).map (BitVec.ofNat 8))))
    (fun t => first 24 t.blk == [0, 21, 18, 15, 4, 1, 22, 19, 8, 5, 2, 23, 12, 9, 6, 3, 16, 13, 10, 7, 20, 17, 14,
      11]) = true := by decide

/-- U4, four columns. -/
theorem test_mixc : answers (exec .mixc (withBlock .four (bytes 16 0xdb135345f20a225cd4bf5d3001000000)))
    (fun t => first 16 t.blk == bytes 16 0x8e4da1bc9fdc589d046681e502010103) = true := by decide

/-- U4, four columns. -/
theorem test_imixc : answers (exec .imixc (withBlock .four (bytes 16 0xdb135345f20a225cd4bf5d3000010000)))
    (fun t => first 16 t.blk == bytes 16 0x32a41d55aec36982265ca3df0b0e090d) = true := by decide

/-- T1, UPC 41; the bytes above the block are not written. -/
theorem test_stblk : answers (exec .stblk { withBlock .four (bytes 16 0x69c4e0d86a7b0430d8cdb78070b4c55a) with
      dout := Vector.replicate 32 0xaa#8 })
    (fun t => first 17 t.dout == bytes 16 0x69c4e0d86a7b0430d8cdb78070b4c55a ++ [0xaa#8]) = true := by decide

/-! U3, the lines of 57 and ff. -/

theorem test_lutSbox : answers (exec (.lutSbox 0x57#8) State.reset) (·.tabOut == 0x5b#8) = true := by decide
theorem test_lutIsbox : answers (exec (.lutIsbox 0x57#8) State.reset) (·.tabOut == 0xda#8) = true := by decide
theorem test_lutM2 : answers (exec (.lutM2 0xff#8) State.reset) (·.tabOut == 0xe5#8) = true := by decide
theorem test_lutM3 : answers (exec (.lutM3 0xff#8) State.reset) (·.tabOut == 0x1a#8) = true := by decide
theorem test_lutM9 : answers (exec (.lutM9 0xff#8) State.reset) (·.tabOut == 0x46#8) = true := by decide
theorem test_lutM11 : answers (exec (.lutM11 0xff#8) State.reset) (·.tabOut == 0xa3#8) = true := by decide
theorem test_lutM13 : answers (exec (.lutM13 0xff#8) State.reset) (·.tabOut == 0x97#8) = true := by decide
theorem test_lutM14 : answers (exec (.lutM14 0xff#8) State.reset) (·.tabOut == 0x8d#8) = true := by decide

/-! ## Steps -/

/-- R98: an operand outside the configuration's range is refused: KSTEP 44 at `NW = 44`, ARK 11 at `NR = 10`. -/
theorem test_reserved_operand :
    refuses (exec (.kstep 44#8) State.reset) .reservedOperand = true ∧
    refuses (exec (.ark 11#8) State.reset) .reservedOperand = true := by decide

/-- E9: an illegal word changes no state but the result code. -/
theorem test_illegal_word : answers (step (hosting (readySlot .encrypt) [.command 0x31#8]))
    (fun t => t.rc == .illegalCmd && t.slot == .ready && t.status == 0x61#8 && t.violations == [.illegalCmd]) = true := by
  decide

/-- R38: after the last entry of the sequence the command ends; here CONSTRUCT, UPC 41, KSER. -/
theorem test_sequence_ends : answers (step (constructing 41))
    (fun t => t.busy == false && t.upc == 0#7 && t.slot == .ready && t.rc == .ok) = true := by decide

/-- R38: in between only UPC goes up; here XFORM, UPC 40, ARK 10 of T1. -/
theorem test_sequence_goes_on : answers (step (transforming .encrypt 40))
    (fun t => t.busy == true && t.upc == 41#7 && t.slot == .ready) = true := by decide

/-- The step at reset with a word placed is the word's operation. -/
theorem test_withFetchWord :
    answers (step (State.reset.withFetchWord 8 0x10)) (·.rc == .blockSize) = true ∧
    answers (step (State.reset.withFetchWord 16 0x204)) (fun t => t.word 4 == 0x62636363#32) = true ∧
    answers (step (State.reset.withFetchWord 16 0x053)) (·.tabOut == 0xed#8) = true := by decide +kernel

/-- R42: with no move to make the core waits. -/
theorem test_reset_waits : answers (step State.reset) (· == State.reset) = true := by decide +kernel

/-! ## Witnesses: the hypotheses of the obligations are met, at the ends of their ranges -/

theorem witness_ResetComesAtAnyTime :
    (hosting (constructing 7) [.reset]).portsEmpty ∧ (hosting (constructing 7) [.reset]).host = .reset :: [] ∧
    (constructing 7).busy = true := by decide

theorem witness_Inv :
    State.reset.Inv ∧ (readySlot .decrypt).Inv ∧ (constructing 0).Inv ∧ (constructing 41).Inv ∧
    (transforming .encrypt 0).Inv ∧ (transforming .decrypt 41).Inv := by decide

theorem witness_StepKeepsInvariant :
    (∃ t, (constructing 41).Inv ∧ step (constructing 41) = .next t) ∧
    (∃ t, (transforming .decrypt 0).Inv ∧ step (transforming .decrypt 0) = .next t) ∧
    ∃ t, State.reset.Inv ∧ step State.reset = .next t :=
  ⟨⟨_, by decide, rfl⟩, ⟨_, by decide, rfl⟩, ⟨_, by decide, rfl⟩⟩

theorem witness_StepFromInvariantNeverFaults :
    { State.reset with microPort := some 0xd00#12 }.Inv ∧ reservedMicroWord State.reset 0xd00#12 ∧
    refuses (step { State.reset with microPort := some 0xd00#12 }) .reservedWord = true := by decide

theorem witness_DecodeEncodeRoundTrip :
    wellFormed (.kstep 4#8) = true ∧ wellFormed (.kstep 119#8) = true ∧ wellFormed (.ark 0#8) = true ∧
    wellFormed (.ark 14#8) = true ∧ wellFormed (.lutM14 0xff#8) = true := by decide

theorem witness_DecodedWordsReencode :
    decode (.host 0x11#8) = .ok (.construct .decrypt) ∧ decode (.micro 0x277#12) = .ok (.kstep 119#8) ∧
    decode (.table 0x7ff#11) = .ok (.lutM14 0xff#8) := by decide

theorem witness_IllegalCommandWordChangesOnlyResult :
    (hosting State.reset [.command 0x00#8]).portsEmpty ∧ State.reset.busy = false ∧
    (hosting State.reset [.command 0x00#8]).host = .command 0x00#8 :: [] ∧
    (hosting State.reset [.start 0xff#8]).host = .start 0xff#8 :: [] ∧
    ∀ w ∈ [0x00#8, 0x12#8, 0x21#8, 0x31#8, 0xff#8], w ≠ 0x10#8 ∧ w ≠ 0x11#8 ∧ w ≠ 0x20#8 ∧ w ≠ 0x30#8 := by decide

/-- With `NB = NK = 4`, `NR = 10`: the words at each bound of the reserved set, on both sides. -/
theorem witness_ReservedMicroWordsAreRefused :
    ([0x000#12, 0x0ff#12, 0xd00#12, 0xfff#12, 0x203#12, 0x22c#12, 0x50b#12, 0x101#12, 0xc01#12].all
      fun w => decide (reservedMicroWord State.reset w)) = true ∧
    ([0x100#12, 0x204#12, 0x22b#12, 0x500#12, 0x50a#12, 0xc00#12].all
      fun w => decide (¬ reservedMicroWord State.reset w)) = true ∧
    { State.reset with microPort := some 0x203#12 }.tablePort = none ∧
    State.reset.nr = roundsFor State.reset.nb State.reset.nk ∧ MicroOp.kstep 43 ∈ keySeq .four .four .ten ∧
    MicroOp.ark 10 ∈ encSeq .ten ∧ MicroOp.ark 0 ∈ decSeq .ten := by decide

theorem witness_StepRunsDecodedInstruction :
    ({ State.reset with tablePort := some 0x7ff#11 }.tablePort = some 0x7ff#11 ∧
      decode (.table 0x7ff#11) = .ok (.lutM14 0xff#8)) ∧
    ({ State.reset with microPort := some 0xc00#12 }.tablePort = none ∧ decode (.micro 0xc00#12) = .ok .stblk) ∧
    ((hosting State.reset [.command 0x30#8]).portsEmpty ∧ State.reset.busy = false ∧
      decode (.host 0x30#8) = .ok .discard) ∧
    ((transforming .decrypt 41).portsEmpty ∧ (transforming .decrypt 41).busy = true ∧
      (transforming .decrypt 41).host.head? ≠ some .reset ∧
      (transforming .decrypt 41).sequence? = some (decSeq .ten) ∧ (decSeq .ten)[41]? = some .stblk) ∧
    ((constructing 0).sequence? = some (keySeq .four .four .ten) ∧ (keySeq .four .four .ten)[0]? = some .kload) := by
  decide

theorem witness_PlacedWordRunsNext :
    decode (.host 0x20#8) = .ok .xform ∧ decode (.micro 0xb00#12) = .ok .imixc ∧
    decode (.table 0x000#11) = .ok (.lutSbox 0#8) := by decide

theorem witness_StartedCommandAgreesWithAtomicCommand :
    (readySlot .decrypt).portsEmpty ∧ (readySlot .decrypt).busy = false ∧
    ([HostMove.readResult] : List HostMove).head? ≠ some .reset ∧ ([] : List HostMove).head? ≠ some .reset := by decide

theorem witness_HostWaitsWhileBusy :
    (∃ t, (hosting (constructing 0) [.writeBsz 0#16]).portsEmpty ∧ (constructing 0).busy = true ∧
      (hosting (constructing 0) [.writeBsz 0#16]).host.head? ≠ some .reset ∧
      step (hosting (constructing 0) [.writeBsz 0#16]) = .next t) ∧
    isHostCommand (.construct .decrypt) = true ∧ isHostCommand .xform = true ∧ isHostCommand .discard = true :=
  ⟨⟨_, by decide, by decide, by decide, rfl⟩, by decide⟩

/-- The hypotheses of HostMovesWriteOperands; of its list of bytes, none and more than the buffer holds. -/
theorem witness_HostMovesWriteOperands :
    State.reset.portsEmpty ∧ State.reset.busy = false ∧
    first 32 (bufLoad [] State.reset.keyin) = List.replicate 32 0#8 ∧
    first 32 (bufLoad (List.replicate 33 0xff#8) State.reset.keyin) = List.replicate 32 0xff#8 := by decide

theorem witness_StatusShowsStateAndError :
    (hosting State.reset [.readResult]).portsEmpty ∧ State.reset.busy = false ∧
    (∀ m ∈ [HostMove.readResult, .writeDlen 0xffff#16], (m ≠ .reset) ∧
      answers (step (hosting State.reset [m])) (·.host == []) = true) ∧
    ∀ w, HostMove.readResult ≠ .command w ∧ HostMove.readResult ≠ .start w :=
  ⟨by decide, by decide, by decide, fun _ => ⟨nofun, nofun⟩⟩

theorem witness_FieldProductLaws : (0x01#8 : Byte) ≠ 0x00#8 ∧ cmul 0xff#8 0x1c#8 = 0x01#8 := by decide

theorem witness_SboxIsAffineOfInverse : (0x01#8 : Byte) ≠ 0x00#8 ∧ (0xff#8 : Byte) ≠ 0x00#8 ∧
    tabRead .sbox 0x53#8 = tabRead .sbox 0x53#8 := by decide

theorem witness_MultiplicationTablesAreProducts : tabRead .m14 0xff#8 = tabRead .m14 0xff#8 := by decide

/-- R124: the ends of the range of indices. -/
theorem witness_RoundConstantsDouble :
    (1 ≤ 1 ∧ 1 < 30 ∧ rcon 2 = 0x02000000#32) ∧ (1 ≤ 29 ∧ 29 < 30 ∧ rcon 30 = 0x91000000#32) ∧
    rcon 29 = 0xc5000000#32 := by decide +kernel

theorem witness_ScheduleBytesViewWords :
    (0 < 120 ∧ (State.reset.setWord 0 0x01020304#32).ekByte 0 = 0x01#8) ∧
    (119 < 120 ∧ (State.reset.setWord 119 0x01020304#32).ekByte 479 = 0x04#8) ∧ (476 - 1) / 4 ≠ 119 := by decide +kernel

/-- The ends of the range of KSTEP with `NB = NK = 8`, and with `NB = 8`, `NK = 4`. -/
theorem witness_KstepComputesNextWord :
    (wordCount .eight ≤ (8#8 : Byte).toNat ∧ (119#8 : Byte).toNat < scheduleWords .eight .fourteen) ∧
    (wordCount .four ≤ (4#8 : Byte).toNat ∧ (43#8 : Byte).toNat < scheduleWords .four .ten) ∧
    (4 ≤ (4#8 : Byte).toNat ∧ (119#8 : Byte).toNat ≤ 119) := by decide

theorem witness_ConstructExpandsKey : ∀ nb ∈ [WordCount.four, .eight], ∀ nk ∈ [WordCount.four, .six, .eight],
    let s := withKey (32 * wordCount nb) (32 * wordCount nk) (4 * wordCount nk) []
    s.busy = false ∧ s.bsz.toNat = 32 * wordCount nb ∧ s.ksz.toNat = 32 * wordCount nk ∧
    s.klen.toNat = 4 * wordCount nk := by decide

/-- E2, E1, E3: one state for each of the three errors, with the code it gets. -/
theorem witness_ConstructReportsFirstError :
    answers (exec (.construct .encrypt) (withKey 100 128 16 [])) (·.rc == .blockSize) = true ∧
    answers (exec (.construct .encrypt) (withKey 128 100 16 [])) (·.rc == .keySize) = true ∧
    answers (exec (.construct .encrypt) (withKey 128 128 24 [])) (·.rc == .keyLength) = true ∧
    (withKey 128 128 24 []).busy = false ∧ 8 * (withKey 128 128 24 []).klen.toNat ≠ (withKey 128 128 24 []).ksz.toNat := by
  decide

/-- Two constructions with one key, of blocks of 16 and of 32 bytes. -/
theorem witness_ScheduleDependsOnKeyAlone : ∃ t₁ t₂,
    (withKey 128 128 16 []).busy = false ∧ (withKey 256 128 16 []).busy = false ∧
    (withKey 128 128 16 []).ksz = (withKey 256 128 16 []).ksz ∧
    (withKey 128 128 16 []).keyin = (withKey 256 128 16 []).keyin ∧
    exec (.construct .encrypt) (withKey 128 128 16 []) = .next t₁ ∧
    exec (.construct .decrypt) (withKey 256 128 16 []) = .next t₂ ∧ t₁.slot = .ready ∧ t₂.slot = .ready ∧
    43 < scheduleWords t₁.nb t₁.nr ∧ 43 < scheduleWords t₂.nb t₂.nr := by
  rcases execConstruct_cases .encrypt (withKey 128 128 16 []) with ⟨h, -⟩ | ⟨-, e, h, -⟩ | ⟨-, nb, nk, h, h₁⟩
  · exact absurd h (by decide)
  · exact absurd h (by rw [show (withKey 128 128 16 []).checkConstruct = .ok (.four, .four) from rfl]; nofun)
  rcases execConstruct_cases .decrypt (withKey 256 128 16 []) with ⟨g, -⟩ | ⟨-, e, g, -⟩ | ⟨-, nb', nk', g, g₁⟩
  · exact absurd g (by decide)
  · exact absurd g (by rw [show (withKey 256 128 16 []).checkConstruct = .ok (.eight, .four) from rfl]; nofun)
  rw [show (withKey 128 128 16 []).checkConstruct = .ok (.four, .four) from rfl] at h
  rw [show (withKey 256 128 16 []).checkConstruct = .ok (.eight, .four) from rfl] at g
  cases h
  cases g
  refine ⟨_, _, by decide, by decide, by decide, by decide, h₁, g₁, rfl, rfl, ?_, ?_⟩ <;>
    rw [runMicro_frame] <;> simp [State.closeConstruct] <;> decide

/-- A construction that succeeds; of the key's bytes, the first and the last of each size. -/
theorem witness_ScheduleBeginsWithRawKey : (∃ t, exec (.construct .encrypt) (withKey 128 128 16 []) = .next t ∧
      t.slot = .ready) ∧ 0 < keyBytes .four ∧ 15 < keyBytes .four ∧ 31 < keyBytes .eight := by
  obtain ⟨t, -, -, -, -, -, h, -, hr, -⟩ := witness_ScheduleDependsOnKeyAlone
  exact ⟨⟨t, h, hr⟩, by decide⟩

theorem witness_ArkAddsRoundKey : (14#8 : Byte).toNat ≤ 14 ∧ (10#8 : Byte).toNat ≤ roundCount State.reset.nr ∧
    (0#8 : Byte).toNat ≤ roundCount State.reset.nr ∧ 15 < 4 * wordCount State.reset.nb := by decide

theorem witness_SequencesHaveTheirEntries :
    (wordCount .eight ≤ 8 ∧ 119 < scheduleWords .eight (roundsFor .eight .eight)) ∧
    (1 ≤ 9 ∧ 9 < roundCount .ten) ∧ (1 ≤ 13 ∧ 13 < roundCount .fourteen) := by decide

/-- A READY slot and a right length, in both directions; the same schedule for both. -/
theorem witness_XformRunsItsSequence : ∀ d ∈ [Direction.encrypt, .decrypt],
    (readySlot d).busy = false ∧ (readySlot d).slot = .ready ∧
    (readySlot d).dlen.toNat = 4 * wordCount (readySlot d).nb := by decide

/-- XFORM on a READY slot with a right length answers a next state. -/
theorem xform_answers (d : Direction) : ∃ t, exec .xform (readySlot d) = .next t := by
  rcases execXform_cases (readySlot d) with ⟨h, -⟩ | ⟨-, h, -⟩ | ⟨-, -, h, -⟩ | ⟨-, -, -, h⟩
  · exact absurd h (by cases d <;> decide)
  · exact absurd h (by cases d <;> decide)
  · exact absurd (by cases d <;> decide) h
  exact ⟨_, h⟩

/-- One slot encrypts; a second, of the other direction and the same schedule, is given its output block. -/
theorem witness_XformRoundTrip : ∃ t u, exec .xform (readySlot .encrypt) = .next t ∧
    u = { readySlot .decrypt with din := t.dout } ∧ u.busy = false ∧ u.slot = .ready ∧
    u.dir ≠ (readySlot .encrypt).dir ∧ u.nb = (readySlot .encrypt).nb ∧ u.nr = (readySlot .encrypt).nr ∧
    (∀ i < scheduleWords .four .ten, u.word i = (readySlot .encrypt).word i) ∧ u.dlen.toNat = 4 * wordCount u.nb ∧
    ∀ n < 16, bufByte u.din n = bufByte t.dout n := by
  obtain ⟨t, h⟩ := xform_answers .encrypt
  exact ⟨t, _, h, rfl, rfl, rfl, nofun, rfl, rfl, fun _ _ => rfl, rfl, fun _ _ => rfl⟩

/-- Two instances that differ in what the output block does not depend on. -/
theorem witness_XformDependsOnScheduleAndInput : ∃ s t₁ t₂, s.blk ≠ (readySlot .encrypt).blk ∧
    s.nk ≠ (readySlot .encrypt).nk ∧ s.slot = .ready ∧ (readySlot .encrypt).slot = .ready ∧
    s.dlen.toNat = 4 * wordCount s.nb ∧ s.dir = (readySlot .encrypt).dir ∧ s.nb = (readySlot .encrypt).nb ∧
    s.nr = (readySlot .encrypt).nr ∧ s.w = (readySlot .encrypt).w ∧ s.din = (readySlot .encrypt).din ∧
    exec .xform s = .next t₁ ∧ exec .xform (readySlot .encrypt) = .next t₂ := by
  obtain ⟨t₂, h₂⟩ := xform_answers .encrypt
  refine ⟨{ readySlot .encrypt with nk := .eight, blk := Vector.replicate 32 0xff#8 }, ?_⟩
  rcases execXform_cases { readySlot .encrypt with nk := .eight, blk := Vector.replicate 32 0xff#8 } with
    ⟨g, -⟩ | ⟨-, g, -⟩ | ⟨-, -, g, -⟩ | ⟨-, -, -, g⟩
  · exact absurd g (by decide)
  · exact absurd g (by decide)
  · exact absurd (by decide) g
  exact ⟨_, t₂, by decide, by decide, rfl, rfl, rfl, rfl, rfl, rfl, rfl, rfl, g, h₂⟩

/-- The hypotheses on the slot, in both directions, and a block of each size. -/
theorem witness_EncryptAndDecryptAreInversePermutations :
    (∀ d ∈ [Direction.encrypt, .decrypt], (readySlot d).busy = false ∧ (readySlot d).slot = .ready ∧
      (readySlot d).dlen.toNat = 4 * wordCount (readySlot d).nb) ∧
    (List.replicate 16 (0#8 : Byte)).length = 4 * wordCount .four ∧
    (List.replicate 24 (0#8 : Byte)).length = 4 * wordCount .six ∧
    (List.replicate 32 (0#8 : Byte)).length = 4 * wordCount .eight := by decide

theorem witness_XformReportsContractViolations :
    (State.reset.busy = false ∧ State.reset.slot = .empty) ∧
    ({ readySlot .encrypt with dlen := 15#16 }.slot = .ready ∧ (15#16 : Half).toNat ≠ 4 * wordCount .four) ∧
    (17#16 : Half).toNat ≠ 4 * wordCount .four := by decide

theorem witness_DiscardEmptiesSlot :
    (State.reset.busy = false ∧ State.reset.slot = .empty) ∧ (readySlot .encrypt).busy = false := by decide

theorem witness_SlotLifecycle : State.reset.busy = false ∧
    answers (exec (.construct .encrypt) State.reset) (·.rc == .blockSize) = true ∧
    answers (exec .xform State.reset) (·.rc == .noTransform) = true ∧
    answers (exec .discard State.reset) (·.rc == .ok) = true := by decide

/-- An operation of each family that answers a next state. -/
theorem witness_OperationsKeepOperands :
    (∃ t, exec .kload State.reset = .next t) ∧ (∃ t, exec .mixc State.reset = .next t) ∧
    (∃ t, exec (.lutM9 0#8) State.reset = .next t) ∧ ∃ t, exec .discard State.reset = .next t :=
  ⟨⟨_, rfl⟩, ⟨_, rfl⟩, ⟨_, rfl⟩, ⟨_, rfl⟩⟩

theorem witness_InstanceIsReadOnly : writesInstance .stblk = false ∧ (∀ d, Instr.kload ≠ .construct d) ∧
    Instr.kload ≠ .discard ∧ ∃ t, exec .stblk State.reset = .next t :=
  ⟨rfl, nofun, nofun, _, rfl⟩

theorem witness_SpacesChangeOnlyByTheirWriters :
    writesBlock .stblk = false ∧ writesTemporary .mixc = false ∧ writesOutput .ldblk = false ∧
    isHostCommand .kser = false ∧ isHostCommand .discard = true ∧ ∃ t, exec .kser State.reset = .next t :=
  ⟨rfl, rfl, rfl, rfl, rfl, _, rfl⟩

theorem witness_ViolationsAreNeverCleared :
    answers (step (hosting State.reset [.command 0xff#8])) (·.violations == [.illegalCmd]) = true ∧
    ∃ t, step State.reset = .next t := ⟨by decide, _, rfl⟩

theorem witness_InstancesAreIndependent :
    ({ instances := [State.reset, readySlot .encrypt] } : Chip).instances[1]? = some (readySlot .encrypt) ∧
    ∃ t, step (readySlot .encrypt) = .next t := ⟨by decide +kernel, _, rfl⟩

theorem witness_ArkIsInvolution : (0#8 : Byte).toNat ≤ roundCount .ten ∧ (14#8 : Byte).toNat ≤ roundCount .fourteen := by
  decide

end Sys2Proof.Tests
end

