-- ==== Sys2Proof/Proofs/StepScope.lean ====
section
/-! Which operation a step runs, by where its word comes from, and what the sequencer does after it (`00_scope.md` R11,
R38, R90, R220). -/

namespace Sys2Proof.Machine

/-- With the internal ports empty and BUSY = 0, a command word the host presents is the step. -/
theorem step_command (s : State) (w : BitVec 8) (i : Instr) (rest : List HostMove) (hp : s.portsEmpty)
    (hb : s.busy = false) (hh : s.host = .command w :: rest) (hd : decodeHost w = .ok i) :
    step s = exec i { s with host := rest, cw := w } := by
  have hf : s.fetch = .issue i { s with host := rest, cw := w } .plain := by
    rw [fetch_agent s hp.1 hp.2, fetchAgent_move s _ rest hh (.inl hb)]
    simp only [State.fetchMove, State.presentCommand, hd]
  rw [step_issue s _ i .plain hf, retireResult_plain]

/-- With the internal ports empty, BUSY = 1 and no reset to come, the step is the running sequence's entry at `UPC`,
retired by the sequencer. -/
theorem step_sequenced (s : State) (ms : List MicroOp) (m : MicroOp) (hp : s.portsEmpty) (hb : s.busy = true)
    (hr : s.host.head? ≠ some .reset) (hs : s.sequence? = some ms) (hm : ms[s.upc.toNat]? = some m) :
    step s = retireResult .sequenced (exec m.toInstr s) := by
  have hf : s.fetch = .issue m.toInstr s .sequenced := by
    rw [fetch_agent s hp.1 hp.2, fetchAgent_busy s hb hr, fetchMicroOp_some s ms m hs hm]
  exact step_issue s s m.toInstr .sequenced hf

/-- Counting `UPC` up does not change which sequence runs. -/
@[simp] theorem State.tick_sequence (s : State) : s.tick.sequence? = s.sequence? := by
  simp only [State.sequence?, State.tick]

/-- What the sequencer does after a micro-operation of the sequence `ms`. -/
theorem State.advance_of_sequence (t : State) (ms : List MicroOp) (hs : t.sequence? = some ms) :
    t.advance = if t.tick.upc.toNat = ms.length then t.tick.closeCommand else t.tick := by
  simp only [State.advance, State.tick_sequence, hs]

end Sys2Proof.Machine

open Sys2Proof Sys2Proof.Machine

/-- Settles O11: one lemma about `step` for each place a word is fetched from, and one about `advance`. -/
theorem stepRunsDecodedInstruction : Obligations.StepRunsDecodedInstruction := by
  unfold Obligations.StepRunsDecodedInstruction
  refine ⟨?table, ?micro, ?host, ?sequencer, fun t ms hs => t.advance_of_sequence ms hs⟩
  case table =>
    intro s a i ha hd
    obtain rfl : decodeTable a = i := Except.ok.inj hd
    exact step_tablePort s a ha
  case micro =>
    intro s w i ht hm hd
    have hdm : decodeMicro w = .ok i := hd
    rw [step_microPort s w ht hm, hdm]
  case host =>
    intro s w i rest hp hb hh hd
    exact step_command s w i rest hp hb hh hd
  case sequencer =>
    intro s ms m hp hb hr hs hm
    rw [step_sequenced s ms m hp hb hr hs hm]
    cases exec m.toInstr s <;> rfl

end

