-- ==== Sys2Proof/Proofs/Sizes.lean ====
section
/-! The round count and the sizes derived from `NB` and `NK` (`00_scope.md` R8, R9). -/

namespace Sys2Proof.Machine

theorem wordCount_eq_eight (c : WordCount) : wordCount c = 8 ↔ c = .eight := by cases c <;> decide

theorem wordCount_eq_six (c : WordCount) : wordCount c = 6 ↔ c = .six := by cases c <;> decide

/-- R8's formula in numbers: its tests on sizes in words are the tests `roundsFor` makes, in the same order. -/
theorem roundCount_roundsFor (nb nk : WordCount) : roundCount (roundsFor nb nk) =
    if wordCount nb = 8 ∨ wordCount nk = 8 then 14 else if wordCount nb = 6 ∨ wordCount nk = 6 then 12 else 10 := by
  simp only [wordCount_eq_eight, wordCount_eq_six, roundsFor]
  split_ifs <;> rfl

/-- The larger of the two sizes decides the round count. -/
theorem roundCount_roundsFor_eq_max (nb nk : WordCount) :
    roundCount (roundsFor nb nk) = max (wordCount nb) (wordCount nk) + 6 := by
  cases nb <;> cases nk <;> rfl

end Sys2Proof.Machine

open Sys2Proof Sys2Proof.Machine

/-- Settles O22: the two forms of the round count hold of every pair, and R9's nine lines are computed. -/
theorem derivedSizesOfTheNinePairs : Obligations.DerivedSizesOfTheNinePairs := by
  unfold Obligations.DerivedSizesOfTheNinePairs
  exact ⟨roundCount_roundsFor, roundCount_roundsFor_eq_max, by decide⟩

end

