-- ==== Sys2Proof/Proofs/StepCases.lean ====
section
/-! Where a step that answers a next state comes from: an internal port, the sequencer, a host that waits, a reset, or a
move of the host (`00_scope.md` R11; `70_reset_and_hazards.md` R275, R291, R300). -/

namespace Sys2Proof.Machine

/-- What a step makes of what it fetched. -/
def Fetched.outcome : Fetched → Result
  | .issue i t r => retireResult r (exec i t)
  | .settled t => .next t
  | .reserved q => .refused q
  | .stuck f => .fault f

theorem step_eq_outcome (s : State) : step s = s.fetch.outcome := by
  unfold step
  cases s.fetch <;> rfl

@[simp] theorem Fetched.outcome_settled (t : State) : (Fetched.settled t).outcome = .next t := rfl

@[simp] theorem Fetched.outcome_issue_plain (i : Instr) (t : State) :
    (Fetched.issue i t .plain).outcome = exec i t := retireResult_plain _

/-- With the internal ports empty, a move that need not wait is the step. -/
theorem step_move (s : State) (m : HostMove) (rest : List HostMove) (hp : s.portsEmpty) (hh : s.host = m :: rest)
    (hb : s.busy = false ∨ m = .reset) : step s = ({ s with host := rest }.fetchMove m).outcome := by
  rw [step_eq_outcome, fetch_agent s hp.1 hp.2, fetchAgent_move s m rest hh hb]

/-- Retiring an operation the sequencer issued. -/
theorem retireResult_sequenced_eq_next (o : Result) (t : State) (h : retireResult .sequenced o = .next t) :
    ∃ u, o = .next u ∧ t = u.advance := by
  cases o with
  | next u => exact ⟨u, rfl, (Host.Outcome.next.inj h).symm⟩
  | fault f => cases h
  | refused q => cases h

/-- The sequencer's move, when it answers a next state, is an operation of the datapath, retired. -/
theorem outcome_fetchMicroOp_eq_next (s t : State) (h : s.fetchMicroOp.outcome = .next t) :
    ∃ (m : MicroOp) (u : State), exec m.toInstr s = .next u ∧ t = u.advance := by
  unfold State.fetchMicroOp at h
  split at h
  · cases h
  · split at h
    · cases h
    · next m _ => exact ⟨m, retireResult_sequenced_eq_next _ t h⟩

/-- The next state of the host's or the sequencer's move. -/
theorem outcome_fetchAgent_eq_next (s t : State) (h : s.fetchAgent.outcome = .next t) :
    (s.busy = true ∧ ∃ (m : MicroOp) (u : State), exec m.toInstr s = .next u ∧ t = u.advance) ∨
    t = s ∨
    (∃ rest, t = { s with host := rest }.resetEvent) ∨
    (s.busy = false ∧ ∃ m rest, ({ s with host := rest }.fetchMove m).outcome = .next t) := by
  obtain hb | hb := Bool.eq_false_or_eq_true s.busy
  · by_cases hr : s.host.head? = some .reset
    · obtain ⟨rest, hh⟩ := List.head?_eq_some_iff.1 hr
      rw [fetchAgent_move s .reset rest hh (.inr rfl)] at h
      exact .inr (.inr (.inl ⟨rest, (Host.Outcome.next.inj h).symm⟩))
    · rw [fetchAgent_busy s hb hr] at h
      exact .inl ⟨hb, outcome_fetchMicroOp_eq_next s t h⟩
  · cases hh : s.host with
    | nil =>
      simp only [State.fetchAgent, hh, hb] at h
      exact .inr (.inl (Host.Outcome.next.inj h).symm)
    | cons m rest =>
      rw [fetchAgent_move s m rest hh (.inl hb)] at h
      exact .inr (.inr (.inr ⟨hb, m, rest, h⟩))

/-- Where the next state of a step comes from. -/
theorem step_eq_next_cases (s t : State) (h : step s = .next t) :
    (∃ i, exec i { s with tablePort := none } = .next t) ∨
    (∃ i, exec i { s with microPort := none } = .next t) ∨
    (s.busy = true ∧ ∃ (m : MicroOp) (u : State), exec m.toInstr s = .next u ∧ t = u.advance) ∨
    t = s ∨
    (∃ rest, t = { s with host := rest }.resetEvent) ∨
    (s.busy = false ∧ ∃ m rest, ({ s with host := rest }.fetchMove m).outcome = .next t) := by
  obtain ht | ⟨a, ht⟩ := Option.eq_none_or_eq_some s.tablePort
  · obtain hm | ⟨w, hm⟩ := Option.eq_none_or_eq_some s.microPort
    · rw [step_eq_outcome, fetch_agent s ht hm] at h
      exact .inr (.inr (outcome_fetchAgent_eq_next s t h))
    · rw [step_microPort s w ht hm] at h
      split at h
      · next i _ => exact .inr (.inl ⟨i, h⟩)
      · cases h
  · exact .inl ⟨decodeTable a, by rw [← h, step_tablePort s a ht]⟩

end Sys2Proof.Machine
end

