-- ==== Sys2Proof/Proofs/Frames.lean ====
section
/-! What every operation leaves alone, the operand registers, and what no step takes away, an entry of the record of
contract violations (`10_state.md` R23, R35). -/

namespace Sys2Proof.Machine

/-- A micro-operation or a lookup changes only the fields named here. -/
theorem exec_frame_of_not_hostCommand (i : Instr) (s t : State) (h : exec i s = .next t)
    (hc : isHostCommand i = false) :
    t = { s with w := t.w, blk := t.blk, tmp := t.tmp, dout := t.dout, tabOut := t.tabOut, drawn := t.drawn } :=
  exec_datapath_frame i s t (by rintro d rfl; cases hc) (by rintro rfl; cases hc) (by rintro rfl; cases hc) h

/-- What the host and the ports put into a core: the operand registers (R35), the moves to come, the words at the
internal ports. -/
def State.inputs (s : State) :
    Byte × Half × Half × Half × Buf × Half × Buf × List HostMove × Option (BitVec 12) × Option (BitVec 11) :=
  (s.cw, s.bsz, s.ksz, s.klen, s.keyin, s.dlen, s.din, s.host, s.microPort, s.tablePort)

@[simp] theorem State.failConstruct_inputs (s : State) (e : ResultCode) : (s.failConstruct e).inputs = s.inputs := by
  simp [State.inputs, State.failConstruct]

@[simp] theorem State.failXform_inputs (s : State) (e : ResultCode) : (s.failXform e).inputs = s.inputs := by
  simp [State.inputs, State.failXform]

@[simp] theorem State.closeConstruct_inputs (s : State) (d : Direction) :
    (s.closeConstruct d).inputs = s.inputs := by
  simp [State.inputs, State.closeConstruct]

@[simp] theorem State.closeXform_inputs (s : State) : s.closeXform.inputs = s.inputs := by
  simp [State.inputs, State.closeXform]

@[simp] theorem runMicro_inputs (ms : List MicroOp) (s : State) : (s.runMicro ms).inputs = s.inputs := by
  rw [runMicro_frame]
  rfl

/-- No operation writes what the host and the ports put in. -/
theorem exec_inputs (i : Instr) (s t : State) (h : exec i s = .next t) : t.inputs = s.inputs := by
  cases i with
  | construct d =>
    rcases execConstruct_cases d s with ⟨-, he⟩ | ⟨-, e, -, -, he⟩ | ⟨-, nb, nk, -, he⟩ <;> cases he.symm.trans h
    · exact s.failConstruct_inputs e
    · rw [State.closeConstruct_inputs, runMicro_inputs]
      simp [State.inputs]
  | xform =>
    rcases execXform_cases s with ⟨-, he⟩ | ⟨-, -, he⟩ | ⟨-, -, -, he⟩ | ⟨-, -, -, he⟩ <;> cases he.symm.trans h
    · exact s.failXform_inputs _
    · exact s.failXform_inputs _
    · rw [State.closeXform_inputs, runMicro_inputs]
      simp [State.inputs]
  | discard =>
    rcases execDiscard_cases s with ⟨-, he⟩ | ⟨-, -, he⟩ | ⟨-, -, he⟩ <;> cases he.symm.trans h <;> simp [State.inputs]
  | _ => rw [exec_frame_of_not_hostCommand _ s t h rfl, State.inputs, State.inputs]

/-! The record of contract violations grows at its head, so that what it was is a suffix of what it becomes. -/

@[simp] theorem suffix_entered_violation (e : ResultCode) (l : List ResultCode) :
    l <:+ if isContractViolation e then e :: l else l := by
  split
  · exact List.suffix_cons e l
  · exact List.suffix_rfl

@[simp] theorem State.failConstruct_violations (s : State) (e : ResultCode) :
    (s.failConstruct e).violations = if isContractViolation e then e :: s.violations else s.violations := by
  simp [State.failConstruct]

@[simp] theorem State.failXform_violations (s : State) (e : ResultCode) :
    (s.failXform e).violations = if isContractViolation e then e :: s.violations else s.violations := by
  simp [State.failXform]

@[simp] theorem State.closeConstruct_violations (s : State) (d : Direction) :
    (s.closeConstruct d).violations = s.violations := by
  simp [State.closeConstruct]

@[simp] theorem State.closeXform_violations (s : State) : s.closeXform.violations = s.violations := by
  simp [State.closeXform]

@[simp] theorem State.closeCommand_violations (s : State) : s.closeCommand.violations = s.violations := by
  unfold State.closeCommand
  split <;> simp

@[simp] theorem State.advance_violations (s : State) : s.advance.violations = s.violations := by
  unfold State.advance
  dsimp only
  split
  · split <;> simp
  · exact s.tick_violations

@[simp] theorem runMicro_violations (ms : List MicroOp) (s : State) : (s.runMicro ms).violations = s.violations := by
  rw [runMicro_frame]

/-- Only the host commands enter anything in the record; CONSTRUCT and XFORM do it by `raise`. -/
theorem exec_violations_suffix (i : Instr) (s t : State) (h : exec i s = .next t) :
    s.violations <:+ t.violations := by
  cases i with
  | construct d =>
    rcases execConstruct_cases d s with ⟨-, he⟩ | ⟨-, e, -, -, he⟩ | ⟨-, nb, nk, -, he⟩ <;>
      cases he.symm.trans h <;> simp
  | xform =>
    rcases execXform_cases s with ⟨-, he⟩ | ⟨-, -, he⟩ | ⟨-, -, -, he⟩ | ⟨-, -, -, he⟩ <;>
      cases he.symm.trans h <;> simp
  | discard =>
    rcases execDiscard_cases s with ⟨-, he⟩ | ⟨-, -, he⟩ | ⟨-, -, he⟩ <;> cases he.symm.trans h <;> simp
  | _ => rw [exec_frame_of_not_hostCommand _ s t h rfl]

theorem openConstruct_violations_suffix (s : State) : s.violations <:+ s.openConstruct.violations := by
  rcases openConstruct_cases s with ⟨e, -, -, ho⟩ | ⟨nb, nk, -, ho⟩ <;> rw [ho] <;> simp

theorem openXform_violations_suffix (s : State) : s.violations <:+ s.openXform.violations := by
  rcases openXform_cases s with ⟨-, ho⟩ | ⟨-, -, ho⟩ | ⟨-, -, ho⟩ <;> rw [ho] <;> simp

theorem resetEvent_violations (s : State) : s.resetEvent.violations = s.violations := by
  simp [State.resetEvent]

theorem fetchMove_violations_suffix (s t : State) (m : HostMove) (h : (s.fetchMove m).outcome = .next t) :
    s.violations <:+ t.violations := by
  rcases fetchMove_cases s m with
    ⟨u, hu, -, -, -, -, -, -, -, -, -, -, -, -, hv⟩ | ⟨cw, i, -, hu⟩ | ⟨cw, d, -, hu⟩ | ⟨cw, -, hu⟩ | ⟨cw, hu⟩ | hu <;>
    rw [hu] at h
  · cases h
    rw [hv]
  · exact exec_violations_suffix i { s with cw := cw } t (by simpa using h)
  · cases h
    exact openConstruct_violations_suffix { s with cw := cw }
  · cases h
    exact openXform_violations_suffix { s with cw := cw }
  · cases h
    simp
  · cases h
    rw [resetEvent_violations]

theorem step_violations_suffix (s t : State) (h : step s = .next t) : s.violations <:+ t.violations := by
  rcases step_eq_next_cases s t h with
    ⟨i, h⟩ | ⟨i, h⟩ | ⟨-, m, u, hu, rfl⟩ | rfl | ⟨rest, rfl⟩ | ⟨-, m, rest, h⟩
  · exact exec_violations_suffix i { s with tablePort := none } t h
  · exact exec_violations_suffix i { s with microPort := none } t h
  · simpa using exec_violations_suffix m.toInstr s u hu
  · exact List.suffix_rfl
  · rw [resetEvent_violations]
  · exact fetchMove_violations_suffix { s with host := rest } t m h

end Sys2Proof.Machine

open Sys2Proof Sys2Proof.Machine

/-- Settles O55: the ten fields are the inputs that `exec` keeps. -/
theorem operationsKeepOperands : Obligations.OperationsKeepOperands := by
  unfold Obligations.OperationsKeepOperands
  intro i s t h
  simpa only [State.inputs, Prod.mk.injEq] using exec_inputs i s t h

/-- Settles O58: every source of a step's next state leaves the earlier record as a suffix. -/
theorem violationsAreNeverCleared : Obligations.ViolationsAreNeverCleared := by
  unfold Obligations.ViolationsAreNeverCleared
  intro s t h
  obtain ⟨l, hl⟩ := step_violations_suffix s t h
  exact ⟨l, hl.symm⟩

end

