-- ==== Sys2Proof/Proofs/Registers.lean ====
section
/-! The registers a host sees: what reset leaves in them, `STATUS`, and the byte view of the schedule (`10_state.md`
R28, R30, R42). -/

namespace Sys2Proof.Machine

theorem status_slotBit (s : State) : s.status.extractLsb' 0 1 = slotBit s.slot :=
  BitVec.extractLsb'_append_eq_right

theorem status_zeros (s : State) : s.status.extractLsb' 1 3 = 0#3 := by
  rw [State.status, BitVec.extractLsb'_append_eq_of_le (Nat.le_refl 1)]
  exact BitVec.extractLsb'_append_eq_right

theorem status_resultBits (s : State) : s.status.extractLsb' 4 4 = resultBits s.err := by
  rw [State.status, BitVec.extractLsb'_append_eq_of_le (by decide)]
  exact BitVec.extractLsb'_append_eq_left

/-- A write or a read of the host leaves `STATUS` as it was. -/
theorem fetchMove_status (s t : State) (m : HostMove) (hc : ∀ w, m ≠ .command w ∧ m ≠ .start w) (hr : m ≠ .reset)
    (h : (s.fetchMove m).outcome = .next t) : t.status = s.status := by
  cases m with
  | command w => exact absurd rfl (hc w).1
  | start w => exact absurd rfl (hc w).2
  | reset => exact absurd rfl hr
  | _ => cases h; simp only [State.status]

/-- A word written leaves the bytes of every other word as they were. -/
theorem ekByte_setWord_of_ne (s : State) (i n : Nat) (v : Word) (hn : n < 480) (hne : n / 4 ≠ i) :
    (s.setWord i v).ekByte n = s.ekByte n := by
  rw [State.ekByte, State.ekByte, word_setWord s i (n / 4) v (by omega), if_neg hne]

end Sys2Proof.Machine

open Sys2Proof Sys2Proof.Machine

/-- Settles O1: `State.reset` writes out every field, and `STATUS` is put together from two of them. -/
theorem resetLeavesSlotEmpty : Obligations.ResetLeavesSlotEmpty := by
  unfold Obligations.ResetLeavesSlotEmpty
  exact ⟨rfl, rfl, rfl, rfl, rfl, by decide⟩

/-- Settles O16: the three fields of the register, and `fetchMove` for the host's reads and writes. -/
theorem statusShowsStateAndError : Obligations.StatusShowsStateAndError := by
  unfold Obligations.StatusShowsStateAndError
  refine ⟨fun s => ⟨status_slotBit s, status_zeros s, status_resultBits s⟩, ?read, ?write⟩
  case read =>
    intro s rest hp hb hh
    rw [step_move s .readResult rest hp hh (.inl hb)]
    rfl
  case write =>
    intro s t m rest hp hb hh hc hr h
    rw [step_move s m rest hp hh (.inl hb)] at h
    exact fetchMove_status { s with host := rest } t m hc hr h

/-- Settles O25: the byte view reads the word, and a write reaches the word it names and no other. -/
theorem scheduleBytesViewWords : Obligations.ScheduleBytesViewWords := by
  unfold Obligations.ScheduleBytesViewWords
  intro s i v hi
  refine ⟨fun k hk => ekByte_word s i k hk, fun k hk => ?_, fun n hn hne => ekByte_setWord_of_ne s i n v hn hne⟩
  rw [ekByte_word _ i k hk, word_setWord s i i v hi, if_pos rfl]

end

