-- ==== Sys2Proof/Proofs/Invariant.lean ====
section
/-! Every step keeps the invariant of a core (`10_state.md` R25, R36, R38). It is split into what it says of an idle
core and what it says of a running one; then each source of a next state is taken in turn. -/

namespace Sys2Proof.Machine

theorem inv_iff_of_idle (s : State) (hb : s.busy = false) :
    s.Inv ↔ s.rc = s.err ∧ s.upc = 0#7 ∧ (s.slot = .ready → s.nr = roundsFor s.nb s.nk) := by
  simp [State.Inv, hb, and_comm]

theorem inv_iff_of_busy (s : State) (hb : s.busy = true) :
    s.Inv ↔ s.rc = s.err ∧ s.nr = roundsFor s.nb s.nk ∧ s.running = true := by
  simp [State.Inv, hb]

/-- The two commands that can be running, each with what holds while it runs. -/
theorem running_iff (s : State) : s.running = true ↔
    (∃ d, decodeHost s.cw = .ok (.construct d) ∧ s.slot = .empty ∧ s.checkConstruct = .ok (s.nb, s.nk) ∧
      s.upc.toNat < (keySeq s.nb s.nk s.nr).length) ∨
    (decodeHost s.cw = .ok .xform ∧ s.slot = .ready ∧ s.checkXform = .ok () ∧
      s.upc.toNat < (xformSeq s.dir s.nr).length) := by
  unfold State.running
  split
  · next d hd => simp [hd]
  · next hd => simp [hd]
  · next hc hx =>
    refine iff_of_false nofun ?_
    rintro (⟨d, hd, -⟩ | ⟨hd, -⟩)
    · exact hc d hd
    · exact hx hd

/-- No sequence is longer than `UPC` can count (R38). -/
theorem keySeq_length_lt (nb nk : WordCount) (nr : Rounds) : (keySeq nb nk nr).length < 128 := by
  have hw := scheduleWords_le nb nr
  have hk := wordCount_bounds nk
  simp only [keySeq, List.length_cons, List.length_append, List.length_map, List.length_range', List.length_nil]
  omega

theorem xformSeq_length_lt (d : Direction) (nr : Rounds) : (xformSeq d nr).length < 128 := by
  cases d <;> cases nr <;> decide

theorem tick_upc_toNat (s : State) (h : s.upc.toNat + 1 < 128) : s.tick.upc.toNat = s.upc.toNat + 1 := by
  rw [State.tick_upc, BitVec.toNat_add]
  exact Nat.mod_eq_of_lt h

/-! The ends of a command, failed or completed, and reset. -/

theorem raise_inv (s : State) (e : ResultCode) (hu : s.upc = 0#7)
    (hn : s.slot = .ready → s.nr = roundsFor s.nb s.nk) : (s.raise e).Inv := by
  rw [inv_iff_of_idle _ (s.raise_busy e)]
  simpa [hu] using hn

theorem failConstruct_inv (s : State) (e : ResultCode) (hu : s.upc = 0#7) : (s.failConstruct e).Inv :=
  raise_inv _ e (by simpa using hu) (by simp)

theorem failXform_inv (s : State) (e : ResultCode) (hu : s.upc = 0#7)
    (hn : s.slot = .ready → s.nr = roundsFor s.nb s.nk) : (s.failXform e).Inv :=
  raise_inv _ e (by simpa using hu) (by simpa using hn)

theorem closeConstruct_inv (s : State) (d : Direction) (hn : s.nr = roundsFor s.nb s.nk) :
    (s.closeConstruct d).Inv := by
  rw [inv_iff_of_idle _ (by simp [State.closeConstruct])]
  simp [State.closeConstruct, hn]

theorem closeXform_inv (s : State) (hn : s.nr = roundsFor s.nb s.nk) : s.closeXform.Inv := by
  rw [inv_iff_of_idle _ (by simp [State.closeXform])]
  simp [State.closeXform, hn]

theorem resetEvent_inv (s : State) : s.resetEvent.Inv := by
  rw [inv_iff_of_idle _ rfl]
  exact ⟨rfl, rfl, nofun⟩

/-! The start of a command's sequence. -/

theorem keySeq_length_pos (nb nk : WordCount) (nr : Rounds) : 0 < (keySeq nb nk nr).length := by simp [keySeq]

theorem xformSeq_length_pos (d : Direction) (nr : Rounds) : 0 < (xformSeq d nr).length := by
  cases d <;> simp [xformSeq, encSeq, decSeq]

theorem openConstruct_inv (s : State) (d : Direction) (hd : decodeHost s.cw = .ok (.construct d)) (hr : s.rc = s.err)
    (hu : s.upc = 0#7) : s.openConstruct.Inv := by
  rcases openConstruct_cases s with ⟨e, -, -, ho⟩ | ⟨nb, nk, hc, ho⟩ <;> rw [ho]
  · exact failConstruct_inv s e hu
  · rw [inv_iff_of_busy _ (State.begin_busy _), running_iff]
    rw [checkConstruct_eq_ok] at hc
    simp [checkConstruct_eq_ok, hd, hr, hc, keySeq_length_pos]

theorem openXform_inv (s : State) (hd : decodeHost s.cw = .ok .xform) (hr : s.rc = s.err) (hu : s.upc = 0#7)
    (hn : s.slot = .ready → s.nr = roundsFor s.nb s.nk) : s.openXform.Inv := by
  rcases openXform_cases s with ⟨-, ho⟩ | ⟨-, -, ho⟩ | ⟨hs, hl, ho⟩ <;> rw [ho]
  · exact failXform_inv s _ hu hn
  · exact failXform_inv s _ hu hn
  · rw [inv_iff_of_busy _ s.begin_busy, running_iff]
    simp [checkXform_eq_ok, hd, hr, hs, hl, hn hs, xformSeq_length_pos]

/-! The sequencer's move. -/

/-- A running command has a sequence, `UPC` stands inside it, and `UPC` can count to its end. -/
theorem sequence_of_running (s : State) (h : s.running = true) :
    ∃ ms, s.sequence? = some ms ∧ s.upc.toNat < ms.length ∧ ms.length < 128 := by
  rcases (running_iff s).1 h with ⟨d, hd, -, -, hu⟩ | ⟨hd, -, -, hu⟩
  · exact ⟨_, by simp only [State.sequence?, hd], hu, keySeq_length_lt _ _ _⟩
  · exact ⟨_, by simp only [State.sequence?, hd], hu, xformSeq_length_lt _ _⟩

/-- With `UPC` still inside the sequence after a micro-operation, the command goes on running. -/
theorem tick_running (s : State) (ms : List MicroOp) (h : s.running = true) (hs : s.sequence? = some ms)
    (hu : s.tick.upc.toNat < ms.length) : s.tick.running = true := by
  rw [running_iff] at h ⊢
  rcases h with ⟨d, hd, hslot, hc, -⟩ | ⟨hd, hslot, hc, -⟩ <;> simp only [State.sequence?, hd] at hs <;>
    cases hs
  · rw [checkConstruct_eq_ok] at hc
    exact .inl ⟨d, by simpa using hd, by simpa using hslot, by simpa [checkConstruct_eq_ok] using hc, by simpa using hu⟩
  · rw [checkXform_eq_ok] at hc
    exact .inr ⟨by simpa using hd, by simpa using hslot, by simpa [checkXform_eq_ok] using hc, by simpa using hu⟩

/-- A command that has a sequence ends in a state with the invariant. -/
theorem closeCommand_inv (s : State) (ms : List MicroOp) (hs : s.sequence? = some ms)
    (hn : s.nr = roundsFor s.nb s.nk) : s.closeCommand.Inv := by
  unfold State.sequence? at hs
  unfold State.closeCommand
  split
  · next d _ => exact closeConstruct_inv s d hn
  · exact closeXform_inv s hn
  · next hc hx =>
    split at hs
    · next d hd => exact (hc d hd).elim
    · next hd => exact (hx hd).elim
    · cases hs

theorem advance_inv (s : State) (hb : s.busy = true) (hi : s.Inv) : s.advance.Inv := by
  obtain ⟨hr, hn, hrun⟩ := (inv_iff_of_busy s hb).1 hi
  obtain ⟨ms, hs, hu, hlt⟩ := sequence_of_running s hrun
  have hut := tick_upc_toNat s (by omega)
  rw [s.advance_of_sequence ms hs]
  split
  · exact closeCommand_inv s.tick ms (by simpa using hs) (by simpa using hn)
  · rw [inv_iff_of_busy s.tick (by simpa using hb)]
    exact ⟨by simpa using hr, by simpa using hn, tick_running s ms hrun hs (by omega)⟩

/-! An operation, wherever it comes from. -/

@[simp] theorem runMicro_nb (ms : List MicroOp) (s : State) : (s.runMicro ms).nb = s.nb := by rw [runMicro_frame]

@[simp] theorem runMicro_nk (ms : List MicroOp) (s : State) : (s.runMicro ms).nk = s.nk := by rw [runMicro_frame]

@[simp] theorem runMicro_nr (ms : List MicroOp) (s : State) : (s.runMicro ms).nr = s.nr := by rw [runMicro_frame]

/-- DISCARD of a transform that is held: EMPTY, with no error (R228). -/
theorem discarded_inv (s : State) (hb : s.busy = false) (hu : s.upc = 0#7) :
    (((({ s with slot := .empty }.unspecifyInstance).unspecifyScratch).unspecifyDout 0).succeed).Inv := by
  rw [inv_iff_of_idle _ (by simpa using hb)]
  simpa using hu

theorem exec_inv (i : Instr) (s t : State) (hi : s.Inv) (h : exec i s = .next t) : t.Inv := by
  cases i with
  | construct d =>
    rcases execConstruct_cases d s with ⟨-, he⟩ | ⟨hb, e, -, -, he⟩ | ⟨-, nb, nk, -, he⟩ <;> cases he.symm.trans h
    · obtain ⟨-, hu, -⟩ := (inv_iff_of_idle s hb).1 hi
      exact failConstruct_inv s e hu
    · exact closeConstruct_inv _ d (by simp)
  | xform =>
    rcases execXform_cases s with ⟨-, he⟩ | ⟨hb, -, he⟩ | ⟨hb, -, -, he⟩ | ⟨hb, hs, -, he⟩ <;> cases he.symm.trans h
    all_goals obtain ⟨-, hu, hn⟩ := (inv_iff_of_idle s hb).1 hi
    · exact failXform_inv s _ hu hn
    · exact failXform_inv s _ hu hn
    · exact closeXform_inv _ (by simpa using hn hs)
  | discard =>
    rcases execDiscard_cases s with ⟨-, he⟩ | ⟨hb, hs, he⟩ | ⟨hb, -, he⟩ <;> cases he.symm.trans h
    all_goals obtain ⟨-, hu, -⟩ := (inv_iff_of_idle s hb).1 hi
    · rw [inv_iff_of_idle _ (by simpa using hb)]
      simp [hu, hs]
    · exact discarded_inv s hb hu
  | _ =>
    rw [exec_frame_of_not_hostCommand _ s t h rfl]
    exact hi

theorem isHostCommand_toInstr (m : MicroOp) : isHostCommand m.toInstr = false := by cases m <;> rfl

theorem exec_toInstr_busy (m : MicroOp) (s u : State) (h : exec m.toInstr s = .next u) : u.busy = s.busy := by
  rw [exec_frame_of_not_hostCommand _ s u h (isHostCommand_toInstr m)]

theorem fetchMove_inv (s t : State) (m : HostMove) (hb : s.busy = false) (hi : s.Inv)
    (h : (s.fetchMove m).outcome = .next t) : t.Inv := by
  obtain ⟨hr, hu, hn⟩ := (inv_iff_of_idle s hb).1 hi
  rcases fetchMove_cases s m with
    ⟨u, hm, hslot, herr, hrc, -, hnb, hnk, hnr, -, -, hupc, hbusy, -⟩ |
    ⟨cw, i, -, hm⟩ | ⟨cw, d, hd, hm⟩ | ⟨cw, hd, hm⟩ | ⟨cw, hm⟩ | hm <;> rw [hm] at h
  · cases h
    rw [inv_iff_of_idle _ (hbusy.trans hb), hrc, herr, hupc, hslot, hnr, hnb, hnk]
    exact ⟨hr, hu, hn⟩
  · exact exec_inv i { s with cw := cw } t ((inv_iff_of_idle { s with cw := cw } hb).2 ⟨hr, hu, hn⟩)
      (by simpa using h)
  · cases h
    exact openConstruct_inv { s with cw := cw } d hd hr hu
  · cases h
    exact openXform_inv { s with cw := cw } hd hr hu hn
  · cases h
    exact raise_inv { s with cw := cw } _ hu hn
  · cases h
    exact resetEvent_inv s

theorem step_inv (s t : State) (hi : s.Inv) (h : step s = .next t) : t.Inv := by
  rcases step_eq_next_cases s t h with
    ⟨i, h⟩ | ⟨i, h⟩ | ⟨hb, m, u, hu, rfl⟩ | rfl | ⟨rest, rfl⟩ | ⟨hb, m, rest, h⟩
  · exact exec_inv i { s with tablePort := none } t hi h
  · exact exec_inv i { s with microPort := none } t hi h
  · exact advance_inv u ((exec_toInstr_busy m s u hu).trans hb) (exec_inv m.toInstr s u hi hu)
  · exact hi
  · exact resetEvent_inv _
  · exact fetchMove_inv { s with host := rest } t m hb hi h

end Sys2Proof.Machine

open Sys2Proof Sys2Proof.Machine

/-- Settles O2: after reset a core is idle and holds no transform. -/
theorem resetMeetsInvariant : Obligations.ResetMeetsInvariant := by
  unfold Obligations.ResetMeetsInvariant
  rw [inv_iff_of_idle _ rfl]
  exact ⟨rfl, rfl, nofun⟩

/-- Settles O3: by cases on where a step's next state comes from, with one lemma for each source. -/
theorem stepKeepsInvariant : Obligations.StepKeepsInvariant := by
  unfold Obligations.StepKeepsInvariant
  exact step_inv

end

