-- ==== Sys2Proof/Proofs/Spaces.lean ====
section
/-! Which operation writes which space (`20_memory.md` R60, R73): a micro-operation by its own rule, a sequence by its
entries, a host command by its sequence and what stands around it. -/

namespace Sys2Proof.Machine

/-- What a micro-operation or a lookup that answers a next state does: the effect of the sequencer's entry, or a byte of
a table in `tabOut`. -/
theorem exec_datapath_cases (i : Instr) (s t : State) (h : exec i s = .next t) (hc : isHostCommand i = false) :
    (∃ m : MicroOp, i = m.toInstr ∧ t = m.apply s) ∨ ∃ tab a, t = s.lookup tab a := by
  cases i with
  | construct d => cases hc
  | xform => cases hc
  | discard => cases hc
  | kload => exact .inl ⟨.kload, rfl, by cases h; rfl⟩
  | kstep i =>
    simp only [exec, execKstep] at h
    split at h <;> cases h
    exact .inl ⟨.kstep i.toNat, by simp [MicroOp.toInstr], rfl⟩
  | kser => exact .inl ⟨.kser, rfl, by cases h; rfl⟩
  | ldblk => exact .inl ⟨.ldblk, rfl, by cases h; rfl⟩
  | ark r =>
    simp only [exec, execArk] at h
    split at h <;> cases h
    exact .inl ⟨.ark r.toNat, by simp [MicroOp.toInstr], rfl⟩
  | subb => exact .inl ⟨.subb, rfl, by cases h; rfl⟩
  | isubb => exact .inl ⟨.isubb, rfl, by cases h; rfl⟩
  | shrow => exact .inl ⟨.shrow, rfl, by cases h; rfl⟩
  | ishrow => exact .inl ⟨.ishrow, rfl, by cases h; rfl⟩
  | mixc => exact .inl ⟨.mixc, rfl, by cases h; rfl⟩
  | imixc => exact .inl ⟨.imixc, rfl, by cases h; rfl⟩
  | stblk => exact .inl ⟨.stblk, rfl, by cases h; rfl⟩
  | _ => cases h; exact .inr ⟨_, _, rfl⟩

/-- From `s` to `t` each of `W`, `BLK`, `TMP` and `DOUT` is as it was unless `i` is one of its writers (R60). -/
structure KeepsUnwritten (i : Instr) (s t : State) : Prop where
  w : writesInstance i = false → t.w = s.w
  blk : writesBlock i = false → t.blk = s.blk
  tmp : writesTemporary i = false → t.tmp = s.tmp
  dout : writesOutput i = false → t.dout = s.dout

/-- Every space that `i` writes is one that `j` writes. -/
structure WritesWithin (i j : Instr) : Prop where
  w : writesInstance j = false → writesInstance i = false
  blk : writesBlock j = false → writesBlock i = false
  tmp : writesTemporary j = false → writesTemporary i = false
  dout : writesOutput j = false → writesOutput i = false

theorem KeepsUnwritten.mono {i j : Instr} {s t : State} (h : KeepsUnwritten i s t) (hij : WritesWithin i j) :
    KeepsUnwritten j s t :=
  ⟨h.w ∘ hij.w, h.blk ∘ hij.blk, h.tmp ∘ hij.tmp, h.dout ∘ hij.dout⟩

theorem KeepsUnwritten.trans {i : Instr} {s t u : State} (h : KeepsUnwritten i s t) (g : KeepsUnwritten i t u) :
    KeepsUnwritten i s u :=
  ⟨fun hi => (g.w hi).trans (h.w hi), fun hi => (g.blk hi).trans (h.blk hi), fun hi => (g.tmp hi).trans (h.tmp hi),
    fun hi => (g.dout hi).trans (h.dout hi)⟩

/-! The micro-operations and their sequences. -/

theorem apply_keepsUnwritten (m : MicroOp) (s : State) : KeepsUnwritten m.toInstr s (m.apply s) := by
  cases m with
  | kload => exact ⟨nofun, fun _ => s.kload_blk, fun _ => s.kload_tmp, fun _ => s.kload_dout⟩
  | kstep i => exact ⟨nofun, fun _ => s.setWord_blk i _, fun _ => s.setWord_tmp i _, fun _ => s.setWord_dout i _⟩
  | kser => exact ⟨fun _ => rfl, fun _ => rfl, fun _ => rfl, fun _ => rfl⟩
  | stblk => exact ⟨fun _ => s.stblk_w, fun _ => s.stblk_blk, fun _ => s.stblk_tmp, nofun⟩
  | shrow | ishrow =>
    exact ⟨fun _ => by simp [MicroOp.apply, State.rotateRows], nofun, nofun,
      fun _ => by simp [MicroOp.apply, State.rotateRows]⟩
  | _ => exact ⟨fun _ => s.mapBlock_w _, nofun, fun _ => s.mapBlock_tmp _, fun _ => s.mapBlock_dout _⟩

theorem tick_keepsUnwritten (i : Instr) (s : State) : KeepsUnwritten i s s.tick :=
  ⟨fun _ => s.tick_w, fun _ => s.tick_blk, fun _ => s.tick_tmp, fun _ => s.tick_dout⟩

theorem runMicro_cons (m : MicroOp) (ms : List MicroOp) (s : State) :
    s.runMicro (m :: ms) = ((m.apply s).tick).runMicro ms := rfl

/-- A sequence writes what its entries write. -/
theorem runMicro_keepsUnwritten (i : Instr) (ms : List MicroOp) (s : State)
    (h : ∀ m ∈ ms, WritesWithin m.toInstr i) : KeepsUnwritten i s (s.runMicro ms) := by
  induction ms generalizing s with
  | nil => exact ⟨fun _ => rfl, fun _ => rfl, fun _ => rfl, fun _ => rfl⟩
  | cons m ms ih =>
    rw [List.forall_mem_cons] at h
    exact (((apply_keepsUnwritten m s).mono h.1).trans (tick_keepsUnwritten i _)).trans (ih _ h.2)

theorem keySeq_writesWithin (nb nk : WordCount) (nr : Rounds) (d : Direction) :
    ∀ m ∈ keySeq nb nk nr, WritesWithin m.toInstr (.construct d) := by
  intro m hm
  simp only [keySeq, List.mem_cons, List.mem_append, List.mem_map, List.not_mem_nil, or_false] at hm
  rcases hm with rfl | ⟨j, -, rfl⟩ | rfl <;> exact ⟨nofun, fun _ => rfl, fun _ => rfl, fun _ => rfl⟩

theorem xformSeq_keeps_instance (d : Direction) (nr : Rounds) :
    ∀ m ∈ xformSeq d nr, writesInstance m.toInstr = false := by
  cases d <;> cases nr <;> decide

theorem xformSeq_writesWithin (d : Direction) (nr : Rounds) :
    ∀ m ∈ xformSeq d nr, WritesWithin m.toInstr .xform :=
  fun m hm => ⟨fun _ => xformSeq_keeps_instance d nr m hm, nofun, nofun, nofun⟩

/-! Every operation. -/

theorem exec_keepsUnwritten (i : Instr) (s t : State) (h : exec i s = .next t) : KeepsUnwritten i s t := by
  cases hc : isHostCommand i with
  | false =>
    rcases exec_datapath_cases i s t h hc with ⟨m, rfl, rfl⟩ | ⟨tab, a, rfl⟩
    · exact apply_keepsUnwritten m s
    · exact ⟨fun _ => s.lookup_w tab a, fun _ => s.lookup_blk tab a, fun _ => s.lookup_tmp tab a,
        fun _ => s.lookup_dout tab a⟩
  | true =>
    cases i with
    | construct d =>
      rcases execConstruct_cases d s with ⟨-, he⟩ | ⟨-, e, -, -, he⟩ | ⟨-, nb, nk, -, he⟩ <;> cases he.symm.trans h
      · exact ⟨nofun, by simp [State.failConstruct], by simp [State.failConstruct], nofun⟩
      · have hrun := runMicro_keepsUnwritten (.construct d) _ (({ s with slot := .empty }.configure nb nk).begin)
          (keySeq_writesWithin nb nk (roundsFor nb nk) d)
        exact ⟨nofun, fun hi => by simpa [State.closeConstruct] using hrun.blk hi,
          fun hi => by simpa [State.closeConstruct] using hrun.tmp hi, nofun⟩
    | xform =>
      rcases execXform_cases s with ⟨-, he⟩ | ⟨-, -, he⟩ | ⟨-, -, -, he⟩ | ⟨-, -, -, he⟩ <;> cases he.symm.trans h
      · exact ⟨by simp [State.failXform], nofun, nofun, nofun⟩
      · exact ⟨by simp [State.failXform], nofun, nofun, nofun⟩
      · have hrun := runMicro_keepsUnwritten .xform _ s.begin (xformSeq_writesWithin s.dir s.nr)
        exact ⟨fun hi => by simpa [State.closeXform] using hrun.w hi, nofun, nofun, nofun⟩
    | discard => exact ⟨nofun, nofun, nofun, nofun⟩
    | _ => cases hc

/-- What CONSTRUCT fixes for a transform beside its schedule (R22, R24, R25). -/
def State.configuration (s : State) : SlotState × Direction × WordCount × WordCount × Rounds :=
  (s.slot, s.dir, s.nb, s.nk, s.nr)

theorem exec_configuration (i : Instr) (s t : State) (h : exec i s = .next t) (hc : ∀ d, i ≠ .construct d)
    (hd : i ≠ .discard) : t.configuration = s.configuration := by
  cases i with
  | construct d => exact absurd rfl (hc d)
  | discard => exact absurd rfl hd
  | xform =>
    rcases execXform_cases s with ⟨-, he⟩ | ⟨-, -, he⟩ | ⟨-, -, -, he⟩ | ⟨-, -, -, he⟩ <;> cases he.symm.trans h
    · simp [State.configuration, State.failXform]
    · simp [State.configuration, State.failXform]
    · rw [runMicro_frame]
      simp [State.configuration, State.closeXform]
  | _ => rw [exec_frame_of_not_hostCommand _ s t h rfl, State.configuration, State.configuration]

theorem exec_tabOut_of_hostCommand (i : Instr) (s t : State) (h : exec i s = .next t) (hc : isHostCommand i = true) :
    t.tabOut = s.tabOut := by
  cases i with
  | construct d =>
    rcases execConstruct_cases d s with ⟨-, he⟩ | ⟨-, e, -, -, he⟩ | ⟨-, nb, nk, -, he⟩ <;> cases he.symm.trans h
    · simp [State.failConstruct]
    · rw [runMicro_frame]
      simp [State.closeConstruct]
  | xform =>
    rcases execXform_cases s with ⟨-, he⟩ | ⟨-, -, he⟩ | ⟨-, -, -, he⟩ | ⟨-, -, -, he⟩ <;> cases he.symm.trans h
    · simp [State.failXform]
    · simp [State.failXform]
    · rw [runMicro_frame]
      simp [State.closeXform]
  | discard =>
    rcases execDiscard_cases s with ⟨-, he⟩ | ⟨-, -, he⟩ | ⟨-, -, he⟩ <;> cases he.symm.trans h <;> simp
  | _ => cases hc

end Sys2Proof.Machine

open Sys2Proof Sys2Proof.Machine

/-- Settles O56: `W` is among the spaces an operation keeps unless it writes them, and the configuration is changed by
two commands alone. -/
theorem instanceIsReadOnly : Obligations.InstanceIsReadOnly := by
  unfold Obligations.InstanceIsReadOnly
  intro i s t h
  refine ⟨(exec_keepsUnwritten i s t h).w, fun hc hd => ?_⟩
  simpa only [State.configuration, Prod.mk.injEq] using exec_configuration i s t h hc hd

/-- Settles O57: the spaces by what each operation writes, the codes and the bookkeeping by the frame of the operations
that are no host command. -/
theorem spacesChangeOnlyByTheirWriters : Obligations.SpacesChangeOnlyByTheirWriters := by
  unfold Obligations.SpacesChangeOnlyByTheirWriters
  intro i s t h
  obtain ⟨-, hblk, htmp, hdout⟩ := exec_keepsUnwritten i s t h
  refine ⟨hblk, htmp, hdout, fun hc => ?_, exec_tabOut_of_hostCommand i s t h⟩
  rw [exec_frame_of_not_hostCommand i s t h hc]
  exact ⟨rfl, rfl, rfl, rfl, rfl⟩

end

