-- ==== Sys2Proof/Proofs/RawKey.lean ====
section
/-! The raw key at the start of the schedule (`20_memory.md` R63): KLOAD puts it there (R120), and no later entry of the
key scheduler's sequence writes a word below `NK` (R130). -/

namespace Sys2Proof.Machine

theorem word_congr (s t : State) (h : s.w = t.w) (i : Nat) : s.word i = t.word i := by
  rw [State.word, State.word, h]

theorem ekByte_congr (s t : State) (h : s.w = t.w) (n : Nat) : s.ekByte n = t.ekByte n := by
  rw [State.ekByte, State.ekByte, word_congr s t h]

/-- Word `j` of a raw key (R120). -/
def keyWord (key : Buf) (j : Nat) : Word :=
  be32 (bufByte key (4 * j)) (bufByte key (4 * j + 1)) (bufByte key (4 * j + 2)) (bufByte key (4 * j + 3))

theorem byteOf_keyWord (key : Buf) (j k : Nat) (hk : k < 4) : byteOf k (keyWord key j) = bufByte key (4 * j + k) := by
  obtain ⟨h0, h1, h2, h3⟩ := byteOf_be32 (bufByte key (4 * j)) (bufByte key (4 * j + 1)) (bufByte key (4 * j + 2))
    (bufByte key (4 * j + 3))
  match k, hk with
  | 0, _ => exact h0
  | 1, _ => exact h1
  | 2, _ => exact h2
  | 3, _ => exact h3

/-- A word is rewritten by KLOAD and by the KSTEP that names it, and by no other micro-operation. -/
theorem apply_word_of_ne (m : MicroOp) (s : State) (j : Nat) (hj : j < 120) (hl : m ≠ .kload) (hs : m ≠ .kstep j) :
    (m.apply s).word j = s.word j := by
  cases m with
  | kload => exact absurd rfl hl
  | kstep i => exact (word_setWord s i j _ hj).trans (if_neg (by rintro rfl; exact hs rfl))
  | _ => exact word_congr _ _ ((apply_keepsUnwritten _ s).w rfl) j

theorem runMicro_word_of_ne (ms : List MicroOp) (s : State) (j : Nat) (hj : j < 120)
    (h : ∀ m ∈ ms, m ≠ .kload ∧ m ≠ .kstep j) : (s.runMicro ms).word j = s.word j := by
  induction ms generalizing s with
  | nil => rfl
  | cons m ms ih =>
    rw [List.forall_mem_cons] at h
    obtain ⟨⟨hl, hs⟩, hms⟩ := h
    rw [runMicro_cons, ih _ hms, word_congr _ _ (m.apply s).tick_w, apply_word_of_ne m s j hj hl hs]

/-- The key scheduler's sequence leaves the raw key in the first `NK` words. -/
theorem runMicro_keySeq_keyWord (nb nk : WordCount) (nr : Rounds) (s : State) (hk : s.nk = nk) (j : Nat)
    (hj : j < wordCount nk) : (s.runMicro (keySeq nb nk nr)).word j = keyWord s.keyin j := by
  subst hk
  have h120 : j < 120 := by have := wordCount_bounds s.nk; omega
  have hload : (MicroOp.kload.apply s).word j = keyWord s.keyin j := (word_kload s j h120).trans (if_pos hj)
  rw [keySeq, runMicro_cons, runMicro_word_of_ne _ _ j h120, word_congr _ _ (State.tick_w _), hload]
  intro m hm
  simp only [List.mem_append, List.mem_map, List.mem_range'_1, List.mem_singleton] at hm
  rcases hm with ⟨i, hi, rfl⟩ | rfl
  · exact ⟨nofun, fun he => by cases he; omega⟩
  · exact ⟨nofun, nofun⟩

/-- A construction that leaves the slot READY has run its whole sequence (R221). -/
theorem exec_construct_ready (s t : State) (d : Direction) (h : exec (.construct d) s = .next t)
    (hr : t.slot = .ready) : ∃ nb nk, s.checkConstruct = .ok (nb, nk) ∧
      t = ((({ s with slot := .empty }.configure nb nk).begin).runMicro
        (keySeq nb nk (roundsFor nb nk))).closeConstruct d := by
  rcases execConstruct_cases d s with ⟨-, he⟩ | ⟨-, e, -, -, he⟩ | ⟨-, nb, nk, hc, he⟩ <;> cases he.symm.trans h
  · simp [State.failConstruct] at hr
  · exact ⟨nb, nk, hc, rfl⟩

theorem closeConstruct_w (s : State) (d : Direction) : (s.closeConstruct d).w = s.w := by simp [State.closeConstruct]

theorem closeConstruct_nk (s : State) (d : Direction) : (s.closeConstruct d).nk = s.nk := by simp [State.closeConstruct]

theorem constructed_keyWord (s t : State) (d : Direction) (h : exec (.construct d) s = .next t) (hr : t.slot = .ready)
    (j : Nat) (hj : j < wordCount t.nk) : t.word j = keyWord s.keyin j := by
  obtain ⟨nb, nk, -, rfl⟩ := exec_construct_ready s t d h hr
  rw [closeConstruct_nk, runMicro_nk, State.begin_nk, State.configure_nk] at hj
  rw [word_congr _ _ (closeConstruct_w _ d)]
  exact runMicro_keySeq_keyWord nb nk (roundsFor nb nk) ({ s with slot := .empty }.configure nb nk).begin rfl j hj

end Sys2Proof.Machine

open Sys2Proof Sys2Proof.Machine

/-- Settles O32: byte `n` of the view is byte `n mod 4` of word `n div 4`, which is the raw key's. -/
theorem scheduleBeginsWithRawKey : Obligations.ScheduleBeginsWithRawKey := by
  unfold Obligations.ScheduleBeginsWithRawKey
  intro s t d h hr n hn
  have hword : n / 4 < wordCount t.nk := by rw [keyBytes] at hn; omega
  rw [State.ekByte, constructed_keyWord s t d h hr (n / 4) hword, byteOf_keyWord s.keyin _ _ (Nat.mod_lt n (by decide)),
    Nat.div_add_mod]

end

