-- ==== Sys2Proof/Proofs/Noninterference.lean ====
section
/-! What a result depends on. Two machines that hold the same size, schedule and input block run XFORM's sequence in
lockstep: their working blocks agree after every entry, whatever else they hold (`20_memory.md` R73, R172). And a core
of a chip steps as it would alone (R74). -/

namespace Sys2Proof.Machine

/-- Two buffers hold the same bytes below `len`. -/
def Agree (len : Nat) (a b : Buf) : Prop := ∀ n < len, bufByte a n = bufByte b n

theorem bufFill_agree (len : Nat) (f g : Nat → Byte) (a b : Buf) (hl : len ≤ 32) (h : ∀ n < len, f n = g n) :
    Agree len (bufFill len f a) (bufFill len g b) := by
  intro n hn
  rw [bufByte_bufFill len f a n (by omega), bufByte_bufFill len g b n (by omega), if_pos hn, if_pos hn, h n hn]

/-- Two machines agree on what the function of R172 reads, the direction aside. -/
structure SameCipherInput (s₁ s₂ : State) : Prop where
  nb : s₁.nb = s₂.nb
  nr : s₁.nr = s₂.nr
  ek : ∀ n < 4 * scheduleWords s₁.nb s₁.nr, s₁.ekByte n = s₂.ekByte n
  din : Agree (blockBytes s₁.nb) s₁.din s₂.din

/-- What the function of R172 reads is as it was. -/
structure KeepsCipherInput (s t : State) : Prop where
  nb : t.nb = s.nb
  nr : t.nr = s.nr
  w : t.w = s.w
  din : t.din = s.din

theorem SameCipherInput.of_keeps {s₁ s₂ t₁ t₂ : State} (h : SameCipherInput s₁ s₂) (h₁ : KeepsCipherInput s₁ t₁)
    (h₂ : KeepsCipherInput s₂ t₂) : SameCipherInput t₁ t₂ where
  nb := by rw [h₁.nb, h₂.nb, h.nb]
  nr := by rw [h₁.nr, h₂.nr, h.nr]
  ek := by
    intro n hn
    rw [h₁.nb, h₁.nr] at hn
    rw [ekByte_congr t₁ s₁ h₁.w, ekByte_congr t₂ s₂ h₂.w, h.ek n hn]
  din := by rw [h₁.nb, h₁.din, h₂.din]; exact h.din

theorem apply_tick_keepsCipherInput (m : MicroOp) (s : State) (hm : writesInstance m.toInstr = false) :
    KeepsCipherInput s (m.apply s).tick where
  nb := by rw [State.tick_nb, MicroOp.apply_frame m s]
  nr := by rw [State.tick_nr, MicroOp.apply_frame m s]
  w := (State.tick_w _).trans ((apply_keepsUnwritten m s).w hm)
  din := by rw [State.tick_din, MicroOp.apply_frame m s]

/-! The sources of a byte of the working block lie in the working block, and the round keys in the schedule. -/

theorem rotationSource_lt (nb : WordCount) (d : Direction) (n : Nat) : rotationSource nb d n < blockBytes nb := by
  have hmod := Nat.mod_lt (n / 4 + rowShift nb d (n % 4)) (y := wordCount nb) (by have := wordCount_bounds nb; omega)
  rw [rotationSource, blockBytes]
  omega

theorem mixedByte_congr (formula : Byte → Byte → Byte → Byte → Nat → Byte) (nb : WordCount) (a b : Buf)
    (h : Agree (blockBytes nb) a b) (n : Nat) (hn : n < blockBytes nb) :
    mixedByte formula a n = mixedByte formula b n := by
  rw [blockBytes] at h hn
  rw [mixedByte, mixedByte, h (4 * (n / 4)) (by omega), h (4 * (n / 4) + 1) (by omega), h (4 * (n / 4) + 2) (by omega),
    h (4 * (n / 4) + 3) (by omega)]

theorem roundKeyByte_lt (nb : WordCount) (nr : Rounds) (r n : Nat) (hr : r ≤ roundCount nr) (hn : n < blockBytes nb) :
    r * blockBytes nb + n < 4 * scheduleWords nb nr := by
  have hmul : r * blockBytes nb ≤ roundCount nr * blockBytes nb := Nat.mul_le_mul_right _ hr
  calc r * blockBytes nb + n < roundCount nr * blockBytes nb + blockBytes nb := by omega
    _ = 4 * scheduleWords nb nr := by rw [blockBytes, scheduleWords]; ring

/-! Lockstep. -/

theorem mapBlock_agree (s₁ s₂ : State) (f g : Nat → Byte) (hnb : s₁.nb = s₂.nb)
    (h : ∀ n < blockBytes s₁.nb, f n = g n) :
    Agree (blockBytes s₁.nb) (s₁.mapBlock f).blk (s₂.mapBlock g).blk := by
  rw [State.mapBlock_blk, State.mapBlock_blk, ← hnb]
  exact bufFill_agree _ f g _ _ (blockBytes_le s₁.nb) h

/-- A micro-operation of the round datapath makes bytes of the working block from what two such machines agree on. -/
theorem apply_agree (m : MicroOp) (s₁ s₂ : State) (h : SameCipherInput s₁ s₂)
    (hb : Agree (blockBytes s₁.nb) s₁.blk s₂.blk) (hm : writesInstance m.toInstr = false)
    (hr : ∀ r, m = .ark r → r ≤ roundCount s₁.nr) :
    Agree (blockBytes s₁.nb) (m.apply s₁).blk (m.apply s₂).blk := by
  have hrows : ∀ d, Agree (blockBytes s₁.nb) (s₁.rotateRows d).blk (s₂.rotateRows d).blk := fun d => by
    rw [State.rotateRows, State.rotateRows, State.unspecifyTmp_blk, State.unspecifyTmp_blk, ← h.nb]
    exact mapBlock_agree s₁ s₂ _ _ h.nb fun n _ => hb _ (rotationSource_lt s₁.nb d n)
  cases m with
  | kload => cases hm
  | kstep i => cases hm
  | kser => exact hb
  | ldblk => exact mapBlock_agree s₁ s₂ _ _ h.nb h.din
  | ark r =>
    have hkey := fun n hn => h.ek _ (roundKeyByte_lt s₁.nb s₁.nr r n (hr r rfl) hn)
    exact mapBlock_agree s₁ s₂ _ _ h.nb fun n hn => by rw [hb n hn, hkey n hn, h.nb]
  | subb => exact mapBlock_agree s₁ s₂ _ _ h.nb fun n hn => by rw [hb n hn]
  | isubb => exact mapBlock_agree s₁ s₂ _ _ h.nb fun n hn => by rw [hb n hn]
  | shrow => exact hrows .encrypt
  | ishrow => exact hrows .decrypt
  | mixc => exact mapBlock_agree s₁ s₂ _ _ h.nb (mixedByte_congr forwardMix s₁.nb _ _ hb)
  | imixc => exact mapBlock_agree s₁ s₂ _ _ h.nb (mixedByte_congr inverseMix s₁.nb _ _ hb)
  | stblk => rwa [MicroOp.apply, MicroOp.apply, State.stblk_blk, State.stblk_blk]

theorem runMicro_agree (ms : List MicroOp) (s₁ s₂ : State) (h : SameCipherInput s₁ s₂)
    (hb : Agree (blockBytes s₁.nb) s₁.blk s₂.blk)
    (hms : ∀ m ∈ ms, writesInstance m.toInstr = false ∧ ∀ r, m = .ark r → r ≤ roundCount s₁.nr) :
    Agree (blockBytes s₁.nb) (s₁.runMicro ms).blk (s₂.runMicro ms).blk := by
  induction ms generalizing s₁ s₂ with
  | nil => exact hb
  | cons m ms ih =>
    rw [List.forall_mem_cons] at hms
    obtain ⟨⟨hm, hr⟩, hms⟩ := hms
    have k₁ := apply_tick_keepsCipherInput m s₁ hm
    have hnext := ih _ _ (h.of_keeps k₁ (apply_tick_keepsCipherInput m s₂ hm))
    rw [k₁.nb, k₁.nr, State.tick_blk, State.tick_blk] at hnext
    exact hnext (apply_agree m s₁ s₂ h hb hm hr) hms

theorem stblk_agree (s₁ s₂ : State) (hnb : s₁.nb = s₂.nb) (hb : Agree (blockBytes s₁.nb) s₁.blk s₂.blk) :
    Agree (blockBytes s₁.nb) s₁.stblk.dout s₂.stblk.dout := by
  rw [State.stblk_dout, State.stblk_dout, ← hnb]
  exact bufFill_agree _ _ _ _ _ (blockBytes_le s₁.nb) hb

/-- Both sequences copy the input block in first and the working block out last (R170, R171). -/
theorem xformSeq_rounds (d : Direction) (nr : Rounds) :
    xformSeq d nr = .ldblk :: (roundsOf (xformSeq d nr) ++ [.stblk]) := by
  cases d with
  | encrypt => exact encSeq_rounds nr
  | decrypt => cases nr <;> decide

theorem runMicro_copyInOut (ms : List MicroOp) (s : State) :
    (s.runMicro (.ldblk :: (ms ++ [.stblk]))).dout = (s.ldblk.tick.runMicro ms).stblk.dout := by
  rw [runMicro_cons, runMicro_append, runMicro_cons]
  exact State.tick_dout _

/-- What XFORM's sequence leaves in `DOUT` is a function of the size, the schedule and the input block (R172). -/
theorem runMicro_xformSeq_agree (d : Direction) (s₁ s₂ : State) (h : SameCipherInput s₁ s₂) :
    Agree (blockBytes s₁.nb) (s₁.runMicro (xformSeq d s₁.nr)).dout (s₂.runMicro (xformSeq d s₁.nr)).dout := by
  have hms : ∀ m ∈ xformSeq d s₁.nr, writesInstance m.toInstr = false ∧ ∀ r, m = .ark r → r ≤ roundCount s₁.nr :=
    fun m hm => ⟨xformSeq_keeps_instance d s₁.nr m hm, (xformSeq_inRange d s₁.nr m hm).1⟩
  obtain ⟨ms, hseq⟩ : ∃ ms, xformSeq d s₁.nr = .ldblk :: (ms ++ [.stblk]) := ⟨_, xformSeq_rounds d s₁.nr⟩
  rw [hseq, List.forall_mem_cons, List.forall_mem_append] at hms
  obtain ⟨-, hrounds, -⟩ := hms
  have k₁ : KeepsCipherInput s₁ s₁.ldblk.tick := apply_tick_keepsCipherInput .ldblk s₁ rfl
  have k₂ : KeepsCipherInput s₂ s₂.ldblk.tick := apply_tick_keepsCipherInput .ldblk s₂ rfl
  have hload := h.of_keeps k₁ k₂
  have hcopied : Agree (blockBytes s₁.ldblk.tick.nb) s₁.ldblk.tick.blk s₂.ldblk.tick.blk := by
    rw [k₁.nb, State.tick_blk, State.tick_blk]
    exact mapBlock_agree s₁ s₂ _ _ h.nb h.din
  rw [← k₁.nr] at hrounds
  have hblk := runMicro_agree ms _ _ hload hcopied hrounds
  have hout := stblk_agree (s₁.ldblk.tick.runMicro ms) (s₂.ldblk.tick.runMicro ms)
    (by rw [runMicro_nb, runMicro_nb, hload.nb]) (by rwa [runMicro_nb])
  rw [runMicro_nb, k₁.nb] at hout
  rw [hseq, runMicro_copyInOut, runMicro_copyInOut]
  exact hout

theorem bufByte_closeXform_dout (s : State) (n : Nat) (hn : n < blockBytes s.nb) :
    bufByte s.closeXform.dout n = bufByte s.dout n := by
  have h32 := blockBytes_le s.nb
  simp [State.closeXform, bufByte_bufFill _ _ _ n (by omega : n < 32), hn]

/-- XFORM on a READY slot with a right length that answers a next state has run its whole sequence (R225). -/
theorem exec_xform_ready (s t : State) (h : exec .xform s = .next t) (hs : s.slot = .ready)
    (hl : s.dlen.toNat = 4 * wordCount s.nb) : t = (s.begin.runMicro (xformSeq s.dir s.nr)).closeXform := by
  rcases execXform_cases s with ⟨-, he⟩ | ⟨-, he, -⟩ | ⟨-, -, hne, -⟩ | ⟨-, -, -, he⟩
  · cases he.symm.trans h
  · cases he.symm.trans hs
  · exact absurd hl hne
  · cases he.symm.trans h
    rfl

theorem begin_keepsCipherInput (s : State) : KeepsCipherInput s s.begin :=
  ⟨s.begin_nb, s.begin_nr, s.begin_w, s.begin_din⟩

/-! A chip. -/

theorem stepAt_of_step (c : Chip) (k : Nat) (s t : State) (hs : c.instances[k]? = some s) (h : step s = .next t) :
    c.stepAt k = .next { c with instances := c.instances.set k t } := by
  simp only [Chip.stepAt, hs, h]

end Sys2Proof.Machine

open Sys2Proof Sys2Proof.Machine

/-- Settles O50: both machines run the sequence of one direction in lockstep, and what stands around the sequence leaves
the bytes of the output block alone. -/
theorem xformDependsOnScheduleAndInput : Obligations.XformDependsOnScheduleAndInput := by
  unfold Obligations.XformDependsOnScheduleAndInput
  intro s₁ s₂ t₁ t₂ hs₁ hs₂ hl₁ hl₂ hdir hnb hnr hek hdin h₁ h₂ n hn
  have hsame : SameCipherInput s₁.begin s₂.begin :=
    SameCipherInput.of_keeps ⟨hnb, hnr, hek, hdin⟩ (begin_keepsCipherInput s₁) (begin_keepsCipherInput s₂)
  have hout := runMicro_xformSeq_agree s₁.dir s₁.begin s₂.begin hsame n hn
  rw [exec_xform_ready s₁ t₁ h₁ hs₁ hl₁, exec_xform_ready s₂ t₂ h₂ hs₂ hl₂, ← hdir, ← hnr,
    bufByte_closeXform_dout _ n (by simpa [blockBytes] using hn),
    bufByte_closeXform_dout _ n (by simpa [blockBytes, ← hnb] using hn)]
  exact hout

/-- Settles O59: the step writes position `k` of the list and no other. -/
theorem instancesAreIndependent : Obligations.InstancesAreIndependent := by
  unfold Obligations.InstancesAreIndependent
  intro c k s hs t h
  obtain ⟨hk, -⟩ := List.getElem?_eq_some_iff.1 hs
  exact ⟨_, stepAt_of_step c k s t hs h, List.getElem?_set_self hk, List.length_set,
    fun j hj => List.getElem?_set_ne (Ne.symm hj)⟩

end

