-- ==== Sys2Proof/Proofs/Encoding.lean ====
section
/-! The decoders and the encoder of the three formats undo each other (`30_encoding.md` R91, R95, R96): a word is put
together from its fields, and what a decoder answers is read off them. -/

namespace Sys2Proof

/-! Format H. -/

@[simp] theorem directionOfBit_directionBit (d : Direction) : directionOfBit (directionBit d) = d := by
  cases d <;> rfl

@[simp] theorem directionBit_directionOfBit (b : BitVec 1) : directionBit (directionOfBit b) = b := by
  revert b
  decide

/-- A word of format H whose `z` is 0 is the word of its other two fields (R91). -/
theorem hostWord_of_fields (w : BitVec 8) (op : BitVec 4) (dir : BitVec 1) (hz : w.extractLsb' 1 3 = 0#3)
    (ho : w.extractLsb' 4 4 = op) (hd : w.extractLsb' 0 1 = dir) : hostWord op dir = .host w := by
  have hhigh : w.extractLsb' 4 4 ++ w.extractLsb' 1 3 = w.extractLsb' 1 7 :=
    BitVec.extractLsb'_append_extractLsb'_eq_extractLsb' rfl
  have hall : w.extractLsb' 1 7 ++ w.extractLsb' 0 1 = w := BitVec.extractLsb'_append_extractLsb'
  rw [← hhigh, hz, ho, hd] at hall
  exact congrArg CodeWord.host hall

theorem encode_of_decodeHost (w : BitVec 8) (i : Instr) (h : decodeHost w = .ok i) : encode i = .host w := by
  unfold decodeHost at h
  dsimp only at h
  split_ifs at h with hz hop hdir hop hop <;> cases h
  · exact hostWord_of_fields w _ _ (not_not.1 hz) hop (directionBit_directionOfBit _).symm
  · exact hostWord_of_fields w _ _ (not_not.1 hz) hop (not_not.1 hdir)
  · exact hostWord_of_fields w _ _ (not_not.1 hz) hop (not_not.1 hdir)

/-! Format U. -/

/-- A word of format U is the word of its two fields (R95). -/
theorem microWord_of_fields (w : BitVec 12) (code : BitVec 4) (arg : Byte)
    (hc : (w.extractLsb' 8 4).toNat = code.toNat) (ha : w.extractLsb' 0 8 = arg) : microWord code arg = .micro w := by
  have hall : w.extractLsb' 8 4 ++ w.extractLsb' 0 8 = w := BitVec.extractLsb'_append_extractLsb'
  rw [BitVec.eq_of_toNat_eq hc, ha] at hall
  exact congrArg CodeWord.micro hall

@[simp] theorem micro_code_append (code : BitVec 4) (arg : Byte) :
    (code ++ arg : BitVec 12).extractLsb' 8 4 = code := BitVec.extractLsb'_append_eq_left

@[simp] theorem micro_arg_append (code : BitVec 4) (arg : Byte) :
    (code ++ arg : BitVec 12).extractLsb' 0 8 = arg := BitVec.extractLsb'_append_eq_right

theorem micro_code_toNat (w : BitVec 12) : (w.extractLsb' 8 4).toNat = w.toNat / 256 := by
  rw [BitVec.extractLsb'_toNat, Nat.shiftRight_eq_div_pow]
  omega

theorem micro_arg_toNat (w : BitVec 12) : (w.extractLsb' 0 8).toNat = w.toNat % 256 := by
  rw [BitVec.extractLsb'_toNat, Nat.shiftRight_zero]

@[simp] theorem micro_append_div (code : BitVec 4) (arg : Byte) :
    (code ++ arg : BitVec 12).toNat / 256 = code.toNat := by
  rw [← micro_code_toNat, micro_code_append]

@[simp] theorem micro_append_mod (code : BitVec 4) (arg : Byte) :
    (code ++ arg : BitVec 12).toNat % 256 = arg.toNat := by
  rw [← micro_arg_toNat, micro_arg_append]

/-- A right answer of the format U decoder to a word: the well-formed operation whose word it is, or an error for a word
that is reserved in every configuration (R98). -/
inductive MicroAnswer (w : BitVec 12) : Except DecodeError Instr → Prop
  | operation (i : Instr) (hw : wellFormed i = true) (he : encode i = .micro w) : MicroAnswer w (.ok i)
  | reserved (e : DecodeError) (hr : ∀ s, Machine.reservedMicroWord s w) : MicroAnswer w (.error e)

/-- A code that takes no operand (R97). -/
theorem withoutArgument_answer (w : BitVec 12) (i : Instr) (code : BitVec 4)
    (hc : (w.extractLsb' 8 4).toNat = code.toNat) (hn : code.toNat ≠ 2 ∧ code.toNat ≠ 5)
    (he : encode i = microWord code 0#8) (hw : wellFormed i = true) :
    MicroAnswer w (withoutArgument i (w.extractLsb' 0 8)) := by
  unfold withoutArgument
  split_ifs with ha
  · exact .operation i hw (he.trans (microWord_of_fields w code 0#8 hc ha))
  · refine .reserved _ fun s => ?_
    have harg : w.toNat % 256 ≠ 0 := fun h =>
      ha (BitVec.eq_of_toNat_eq (by rw [micro_arg_toNat, h, BitVec.toNat_ofNat]))
    rw [micro_code_toNat] at hc
    exact .inr (.inr (.inr (.inr ⟨hc ▸ hn.1, hc ▸ hn.2, harg⟩)))

/-- KSTEP: an index no configuration has is reserved in all of them. -/
theorem kstep_answer (w : BitVec 12) (hc : (w.extractLsb' 8 4).toNat = 2) :
    MicroAnswer w (if wellFormed (.kstep (w.extractLsb' 0 8)) then .ok (.kstep (w.extractLsb' 0 8))
      else .error .wordIndexOutOfRange) := by
  split_ifs with hw
  · exact .operation _ hw (microWord_of_fields w 2#4 _ hc rfl)
  · refine .reserved _ fun s => ?_
    have hnk := Machine.wordCount_bounds s.nk
    have hnw := Machine.scheduleWords_le s.nb s.nr
    simp only [wellFormed, micro_arg_toNat, Bool.and_eq_true, decide_eq_true_eq] at hw
    rw [micro_code_toNat] at hc
    have harg : w.toNat % 256 < Machine.wordCount s.nk ∨ Machine.scheduleWords s.nb s.nr ≤ w.toNat % 256 := by omega
    exact .inr (.inr (.inl ⟨hc, harg⟩))

/-- ARK: a round no configuration has is reserved in all of them. -/
theorem ark_answer (w : BitVec 12) (hc : (w.extractLsb' 8 4).toNat = 5) :
    MicroAnswer w (if wellFormed (.ark (w.extractLsb' 0 8)) then .ok (.ark (w.extractLsb' 0 8))
      else .error .roundOutOfRange) := by
  split_ifs with hw
  · exact .operation _ hw (microWord_of_fields w 5#4 _ hc rfl)
  · refine .reserved _ fun s => ?_
    have hnr := Machine.roundCount_bounds s.nr
    simp only [wellFormed, micro_arg_toNat, decide_eq_true_eq] at hw
    rw [micro_code_toNat] at hc
    have harg : Machine.roundCount s.nr < w.toNat % 256 := by omega
    exact .inr (.inr (.inr (.inl ⟨hc, harg⟩)))

/-- The format U decoder answers every word rightly: each code by its row of R95. -/
theorem decodeMicro_answer (w : BitVec 12) : MicroAnswer w (decodeMicro w) := by
  unfold decodeMicro
  dsimp only
  split
  · next hc => exact withoutArgument_answer w .kload 0x1#4 hc (by decide) rfl rfl
  · next hc => exact kstep_answer w hc
  · next hc => exact withoutArgument_answer w .kser 0x3#4 hc (by decide) rfl rfl
  · next hc => exact withoutArgument_answer w .ldblk 0x4#4 hc (by decide) rfl rfl
  · next hc => exact ark_answer w hc
  · next hc => exact withoutArgument_answer w .subb 0x6#4 hc (by decide) rfl rfl
  · next hc => exact withoutArgument_answer w .isubb 0x7#4 hc (by decide) rfl rfl
  · next hc => exact withoutArgument_answer w .shrow 0x8#4 hc (by decide) rfl rfl
  · next hc => exact withoutArgument_answer w .ishrow 0x9#4 hc (by decide) rfl rfl
  · next hc => exact withoutArgument_answer w .mixc 0xA#4 hc (by decide) rfl rfl
  · next hc => exact withoutArgument_answer w .imixc 0xB#4 hc (by decide) rfl rfl
  · next hc => exact withoutArgument_answer w .stblk 0xC#4 hc (by decide) rfl rfl
  · refine .reserved _ fun s => ?_
    have hcode : w.toNat / 256 = 0 ∨ 13 ≤ w.toNat / 256 := by
      simp only [micro_code_toNat, imp_false] at *
      omega
    exact hcode.imp_right .inl

/-! Format T. -/

/-- An address of format T is the address of its two fields (R96). -/
theorem tableWord_of_fields (w : BitVec 11) (tsel : BitVec 3) (h : (w.extractLsb' 8 3).toNat = tsel.toNat) :
    tableWord tsel (w.extractLsb' 0 8) = .table w := by
  have hall : w.extractLsb' 8 3 ++ w.extractLsb' 0 8 = w := BitVec.extractLsb'_append_extractLsb'
  rw [BitVec.eq_of_toNat_eq h] at hall
  exact congrArg CodeWord.table hall

@[simp] theorem table_tsel_append (tsel : BitVec 3) (idx : Byte) :
    (tsel ++ idx : BitVec 11).extractLsb' 8 3 = tsel := BitVec.extractLsb'_append_eq_left

@[simp] theorem table_idx_append (tsel : BitVec 3) (idx : Byte) :
    (tsel ++ idx : BitVec 11).extractLsb' 0 8 = idx := BitVec.extractLsb'_append_eq_right

/-- Every address is that of the lookup it decodes to: no address is reserved (R96). -/
theorem encode_decodeTable (w : BitVec 11) : encode (decodeTable w) = .table w := by
  unfold decodeTable
  dsimp only
  split
  · next h => exact tableWord_of_fields w 0#3 h
  · next h => exact tableWord_of_fields w 1#3 h
  · next h => exact tableWord_of_fields w 2#3 h
  · next h => exact tableWord_of_fields w 3#3 h
  · next h => exact tableWord_of_fields w 4#3 h
  · next h => exact tableWord_of_fields w 5#3 h
  · next h => exact tableWord_of_fields w 6#3 h
  · have hlt := (w.extractLsb' 8 3).isLt
    have h : (w.extractLsb' 8 3).toNat = 7 := by
      simp only [imp_false] at *
      omega
    exact tableWord_of_fields w 7#3 h

theorem decodeTable_wellFormed (w : BitVec 11) : wellFormed (decodeTable w) = true := by
  unfold decodeTable
  dsimp only
  split <;> rfl

/-! The three together. -/

/-- KSTEP, ARK and the lookups carry an operand, which is read back from the low field of the word; every other word is
fixed. -/
theorem decode_encode (i : Instr) (h : wellFormed i = true) : decode (encode i) = .ok i := by
  cases i with
  | construct d => cases d <;> rfl
  | kstep i => simp [encode, microWord, decode, decodeMicro, h]
  | ark r => simp [encode, microWord, decode, decodeMicro, h]
  | lutSbox a | lutIsbox a | lutM2 a | lutM3 a | lutM9 a | lutM11 a | lutM13 a | lutM14 a =>
    simp [encode, tableWord, decode, decodeTable]
  | _ => rfl

/-- The operation a word spells is the one well-formed operation whose word it is. -/
theorem decode_eq_ok_iff (c : CodeWord) (i : Instr) : decode c = .ok i ↔ wellFormed i = true ∧ encode i = c := by
  refine ⟨fun h => ?_, fun ⟨hw, he⟩ => he ▸ decode_encode i hw⟩
  cases c with
  | host w =>
    refine ⟨?_, encode_of_decodeHost w i h⟩
    obtain ⟨d, rfl⟩ | rfl | rfl := Machine.decodeHost_isCommand w i h <;> rfl
  | micro w =>
    have ha : MicroAnswer w (.ok i) := h ▸ decodeMicro_answer w
    cases ha with
    | operation _ hw he => exact ⟨hw, he⟩
  | table w =>
    obtain rfl : decodeTable w = i := Except.ok.inj h
    exact ⟨decodeTable_wellFormed w, encode_decodeTable w⟩

end Sys2Proof

open Sys2Proof Sys2Proof.Machine

/-- Settles O6: one case for each kind of operand a word carries. -/
theorem decodeEncodeRoundTrip : Obligations.DecodeEncodeRoundTrip := by
  unfold Obligations.DecodeEncodeRoundTrip
  exact decode_encode

/-- Settles O7: a word is put together again from the fields its decoder read. -/
theorem decodedWordsReencode : Obligations.DecodedWordsReencode := by
  unfold Obligations.DecodedWordsReencode
  exact fun c i => (decode_eq_ok_iff c i).1

/-- Settles O8: each of the seven words is, field for field, the word of its operation. -/
theorem specWordsDecode : Obligations.SpecWordsDecode := by
  unfold Obligations.SpecWordsDecode
  exact ⟨decode_encode (.construct .decrypt) rfl, decode_encode .xform rfl, decode_encode (.kstep 43#8) rfl,
    decode_encode (.ark 10#8) rfl, decode_encode .imixc rfl, decode_encode (.lutIsbox 0x63#8) rfl,
    decode_encode (.lutM14 0x57#8) rfl⟩

end

