-- ==== Sys2Proof/Proofs/PresentedWords.lean ====
section
/-! What a step makes of a word presented to the core: a command word that spells no command (`30_encoding.md` R94), a
word of format U at its port (R98), a word the model places (log entries 8, 9). -/

namespace Sys2Proof.Machine

/-! Format H. -/

/-- The legal command words are those of CONSTRUCT in its two directions, XFORM and DISCARD (R94). -/
theorem decodeHost_legal_iff (w : BitVec 8) :
    (∃ i, decodeHost w = .ok i) ↔ (w = 0x10#8 ∨ w = 0x11#8 ∨ w = 0x20#8 ∨ w = 0x30#8) := by
  constructor
  · rintro ⟨i, h⟩
    have hw := encode_of_decodeHost w i h
    obtain ⟨d, rfl⟩ | rfl | rfl := decodeHost_isCommand w i h
    · cases d <;> cases hw <;> decide
    · cases hw
      decide
    · cases hw
      decide
  · rintro (rfl | rfl | rfl | rfl)
    · exact ⟨.construct .encrypt, rfl⟩
    · exact ⟨.construct .decrypt, rfl⟩
    · exact ⟨.xform, rfl⟩
    · exact ⟨.discard, rfl⟩

/-- A word that spells no command is reported in either of the two moves that present one (R268). -/
theorem fetchMove_illegal (s : State) (w : BitVec 8) (m : HostMove) (hm : m = .command w ∨ m = .start w)
    (h : ¬ ∃ i, decodeHost w = .ok i) : s.fetchMove m = .settled ({ s with cw := w }.raise .illegalCmd) := by
  cases hd : decodeHost w with
  | ok i => exact absurd ⟨i, hd⟩ h
  | error e =>
    rcases hm with rfl | rfl
    · simp only [State.fetchMove, State.presentCommand, hd]
    · simp only [State.fetchMove, State.startCommand, hd]

/-- Of an idle core `raise` changes the codes and the record alone: BUSY is 0 already (R262). -/
theorem raise_illegalCmd_of_idle (s : State) (hb : s.busy = false) :
    s.raise .illegalCmd =
      { s with rc := .illegalCmd, err := .illegalCmd, violations := .illegalCmd :: s.violations } := by
  simp [State.raise, isContractViolation, hb]

/-! Format U. -/

/-- KSTEP's word is reserved exactly outside the range in which the operation has a meaning (R98). -/
theorem reservedMicroWord_kstep (s : State) (n : Byte) :
    reservedMicroWord s (0x2#4 ++ n) ↔ ¬ s.kstepInRange n.toNat := by
  simp [reservedMicroWord, imp_iff_not_or]

/-- ARK's word is reserved exactly for a round the configuration does not have (R98). -/
theorem reservedMicroWord_ark (s : State) (r : Byte) :
    reservedMicroWord s (0x5#4 ++ r) ↔ ¬ s.arkInRange r.toNat := by
  simp [reservedMicroWord]

/-- A code that takes no operand, with `arg` 0, is reserved in no configuration (R98). -/
theorem not_reservedMicroWord_of_code (s : State) (code : BitVec 4)
    (hc : 0 < code.toNat ∧ code.toNat < 13 ∧ code.toNat ≠ 2 ∧ code.toNat ≠ 5) :
    ¬ reservedMicroWord s (code ++ 0#8) := by
  simp only [reservedMicroWord, micro_append_div, micro_append_mod, BitVec.toNat_ofNat]
  omega

/-- A micro-operation is refused exactly when its word is reserved in the present configuration. -/
theorem exec_of_microWord (s : State) (i : Instr) (w : BitVec 12) (he : encode i = .micro w) :
    (reservedMicroWord s w ∧ exec i s = .refused .reservedOperand) ∨
    (¬ reservedMicroWord s w ∧ ∃ t, exec i s = .next t) := by
  cases i with
  | kstep n =>
    cases he
    by_cases hr : s.kstepInRange n.toNat
    · exact .inr ⟨(reservedMicroWord_kstep s n).not_left.2 hr, s.kstep n.toNat, if_pos hr⟩
    · exact .inl ⟨(reservedMicroWord_kstep s n).2 hr, if_neg hr⟩
  | ark r =>
    cases he
    by_cases hr : s.arkInRange r.toNat
    · exact .inr ⟨(reservedMicroWord_ark s r).not_left.2 hr, s.ark r.toNat, if_pos hr⟩
    · exact .inl ⟨(reservedMicroWord_ark s r).2 hr, if_neg hr⟩
  | _ => cases he <;> exact .inr ⟨not_reservedMicroWord_of_code s _ (by decide), _, rfl⟩

/-- A word at the micro-operation port is refused when it is reserved, by the decoder or by the operation, and else
runs. -/
theorem step_microPort_cases (s : State) (w : BitVec 12) (ht : s.tablePort = none) (hm : s.microPort = some w) :
    (reservedMicroWord s w ∧ ∃ q, step s = .refused q) ∨ (¬ reservedMicroWord s w ∧ ∃ t, step s = .next t) := by
  have ha := decodeMicro_answer w
  rw [step_microPort s w ht hm]
  cases hd : decodeMicro w with
  | error e =>
    rw [hd] at ha
    cases ha with
    | reserved _ hr => exact .inl ⟨hr s, _, rfl⟩
  | ok i =>
    rw [hd] at ha
    cases ha with
    | operation _ _ he =>
      exact (exec_of_microWord { s with microPort := none } i w he).imp_left fun ⟨hr, hx⟩ => ⟨hr, _, hx⟩

theorem encode_toInstr (m : MicroOp) : ∃ w, encode m.toInstr = .micro w := by cases m <;> exact ⟨_, rfl⟩

/-- The word of an operation that answers a next state is not reserved. -/
theorem not_reserved_of_exec (s t : State) (m : MicroOp) (h : exec m.toInstr s = .next t) :
    ∃ w, encode m.toInstr = .micro w ∧ ¬ reservedMicroWord s w := by
  obtain ⟨w, hw⟩ := encode_toInstr m
  obtain ⟨-, hx⟩ | ⟨hr, -⟩ := exec_of_microWord s m.toInstr w hw
  · cases hx.symm.trans h
  · exact ⟨w, hw, hr⟩

/-- Every entry of the three sequences of the present configuration runs (R130, R170, R171). -/
theorem exec_sequence_entry (s : State) (m : MicroOp)
    (hm : m ∈ keySeq s.nb s.nk s.nr ∨ m ∈ encSeq s.nr ∨ m ∈ decSeq s.nr) :
    exec m.toInstr s = .next (m.apply s) := by
  rcases hm with hm | hm | hm
  · obtain ⟨hi, hr⟩ := keySeq_inRange s.nb s.nk s.nr m hm
    exact exec_toInstr m s hi fun r h => absurd h (hr r)
  · obtain ⟨hr, hi⟩ := xformSeq_inRange .encrypt s.nr m hm
    exact exec_toInstr m s (fun i h => absurd h (hi i)) hr
  · obtain ⟨hr, hi⟩ := xformSeq_inRange .decrypt s.nr m hm
    exact exec_toInstr m s (fun i h => absurd h (hi i)) hr

end Sys2Proof.Machine

open Sys2Proof Sys2Proof.Machine

/-- Settles O9: a word that is none of the four is reported by the move that presents it. -/
theorem illegalCommandWordChangesOnlyResult : Obligations.IllegalCommandWordChangesOnlyResult := by
  unfold Obligations.IllegalCommandWordChangesOnlyResult
  refine ⟨decodeHost_legal_iff, fun s w rest hp hb hh h10 h11 h20 h30 => ?_⟩
  have hw : ¬ ∃ i, decodeHost w = .ok i := by
    rw [decodeHost_legal_iff]
    simp only [h10, h11, h20, h30, or_self, not_false_eq_true]
  obtain ⟨m, hh, hm⟩ : ∃ m, s.host = m :: rest ∧ (m = .command w ∨ m = .start w) :=
    hh.elim (fun hh => ⟨_, hh, .inl rfl⟩) fun hh => ⟨_, hh, .inr rfl⟩
  rw [step_move s m rest hp hh (.inl hb), fetchMove_illegal { s with host := rest } w m hm hw]
  exact congrArg _ (raise_illegalCmd_of_idle { s with host := rest, cw := w } hb)

/-- Settles O10: a word at the port by the two cases of the step; an entry of a sequence is in range, so that its
operation runs, and then its word is not reserved. -/
theorem reservedMicroWordsAreRefused : Obligations.ReservedMicroWordsAreRefused := by
  unfold Obligations.ReservedMicroWordsAreRefused
  refine ⟨fun s w ht hm => ?port, fun s m _ hm => ?sequence⟩
  case port =>
    obtain ⟨hr, hq⟩ | ⟨hr, hn⟩ := step_microPort_cases s w ht hm
    · exact ⟨fun _ => hq, fun h => absurd hr h⟩
    · exact ⟨fun h => absurd h hr, fun _ => hn⟩
  case sequence => exact not_reserved_of_exec s _ m (exec_sequence_entry s m hm)

/-- Settles O12: the state in which a word is placed meets the premises of the lemma about the place it is fetched
from. -/
theorem placedWordRunsNext : Obligations.PlacedWordRunsNext := by
  unfold Obligations.PlacedWordRunsNext
  refine ⟨fun s w i hd => ?host, fun s w i hd => ?micro, fun s w i hd => ?table⟩
  case host => exact step_command (s.place (.host w)) w i s.host ⟨rfl, rfl⟩ rfl rfl hd
  case micro =>
    have hdm : decodeMicro w = .ok i := hd
    rw [step_microPort (s.place (.micro w)) w rfl rfl, hdm]
    rfl
  case table =>
    obtain rfl : decodeTable w = i := Except.ok.inj hd
    exact step_tablePort (s.place (.table w)) w rfl

end

