-- ==== Sys2Proof/Proofs/Lookups.lean ====
section
/-! The eight lookups: where each stands in the table bank (`30_encoding.md` R96) and the byte it returns by the rule of
its table (`42_tables_gf.md` R198 to R208). -/

namespace Sys2Proof.Machine

/-- The listing R240 is the rule R198. -/
theorem sbox_eq_affine_inverse : ∀ a : Byte, tabRead .sbox a = affine (fieldInverse a) := by decide +kernel

/-- The listing R241 undoes the listing R240 (R199). -/
theorem sbox_isbox : ∀ a : Byte, tabRead .sbox (tabRead .isbox a) = a := by decide +kernel

/-- The product with `x` is `xtime` (R193). -/
theorem cmul_two (b : Byte) : cmul 0x02#8 b = xtime b := by simp [cmul, cmulFrom]

theorem m2_eq_cmul (b : Byte) : tabRead .m2 b = cmul 0x02#8 b := (m2_eq_xtime b).trans (cmul_two b).symm

/-- What a lookup answers, by the value of the entry it reads (R210). -/
theorem next_lookup {t : Table} {a b : Byte} (s : State) (h : tabRead t a = b) :
    (.next (s.lookup t a) : Result) = .next { s with tabOut := b } := by rw [State.lookup, h]

/-- A lookup is the operation its own address decodes to. -/
theorem decodeTable_of_encode (i : Instr) (w : BitVec 11) (hw : wellFormed i = true) (he : encode i = .table w) :
    decodeTable w = i := Except.ok.inj ((decode_eq_ok_iff (.table w) i).2 ⟨hw, he⟩)

end Sys2Proof.Machine

open Sys2Proof Sys2Proof.Machine

/-- Settles O21: each lookup is the operation of its own address, and each table is what its rule says. -/
theorem lookupsReturnTableBytes : Obligations.LookupsReturnTableBytes := by
  unfold Obligations.LookupsReturnTableBytes
  intro s a
  exact ⟨⟨decodeTable_of_encode _ _ rfl rfl, next_lookup s (sbox_eq_affine_inverse a)⟩,
    ⟨decodeTable_of_encode _ _ rfl rfl, tabRead .isbox a, next_lookup s rfl, sbox_isbox a⟩,
    ⟨decodeTable_of_encode _ _ rfl rfl, next_lookup s (m2_eq_cmul a)⟩,
    ⟨decodeTable_of_encode _ _ rfl rfl, next_lookup s (m3_eq_cmul a)⟩,
    ⟨decodeTable_of_encode _ _ rfl rfl, next_lookup s (m9_eq_cmul a)⟩,
    ⟨decodeTable_of_encode _ _ rfl rfl, next_lookup s (m11_eq_cmul a)⟩,
    ⟨decodeTable_of_encode _ _ rfl rfl, next_lookup s (m13_eq_cmul a)⟩,
    ⟨decodeTable_of_encode _ _ rfl rfl, next_lookup s (m14_eq_cmul a)⟩⟩

end

