-- ==== Sys2Proof/Proofs/KeyScheduler.lean ====
section
/-! The key scheduler's functions and its three micro-operations, each by itself (`40_key_scheduler.md` R120 to
R126). -/

namespace Sys2Proof.Machine

/-! RotWord and SubWord. -/

theorem rotWord_be32 (a0 a1 a2 a3 : Byte) : rotWord (be32 a0 a1 a2 a3) = be32 a1 a2 a3 a0 := by
  unfold rotWord be32
  ext i hi
  simp only [← BitVec.getLsbD_eq_getElem, BitVec.getLsbD_append, BitVec.getLsbD_extractLsb']
  grind

theorem rotWord_eq_rotateLeft (t : Word) : rotWord t = t.rotateLeft 8 := by
  unfold rotWord
  ext i hi
  simp only [← BitVec.getLsbD_eq_getElem, BitVec.getLsbD_append, BitVec.getLsbD_extractLsb']
  grind

theorem byteOf_subWord (t : Word) (k : Nat) (hk : k < 4) : byteOf k (subWord t) = tabRead .sbox (byteOf k t) := by
  obtain ⟨h0, h1, h2, h3⟩ := byteOf_be32 (tabRead .sbox (byteOf 0 t)) (tabRead .sbox (byteOf 1 t))
    (tabRead .sbox (byteOf 2 t)) (tabRead .sbox (byteOf 3 t))
  match k, hk with
  | 0, _ => exact h0
  | 1, _ => exact h1
  | 2, _ => exact h2
  | 3, _ => exact h3

/-! The round constants. -/

theorem byteOf_xor (k : Nat) (a b : Word) : byteOf k (a ^^^ b) = byteOf k a ^^^ byteOf k b := BitVec.extractLsb'_xor

/-- The bytes of the round constants that exist (R123). -/
theorem byteOf_rcon (j : Nat) (h1 : 1 ≤ j) (h30 : j ≤ 30) :
    byteOf 0 (rcon j) = roundConstantByte (j - 1) ∧ ∀ k, 1 ≤ k → k < 4 → byteOf k (rcon j) = 0#8 := by
  obtain ⟨b0, b1, b2, b3⟩ := byteOf_be32 (roundConstantByte (j - 1)) 0#8 0#8 0#8
  rw [rcon, if_pos ⟨h1, h30⟩]
  refine ⟨b0, fun k hk1 hk4 => ?_⟩
  match k, hk1, hk4 with
  | 1, _, _ => exact b1
  | 2, _, _ => exact b2
  | 3, _, _ => exact b3

theorem byteOf_rcon_succ (j : Nat) (h1 : 1 ≤ j) (h30 : j < 30) :
    byteOf 0 (rcon (j + 1)) = xtime (byteOf 0 (rcon j)) := by
  obtain ⟨i, rfl⟩ : ∃ i, j = i + 1 := ⟨j - 1, by omega⟩
  rw [(byteOf_rcon (i + 1 + 1) (by omega) (by omega)).1, (byteOf_rcon (i + 1) h1 (by omega)).1]
  rfl

/-! The micro-operations. -/

/-- What KSTEP leaves in the word it names: R125's three cases. -/
theorem word_kstep_self (s : State) (i : Nat) (h : i < 120) :
    (s.kstep i).word i = s.word (i - wordCount s.nk) ^^^ s.kstepTemp i :=
  (word_setWord s i i _ h).trans (if_pos rfl)

theorem word_kstep_of_ne (s : State) (i j : Nat) (hj : j < 120) (hne : j ≠ i) : (s.kstep i).word j = s.word j :=
  (word_setWord s i j _ hj).trans (if_neg hne)

theorem exec_kstep_of_inRange (s : State) (i : Byte) (h : s.kstepInRange i.toNat) :
    exec (.kstep i) s = .next (s.kstep i.toNat) := if_pos h

end Sys2Proof.Machine

open Sys2Proof Sys2Proof.Machine

/-- Settles O23: both functions on the bytes of a word, and the two examples computed. -/
theorem rotWordAndSubWordActOnBytes : Obligations.RotWordAndSubWordActOnBytes := by
  unfold Obligations.RotWordAndSubWordActOnBytes
  exact ⟨rotWord_be32, rotWord_eq_rotateLeft, by decide, byteOf_subWord, by decide⟩

/-- Settles O24: the four bytes of a constant, the recurrence of the first, and the table computed. -/
theorem roundConstantsDouble : Obligations.RoundConstantsDouble := by
  unfold Obligations.RoundConstantsDouble
  refine ⟨by decide, byteOf_rcon_succ, fun j w k h1 h30 hk1 hk4 => ?_, by decide⟩
  have hzero : byteOf k (rcon j) = 0#8 := (byteOf_rcon j h1 h30).2 k hk1 hk4
  exact ⟨hzero, by rw [byteOf_xor, hzero, BitVec.xor_zero]⟩

/-- Settles O26: the word is KLOAD's own, and KLOAD writes `W` alone. -/
theorem kloadLoadsKeyWords : Obligations.KloadLoadsKeyWords := by
  unfold Obligations.KloadLoadsKeyWords
  exact ⟨decode_encode .kload rfl, fun s => ⟨s.kload, rfl, by simp only [State.kload], word_kload s⟩⟩

/-- Settles O27: an index of the configuration is in range, so the step is KSTEP's effect, a write of one word. -/
theorem kstepComputesNextWord : Obligations.KstepComputesNextWord := by
  unfold Obligations.KstepComputesNextWord
  refine ⟨fun i h4 h119 => decode_encode (.kstep i) (by simp [wellFormed, h4, h119]), fun s i hk hw => ?_⟩
  have h120 : i.toNat < 120 := hw.trans_le (scheduleWords_le s.nb s.nr)
  exact ⟨s.kstep i.toNat, exec_kstep_of_inRange s i ⟨hk, hw⟩, by simp only [State.kstep, State.setWord],
    word_kstep_self s i.toNat h120, fun j hj hne => word_kstep_of_ne s i.toNat j hj hne⟩

/-- Settles O28: KSER answers the state it was given, and the byte view is a view of the words. -/
theorem kserChangesNothing : Obligations.KserChangesNothing := by
  unfold Obligations.KserChangesNothing
  exact ⟨decode_encode .kser rfl, fun s => ⟨rfl, fun i _ k hk => ekByte_word s i k hk⟩⟩

end

