-- ==== Sys2Proof/Proofs/KeyExpansion.lean ====
section
/-! The schedule CONSTRUCT leaves is the key's expansion by the recurrence of R125 (`40_key_scheduler.md` R131), which
determines it from the raw key and `NK` alone (R132, R133). -/

namespace Sys2Proof.Machine

/-- Every word from `NK` up and below `n` is made from the words before it as KSTEP makes it (R125). -/
def State.ExpandedTo (s : State) (n : Nat) : Prop :=
  ∀ i, wordCount s.nk ≤ i → i < n → s.word i = s.word (i - wordCount s.nk) ^^^ s.kstepTemp i

theorem kstepTemp_congr (s t : State) (i : Nat) (hk : wordCount s.nk = wordCount t.nk)
    (hw : s.word (i - 1) = t.word (i - 1)) : s.kstepTemp i = t.kstepTemp i := by
  rw [State.kstepTemp, State.kstepTemp, hk, hw]

/-- What KSTEP computes for place `i` is a function of `NK` and of words below `i`. -/
theorem kstepValue_congr (s t : State) (i : Nat) (hi : wordCount s.nk ≤ i) (hk : wordCount s.nk = wordCount t.nk)
    (hw : ∀ j < i, s.word j = t.word j) :
    s.word (i - wordCount s.nk) ^^^ s.kstepTemp i = t.word (i - wordCount t.nk) ^^^ t.kstepTemp i := by
  have h4 := wordCount_bounds s.nk
  rw [kstepTemp_congr s t i hk (hw _ (by omega)), hw _ (by omega), hk]

theorem State.ExpandedTo.of_same_words {s t : State} {n : Nat} (h : s.ExpandedTo n) (hk : t.nk = s.nk)
    (hw : ∀ j < n, t.word j = s.word j) : t.ExpandedTo n := by
  intro i hi hn
  rw [kstepValue_congr t s i hi (by rw [hk]) fun j hj => hw j (by omega), hw i hn]
  exact h i (hk ▸ hi) hn

/-- The loop's body: with the words below `i` made, KSTEP makes word `i` and keeps them. -/
theorem kstep_expandedTo (s : State) (i : Nat) (h120 : i < 120) (h : s.ExpandedTo i) :
    (s.kstep i).ExpandedTo (i + 1) := by
  have hkeep : ∀ j < i, (s.kstep i).word j = s.word j := fun j hj =>
    word_kstep_of_ne s i j (by omega) (by omega)
  have hnk : (s.kstep i).nk = s.nk := s.setWord_nk i _
  intro j hj hn
  obtain hlt | rfl : j < i ∨ j = i := by omega
  · exact h.of_same_words hnk hkeep j hj hlt
  · rw [kstepValue_congr (s.kstep j) s j hj (by rw [hnk]) hkeep]
    exact word_kstep_self s j h120

/-- The loop of R125. -/
theorem runMicro_ksteps_expandedTo (n : Nat) (s : State) (i : Nat) (h120 : i + n ≤ 120) (h : s.ExpandedTo i) :
    (s.runMicro ((List.range' i n).map MicroOp.kstep)).ExpandedTo (i + n) := by
  induction n generalizing s i with
  | zero => exact h
  | succ n ih =>
    have hbody : (s.kstep i).tick.ExpandedTo (i + 1) :=
      (kstep_expandedTo s i (by omega) h).of_same_words (State.tick_nk _) fun j _ => word_congr _ _ (State.tick_w _) j
    rw [List.range'_succ, List.map_cons, runMicro_cons, show i + (n + 1) = i + 1 + n by omega]
    exact ih _ (i + 1) (by omega) hbody

/-- The key scheduler's sequence makes every word of the schedule from `NK` up. -/
theorem runMicro_keySeq_expandedTo (nb nk : WordCount) (nr : Rounds) (s : State) (hk : s.nk = nk) :
    (s.runMicro (keySeq nb nk nr)).ExpandedTo (scheduleWords nb nr) := by
  have hlt := wordCount_lt_scheduleWords nb nk nr
  have hle := scheduleWords_le nb nr
  have hstart : s.kload.tick.ExpandedTo (wordCount nk) := fun i hi hn => by
    rw [State.tick_nk, State.kload_nk, hk] at hi
    omega
  have hloop := runMicro_ksteps_expandedTo (scheduleWords nb nr - wordCount nk) s.kload.tick _ (by omega) hstart
  rw [Nat.add_sub_cancel' hlt.le] at hloop
  rw [keySeq, runMicro_cons, runMicro_append]
  exact hloop.of_same_words (State.tick_nk _) fun j _ => word_congr _ _ (State.tick_w _) j

theorem constructed_expandedTo (s t : State) (d : Direction) (h : exec (.construct d) s = .next t)
    (hr : t.slot = .ready) : t.ExpandedTo (scheduleWords t.nb t.nr) := by
  obtain ⟨nb, nk, -, rfl⟩ := exec_construct_ready s t d h hr
  have hrun := runMicro_keySeq_expandedTo nb nk (roundsFor nb nk)
    ({ s with slot := .empty }.configure nb nk).begin rfl
  have hclose := hrun.of_same_words (closeConstruct_nk _ d) fun j _ => word_congr _ _ (closeConstruct_w _ d) j
  simpa [State.closeConstruct] using hclose

theorem constructed_ksz (s t : State) (d : Direction) (h : exec (.construct d) s = .next t) (hr : t.slot = .ready) :
    s.ksz.toNat = 32 * wordCount t.nk := by
  obtain ⟨nb, nk, hc, rfl⟩ := exec_construct_ready s t d h hr
  obtain ⟨-, hksz, -⟩ := (checkConstruct_eq_ok s nb nk).1 hc
  rwa [closeConstruct_nk, runMicro_nk, State.begin_nk, State.configure_nk]

/-- Equal raw keys of one size have equal expansions, as far as both go. -/
theorem word_eq_of_expandedTo (s t : State) (n : Nat) (hk : wordCount s.nk = wordCount t.nk)
    (hraw : ∀ j < wordCount s.nk, s.word j = t.word j) (hs : s.ExpandedTo n) (ht : t.ExpandedTo n) (i : Nat)
    (hi : i < n) : s.word i = t.word i := by
  induction i using Nat.strong_induction_on with
  | _ i ih =>
    by_cases hik : i < wordCount s.nk
    · exact hraw i hik
    · calc s.word i = s.word (i - wordCount s.nk) ^^^ s.kstepTemp i := hs i (by omega) hi
        _ = t.word (i - wordCount t.nk) ^^^ t.kstepTemp i :=
          kstepValue_congr s t i (by omega) hk fun j hj => ih j hj (by omega)
        _ = t.word i := (ht i (by omega) hi).symm

theorem State.ExpandedTo.mono {s : State} {m n : Nat} (h : s.ExpandedTo n) (hmn : m ≤ n) : s.ExpandedTo m :=
  fun i hk hi => h i hk (by omega)

theorem keyWord_congr (a b : Buf) (len j : Nat) (h : Agree len a b) (hj : 4 * j + 3 < len) :
    keyWord a j = keyWord b j := by
  rw [keyWord, keyWord, h (4 * j) (by omega), h (4 * j + 1) (by omega), h (4 * j + 2) (by omega),
    h (4 * j + 3) (by omega)]

end Sys2Proof.Machine

open Sys2Proof Sys2Proof.Machine

/-- Settles O31: both schedules begin with the same raw key and follow the same recurrence. -/
theorem scheduleDependsOnKeyAlone : Obligations.ScheduleDependsOnKeyAlone := by
  unfold Obligations.ScheduleDependsOnKeyAlone
  intro s₁ s₂ t₁ t₂ d₁ d₂ _ _ hksz hkey h₁ h₂ hr₁ hr₂ i hi₁ hi₂
  have hk₁ := constructed_ksz s₁ t₁ d₁ h₁ hr₁
  have hk₂ := constructed_ksz s₂ t₂ d₂ h₂ hr₂
  rw [← hksz] at hk₂
  have hraw : ∀ j < wordCount t₁.nk, t₁.word j = t₂.word j := fun j hj => by
    rw [constructed_keyWord s₁ t₁ d₁ h₁ hr₁ j hj, constructed_keyWord s₂ t₂ d₂ h₂ hr₂ j (by omega)]
    exact keyWord_congr s₁.keyin s₂.keyin _ j hkey (by omega)
  exact word_eq_of_expandedTo t₁ t₂ (i + 1) (by omega) hraw ((constructed_expandedTo s₁ t₁ d₁ h₁ hr₁).mono hi₁)
    ((constructed_expandedTo s₂ t₂ d₂ h₂ hr₂).mono hi₂) i (by omega)

end

