-- ==== Sys2Proof/Proofs/Sequences.lean ====
section
/-! The entries of the three sequences, by how each is put together: a beginning, one entry or one group of entries for
each index of a range, an end (`40_key_scheduler.md` R130, `41_round_datapath.md` R163, R170, R171). -/

namespace Sys2Proof.Machine

/-! The key scheduler's sequence. -/

theorem keySeq_length (nb nk : WordCount) (nr : Rounds) :
    (keySeq nb nk nr).length = scheduleWords nb nr - wordCount nk + 2 := by
  simp [keySeq]

theorem keySeq_kstep (nb nk : WordCount) (nr : Rounds) (i : Nat) (hk : wordCount nk ≤ i)
    (hw : i < scheduleWords nb nr) : (keySeq nb nk nr)[i - wordCount nk + 1]? = some (.kstep i) := by
  have hlt : i - wordCount nk < scheduleWords nb nr - wordCount nk := by omega
  rw [keySeq, List.getElem?_cons_succ, List.getElem?_append_left (by simpa using hlt), List.getElem?_map,
    List.getElem?_range' hlt, Nat.one_mul, Nat.add_sub_cancel' hk]
  rfl

theorem keySeq_last (nb nk : WordCount) (nr : Rounds) :
    (keySeq nb nk nr)[scheduleWords nb nr - wordCount nk + 1]? = some .kser := by
  rw [keySeq, List.getElem?_cons_succ, List.getElem?_append_right (by simp)]
  simp

/-! Lists made of groups of equal length. -/

theorem length_flatMap_of_length {α β : Type} (f : α → List β) (w : Nat) (hf : ∀ a, (f a).length = w) (l : List α) :
    (l.flatMap f).length = w * l.length := by
  simp [List.length_flatMap, hf, Nat.mul_comm]

/-- Between a beginning and an end, group `k` stands at its place. -/
theorem take_drop_flatMap {α β : Type} (f : α → List β) (w : Nat) (hf : ∀ a, (f a).length = w) (pre post : List β)
    (l : List α) (k : Nat) (a : α) (hk : l[k]? = some a) :
    ((pre ++ l.flatMap f ++ post).drop (pre.length + w * k)).take w = f a := by
  obtain ⟨hlt, rfl⟩ := List.getElem?_eq_some_iff.1 hk
  have hbefore : (pre ++ (l.take k).flatMap f).length = pre.length + w * k := by
    rw [List.length_append, length_flatMap_of_length f w hf, List.length_take_of_le hlt.le]
  have hsplit : l.flatMap f = (l.take k).flatMap f ++ (f l[k] ++ (l.drop (k + 1)).flatMap f) := by
    rw [← List.flatMap_cons, ← List.flatMap_append, List.cons_getElem_drop_succ, List.take_append_drop]
  rw [hsplit, ← List.append_assoc pre, List.append_assoc _ _ post, List.append_assoc (f _), List.drop_left' hbefore,
    List.take_left' (hf _)]

/-! The engine's sequences. -/

/-- A round before the last (R170). -/
def encRound (r : Nat) : List MicroOp := [.subb, .shrow, .mixc, .ark r]

/-- An inverse round that has IMIXC (R171). -/
def decRound (r : Nat) : List MicroOp := [.ark r, .imixc, .ishrow, .isubb]

/-- `EncSeq` up to its last round. -/
def encBody (nr : Rounds) : List MicroOp :=
  [.ldblk, .ark 0] ++ (List.range' 1 (roundCount nr - 1)).flatMap encRound

/-- `DecSeq` up to its last round key. -/
def decBody (nr : Rounds) : List MicroOp :=
  [.ldblk, .ark (roundCount nr), .ishrow, .isubb] ++ (List.range' 1 (roundCount nr - 1)).reverse.flatMap decRound

theorem encSeq_eq (nr : Rounds) : encSeq nr = encBody nr ++ [.subb, .shrow, .ark (roundCount nr), .stblk] := rfl

theorem decSeq_eq (nr : Rounds) : decSeq nr = decBody nr ++ [.ark 0, .stblk] := rfl

theorem encBody_length (nr : Rounds) : (encBody nr).length = 4 * roundCount nr - 2 := by
  have h10 := roundCount_bounds nr
  rw [encBody, List.length_append, length_flatMap_of_length encRound 4 fun _ => rfl, List.length_range']
  simp only [List.length_cons, List.length_nil]
  omega

theorem decBody_length (nr : Rounds) : (decBody nr).length = 4 * roundCount nr := by
  have h10 := roundCount_bounds nr
  rw [decBody, List.length_append, length_flatMap_of_length decRound 4 fun _ => rfl, List.length_reverse,
    List.length_range']
  simp only [List.length_cons, List.length_nil]
  omega

theorem encSeq_length (nr : Rounds) : (encSeq nr).length = 4 * roundCount nr + 2 := by
  have h10 := roundCount_bounds nr
  rw [encSeq_eq, List.length_append, encBody_length]
  simp only [List.length_cons, List.length_nil]
  omega

theorem decSeq_length (nr : Rounds) : (decSeq nr).length = 4 * roundCount nr + 2 := by
  rw [decSeq_eq, List.length_append, decBody_length]
  rfl

theorem encSeq_round (nr : Rounds) (r : Nat) (h1 : 1 ≤ r) (hr : r < roundCount nr) :
    ((encSeq nr).drop (4 * r - 2)).take 4 = encRound r := by
  have hk : (List.range' 1 (roundCount nr - 1))[r - 1]? = some r := by
    rw [List.getElem?_range' (by omega), Nat.one_mul, Nat.add_sub_cancel' h1]
  rw [show 4 * r - 2 = 2 + 4 * (r - 1) by omega]
  exact take_drop_flatMap encRound 4 (fun _ => rfl) [.ldblk, .ark 0] _ _ _ r hk

/-- The rounds of decryption run downwards. -/
theorem decSeq_round (nr : Rounds) (r : Nat) (h1 : 1 ≤ r) (hr : r < roundCount nr) :
    ((decSeq nr).drop (4 * (roundCount nr - r))).take 4 = decRound r := by
  have hk : (List.range' 1 (roundCount nr - 1)).reverse[roundCount nr - r - 1]? = some r := by
    rw [List.getElem?_reverse (by rw [List.length_range']; omega), List.length_range', List.getElem?_range' (by omega)]
    exact congrArg some (by omega)
  rw [show 4 * (roundCount nr - r) = 4 + 4 * (roundCount nr - r - 1) by omega]
  exact take_drop_flatMap decRound 4 (fun _ => rfl) [.ldblk, .ark (roundCount nr), .ishrow, .isubb] _ _ _ r hk

end Sys2Proof.Machine

open Sys2Proof Sys2Proof.Machine

/-- Settles O47: each sequence by its parts; what it begins with is its definition's first entries. -/
theorem sequencesHaveTheirEntries : Obligations.SequencesHaveTheirEntries := by
  unfold Obligations.SequencesHaveTheirEntries
  refine ⟨fun nb nk => ?key, fun nr => ?engine⟩
  case key =>
    exact ⟨keySeq_length nb nk _, rfl, fun i _ => keySeq_kstep nb nk _ i, keySeq_last nb nk _⟩
  case engine =>
    exact ⟨encSeq_length nr, decSeq_length nr, rfl, fun r _ => encSeq_round nr r, List.drop_left' (encBody_length nr),
      rfl, fun r _ => decSeq_round nr r, List.drop_left' (decBody_length nr)⟩

end

