-- ==== Sys2Proof/Proofs/Progress.lean ====
section
/-! From a state with the invariant a step answers a next state, but for a reserved word at the micro-operation port
(`00_scope.md` R11; `41_round_datapath.md` R176): one lemma for each place a word is fetched from. -/

namespace Sys2Proof.Machine

/-- A lookup always answers (R96, R210). -/
theorem exec_of_tableWord (s : State) (i : Instr) (a : BitVec 11) (he : encode i = .table a) :
    ∃ t, exec i s = .next t := by
  cases i with
  | lutSbox | lutIsbox | lutM2 | lutM3 | lutM9 | lutM11 | lutM13 | lutM14 => exact ⟨_, rfl⟩
  | _ => cases he

/-- A host command answers while BUSY = 0 (R220). -/
theorem exec_hostCommand_of_idle (s : State) (i : Instr) (hb : s.busy = false)
    (hi : (∃ d, i = .construct d) ∨ i = .xform ∨ i = .discard) : ∃ t, exec i s = .next t := by
  rcases hi with ⟨d, rfl⟩ | rfl | rfl
  · rcases execConstruct_cases d s with ⟨h, -⟩ | ⟨-, e, -, -, he⟩ | ⟨-, nb, nk, -, he⟩
    · cases hb.symm.trans h
    · exact ⟨_, he⟩
    · exact ⟨_, he⟩
  · rcases execXform_cases s with ⟨h, -⟩ | ⟨-, -, he⟩ | ⟨-, -, -, he⟩ | ⟨-, -, -, he⟩
    · cases hb.symm.trans h
    · exact ⟨_, he⟩
    · exact ⟨_, he⟩
    · exact ⟨_, he⟩
  · rcases execDiscard_cases s with ⟨h, -⟩ | ⟨-, -, he⟩ | ⟨-, -, he⟩
    · cases hb.symm.trans h
    · exact ⟨_, he⟩
    · exact ⟨_, he⟩

/-- Every move of the host answers while BUSY = 0 (R231). -/
theorem fetchMove_answers (s : State) (m : HostMove) (hb : s.busy = false) :
    ∃ t, (s.fetchMove m).outcome = .next t := by
  rcases fetchMove_cases s m with
    ⟨t, hm, -⟩ | ⟨cw, i, hd, hm⟩ | ⟨cw, d, -, hm⟩ | ⟨cw, -, hm⟩ | ⟨cw, hm⟩ | hm <;> rw [hm]
  · exact ⟨_, rfl⟩
  · rw [Fetched.outcome_issue_plain]
    exact exec_hostCommand_of_idle { s with cw := cw } i hb (decodeHost_isCommand cw i hd)
  all_goals exact ⟨_, rfl⟩

/-- The sequence of a running command is one of the three of the present configuration. -/
theorem sequence_eq_some (s : State) (ms : List MicroOp) (h : s.sequence? = some ms) :
    ms = keySeq s.nb s.nk s.nr ∨ ms = encSeq s.nr ∨ ms = decSeq s.nr := by
  unfold State.sequence? at h
  split at h <;> cases h
  · exact .inl rfl
  · cases s.dir
    · exact .inr (.inl rfl)
    · exact .inr (.inr rfl)

/-- The sequencer always finds its micro-operation, and the operation answers. -/
theorem step_of_running (s : State) (hp : s.portsEmpty) (hb : s.busy = true) (hr : s.host.head? ≠ some .reset)
    (hrun : s.running = true) : ∃ t, step s = .next t := by
  obtain ⟨ms, hs, hu, -⟩ := sequence_of_running s hrun
  have hmem : ms[s.upc.toNat] ∈ ms := List.getElem_mem hu
  have hexec : exec ms[s.upc.toNat].toInstr s = .next (ms[s.upc.toNat].apply s) :=
    exec_sequence_entry s _ <| by
      rcases sequence_eq_some s ms hs with rfl | rfl | rfl <;> simp only [hmem, true_or, or_true]
  rw [step_sequenced s ms _ hp hb hr hs (List.getElem?_eq_getElem hu), hexec]
  exact ⟨_, rfl⟩

/-- With no word at the internal ports a step answers. -/
theorem step_of_portsEmpty (s : State) (hi : s.Inv) (hp : s.portsEmpty) : ∃ t, step s = .next t := by
  obtain hb | hb := Bool.eq_false_or_eq_true s.busy
  · by_cases hr : s.host.head? = some .reset
    · obtain ⟨rest, hh⟩ := List.head?_eq_some_iff.1 hr
      exact ⟨_, step_move s .reset rest hp hh (.inr rfl)⟩
    · obtain ⟨-, -, hrun⟩ := (inv_iff_of_busy s hb).1 hi
      exact step_of_running s hp hb hr hrun
  · cases hh : s.host with
    | nil => exact ⟨s, step_settled s s (by rw [fetch_agent s hp.1 hp.2]; simp [State.fetchAgent, hh, hb])⟩
    | cons m rest =>
      rw [step_move s m rest hp hh (.inl hb)]
      exact fetchMove_answers { s with host := rest } m hb

end Sys2Proof.Machine

open Sys2Proof Sys2Proof.Machine

/-- Settles O4: by where the step's word is fetched from; only a word at the micro-operation port can be reserved. -/
theorem stepFromInvariantNeverFaults : Obligations.StepFromInvariantNeverFaults := by
  unfold Obligations.StepFromInvariantNeverFaults
  intro s hi
  obtain ht | ⟨a, ht⟩ := Option.eq_none_or_eq_some s.tablePort
  · obtain hm | ⟨w, hm⟩ := Option.eq_none_or_eq_some s.microPort
    · exact .inl (step_of_portsEmpty s hi ⟨ht, hm⟩)
    · obtain ⟨hr, hq⟩ | ⟨-, hn⟩ := step_microPort_cases s w ht hm
      · exact .inr ⟨ht, w, hm, hr, hq⟩
      · exact .inl hn
  · rw [step_tablePort s a ht]
    exact .inl (exec_of_tableWord _ _ a (encode_decodeTable a))

end

