-- ==== Sys2Proof/Proofs/RoundDatapath.lean ====
section
/-! The nine micro-operations of the round datapath, each by itself (`41_round_datapath.md` R150 to R162). Eight write
the used bytes of `BLK` by a function of the block before; STBLK writes those of `DOUT`. -/

namespace Sys2Proof.Machine

/-! A write of the used bytes of `BLK`. -/

theorem mapBlock_frame (s : State) (f : Nat → Byte) : s.mapBlock f = { s with blk := (s.mapBlock f).blk } := by
  simp only [State.mapBlock]

theorem bufByte_mapBlock (s : State) (f : Nat → Byte) (n : Nat) (h : n < 32) :
    bufByte (s.mapBlock f).blk n = if n < blockBytes s.nb then f n else bufByte s.blk n := by
  rw [State.mapBlock_blk, bufByte_bufFill _ f _ n h]

theorem bufByte_mapBlock_of_lt (s : State) (f : Nat → Byte) (n : Nat) (h : n < blockBytes s.nb) :
    bufByte (s.mapBlock f).blk n = f n := by
  rw [bufByte_mapBlock s f n (h.trans_le (blockBytes_le s.nb)), if_pos h]

theorem bufByte_mapBlock_of_ge (s : State) (f : Nat → Byte) (n : Nat) (h32 : n < 32) (h : blockBytes s.nb ≤ n) :
    bufByte (s.mapBlock f).blk n = bufByte s.blk n := by
  rw [bufByte_mapBlock s f n h32, if_neg (Nat.not_lt.2 h)]

/-- Row `k` of column `c` is a byte of the block. -/
theorem columnByte_lt (nb : WordCount) (c k : Nat) (hc : c < wordCount nb) (hk : k < 4) :
    4 * c + k < blockBytes nb := by
  rw [blockBytes]
  omega

/-! ARK. -/

theorem exec_ark_of_inRange (s : State) (r : Byte) (h : s.arkInRange r.toNat) :
    exec (.ark r) s = .next (s.ark r.toNat) := if_pos h

/-- The round key in words: column `c` takes `W[r*NB + c]` (R151, R62). -/
theorem ekByte_roundKey (s : State) (r c k : Nat) (hk : k < 4) :
    s.ekByte (r * blockBytes s.nb + (4 * c + k)) = byteOf k (s.word (r * wordCount s.nb + c)) := by
  rw [← ekByte_word s _ k hk, blockBytes]
  congr 1
  ring

/-! The row rotations. -/

theorem rotateRows_frame (s : State) (d : Direction) : s.rotateRows d =
    { s with blk := (s.rotateRows d).blk, tmp := (s.rotateRows d).tmp, drawn := (s.rotateRows d).drawn } := by
  simp only [State.rotateRows, State.unspecifyTmp, State.mapBlock]

theorem rotateRows_blk (s : State) (d : Direction) :
    (s.rotateRows d).blk = (s.mapBlock fun n => bufByte s.blk (rotationSource s.nb d n)).blk := by
  rw [State.rotateRows, State.unspecifyTmp_blk]

/-- The shifts of rows 0 to 3 as R156 lists them. -/
def shiftsOf (d : Direction) (nb : WordCount) : List Nat :=
  match d with
  | .encrypt =>
    match nb with
    | .four => [0, 1, 2, 3]
    | .six => [0, 1, 2, 3]
    | .eight => [0, 1, 3, 4]
  | .decrypt =>
    match nb with
    | .four => [0, 3, 2, 1]
    | .six => [0, 5, 4, 3]
    | .eight => [0, 7, 5, 4]

theorem shiftsOf_getElem? (nb : WordCount) (d : Direction) : ∀ k < 4, (shiftsOf d nb)[k]?.getD 0 = rowShift nb d k := by
  cases d <;> cases nb <;> decide

/-- A row rotation, row `k` of column `c` (R154). -/
theorem bufByte_rotateRows (s : State) (d : Direction) (c : Nat) (hc : c < wordCount s.nb) (k : Nat) (hk : k < 4) :
    bufByte (s.rotateRows d).blk (4 * c + k) =
      bufByte s.blk (4 * ((c + (shiftsOf d s.nb)[k]?.getD 0) % wordCount s.nb) + k) := by
  have hrow : (4 * c + k) % 4 = k := by omega
  have hcol : (4 * c + k) / 4 = c := by omega
  rw [rotateRows_blk, bufByte_mapBlock_of_lt s _ _ (columnByte_lt s.nb c k hc hk), rotationSource, hrow, hcol,
    shiftsOf_getElem? s.nb d k hk]

theorem bufByte_rotateRows_of_ge (s : State) (d : Direction) (n : Nat) (h32 : n < 32) (h : blockBytes s.nb ≤ n) :
    bufByte (s.rotateRows d).blk n = bufByte s.blk n := by
  rw [rotateRows_blk, bufByte_mapBlock_of_ge s _ n h32 h]

/-! The column formulas. -/

/-- The four bytes of a column and a row to the byte of that row (R159). -/
abbrev ColumnFormula := Byte → Byte → Byte → Byte → Nat → Byte

/-- The bytes of column `c` after a column formula: the formula at the bytes before (R159). -/
theorem mixedByte_column (formula : ColumnFormula) (b : Buf) (c k : Nat) (hk : k < 4) :
    mixedByte formula b (4 * c + k) = formula (bufByte b (4 * c)) (bufByte b (4 * c + 1)) (bufByte b (4 * c + 2))
      (bufByte b (4 * c + 3)) k := by
  have hrow : (4 * c + k) % 4 = k := by omega
  have hcol : (4 * c + k) / 4 = c := by omega
  rw [mixedByte, hrow, hcol]

theorem bufByte_mix (formula : ColumnFormula) (s : State) (c k : Nat)
    (hc : c < wordCount s.nb) (hk : k < 4) :
    bufByte (s.mapBlock (mixedByte formula s.blk)).blk (4 * c + k) = formula (bufByte s.blk (4 * c))
      (bufByte s.blk (4 * c + 1)) (bufByte s.blk (4 * c + 2)) (bufByte s.blk (4 * c + 3)) k := by
  rw [bufByte_mapBlock_of_lt s _ _ (columnByte_lt s.nb c k hc hk), mixedByte_column formula s.blk c k hk]

/-- The four rows of a column after a column formula. -/
theorem mix_column (formula : ColumnFormula) (s : State) (c : Nat) (hc : c < wordCount s.nb) :
    let column := formula (bufByte s.blk (4 * c)) (bufByte s.blk (4 * c + 1)) (bufByte s.blk (4 * c + 2))
      (bufByte s.blk (4 * c + 3))
    bufByte (s.mapBlock (mixedByte formula s.blk)).blk (4 * c) = column 0 ∧
    bufByte (s.mapBlock (mixedByte formula s.blk)).blk (4 * c + 1) = column 1 ∧
    bufByte (s.mapBlock (mixedByte formula s.blk)).blk (4 * c + 2) = column 2 ∧
    bufByte (s.mapBlock (mixedByte formula s.blk)).blk (4 * c + 3) = column 3 := by
  have hrow := fun k hk => bufByte_mix formula s c k hc hk
  exact ⟨hrow 0 (by decide), hrow 1 (by decide), hrow 2 (by decide), hrow 3 (by decide)⟩

/-- The forward formula by products in the field instead of the lookup memories (R160). -/
theorem forwardMix_eq_cmul (s0 s1 s2 s3 : Byte) :
    forwardMix s0 s1 s2 s3 0 = cmul 2#8 s0 ^^^ cmul 3#8 s1 ^^^ s2 ^^^ s3 ∧
    forwardMix s0 s1 s2 s3 1 = s0 ^^^ cmul 2#8 s1 ^^^ cmul 3#8 s2 ^^^ s3 ∧
    forwardMix s0 s1 s2 s3 2 = s0 ^^^ s1 ^^^ cmul 2#8 s2 ^^^ cmul 3#8 s3 ∧
    forwardMix s0 s1 s2 s3 3 = cmul 3#8 s0 ^^^ s1 ^^^ s2 ^^^ cmul 2#8 s3 := by
  simp only [forwardMix, m2_eq_cmul, m3_eq_cmul, and_self]

/-- The inverse formula by products in the field (R161). -/
theorem inverseMix_eq_cmul (s0 s1 s2 s3 : Byte) :
    inverseMix s0 s1 s2 s3 0 = cmul 14#8 s0 ^^^ cmul 11#8 s1 ^^^ cmul 13#8 s2 ^^^ cmul 9#8 s3 ∧
    inverseMix s0 s1 s2 s3 1 = cmul 9#8 s0 ^^^ cmul 14#8 s1 ^^^ cmul 11#8 s2 ^^^ cmul 13#8 s3 ∧
    inverseMix s0 s1 s2 s3 2 = cmul 13#8 s0 ^^^ cmul 9#8 s1 ^^^ cmul 14#8 s2 ^^^ cmul 11#8 s3 ∧
    inverseMix s0 s1 s2 s3 3 = cmul 11#8 s0 ^^^ cmul 13#8 s1 ^^^ cmul 9#8 s2 ^^^ cmul 14#8 s3 := by
  simp only [inverseMix, m9_eq_cmul, m11_eq_cmul, m13_eq_cmul, m14_eq_cmul, and_self]

/-! The operations without an operand. -/

theorem exec_subb (s : State) : exec .subb s = .next s.subb := rfl

theorem exec_isubb (s : State) : exec .isubb s = .next s.isubb := rfl

theorem exec_shrow (s : State) : exec .shrow s = .next (s.rotateRows .encrypt) := rfl

theorem exec_ishrow (s : State) : exec .ishrow s = .next (s.rotateRows .decrypt) := rfl

theorem exec_mixc (s : State) : exec .mixc s = .next s.mixc := rfl

theorem exec_imixc (s : State) : exec .imixc s = .next s.imixc := rfl

end Sys2Proof.Machine

open Sys2Proof Sys2Proof.Machine

/-- Settles O33: LDBLK writes the used bytes of `BLK` from `DIN`. -/
theorem ldblkCopiesInputBlock : Obligations.LdblkCopiesInputBlock := by
  unfold Obligations.LdblkCopiesInputBlock
  exact ⟨decode_encode .ldblk rfl, fun s => ⟨s.ldblk, rfl, mapBlock_frame s _, bufByte_mapBlock s _⟩⟩

/-- Settles O34: STBLK fills the used bytes of `DOUT` from `BLK`. -/
theorem stblkCopiesOutputBlock : Obligations.StblkCopiesOutputBlock := by
  unfold Obligations.StblkCopiesOutputBlock
  exact ⟨decode_encode .stblk rfl, fun s => ⟨s.stblk, rfl, by simp only [State.stblk], bufByte_bufFill _ _ _⟩⟩

/-- Settles O35: the bytes are ARK's own, and byte `k` of column `c` of a round key is a byte of one word. -/
theorem arkAddsRoundKey : Obligations.ArkAddsRoundKey := by
  unfold Obligations.ArkAddsRoundKey
  refine ⟨fun r h14 => decode_encode (.ark r) (by simp [wellFormed, h14]), fun s r hr => ?_⟩
  refine ⟨s.ark r.toNat, exec_ark_of_inRange s r hr, mapBlock_frame s _, bufByte_mapBlock s _, fun c hc k hk => ?_⟩
  rw [State.ark, bufByte_mapBlock_of_lt s _ _ (columnByte_lt s.nb c k hc hk), ekByte_roundKey s r.toNat c k hk]

/-- Settles O36: SUBB writes each used byte of `BLK` from the byte in its place. -/
theorem subbSubstitutesBytes : Obligations.SubbSubstitutesBytes := by
  unfold Obligations.SubbSubstitutesBytes
  exact ⟨decode_encode .subb rfl, fun s => ⟨s.subb, exec_subb s, mapBlock_frame s _, bufByte_mapBlock s _⟩⟩

/-- Settles O37: ISUBB writes each used byte of `BLK` from the byte in its place. -/
theorem isubbSubstitutesBytes : Obligations.IsubbSubstitutesBytes := by
  unfold Obligations.IsubbSubstitutesBytes
  exact ⟨decode_encode .isubb rfl, fun s => ⟨s.isubb, exec_isubb s, mapBlock_frame s _, bufByte_mapBlock s _⟩⟩

/-- Settles O38: the row rotation at the encrypt shifts, which are those R156 lists. -/
theorem shrowRotatesRows : Obligations.ShrowRotatesRows := by
  unfold Obligations.ShrowRotatesRows
  exact ⟨decode_encode .shrow rfl, fun s => ⟨s.rotateRows .encrypt, exec_shrow s, rotateRows_frame s _,
    bufByte_rotateRows s .encrypt, bufByte_rotateRows_of_ge s .encrypt⟩⟩

/-- Settles O39: the row rotation at the decrypt shifts, which are those R156 lists. -/
theorem ishrowRotatesRows : Obligations.IshrowRotatesRows := by
  unfold Obligations.IshrowRotatesRows
  exact ⟨decode_encode .ishrow rfl, fun s => ⟨s.rotateRows .decrypt, exec_ishrow s, rotateRows_frame s _,
    bufByte_rotateRows s .decrypt, bufByte_rotateRows_of_ge s .decrypt⟩⟩

/-- Settles O40: each row of a column by the forward formula, in products of the field. -/
theorem mixcDiffusesColumns : Obligations.MixcDiffusesColumns := by
  unfold Obligations.MixcDiffusesColumns
  refine ⟨decode_encode .mixc rfl, fun s => ⟨s.mixc, exec_mixc s, mapBlock_frame s _, fun c hc => ?_,
    bufByte_mapBlock_of_ge s _⟩⟩
  simpa only [State.mixc, forwardMix_eq_cmul] using mix_column forwardMix s c hc

/-- Settles O41: each row of a column by the inverse formula, in products of the field. -/
theorem imixcDiffusesColumns : Obligations.ImixcDiffusesColumns := by
  unfold Obligations.ImixcDiffusesColumns
  refine ⟨decode_encode .imixc rfl, fun s => ⟨s.imixc, exec_imixc s, mapBlock_frame s _, fun c hc => ?_,
    bufByte_mapBlock_of_ge s _⟩⟩
  simpa only [State.imixc, inverseMix_eq_cmul] using mix_column inverseMix s c hc

end

