-- ==== Sys2Proof/Proofs/InversePairs.lean ====
section
/-! The pairs of micro-operations that undo each other, and the two that commute (`41_round_datapath.md` R173 (a) to
(c)). A write of the used bytes of `BLK` after another is undone where its function gives back each byte of the block
before both. -/

namespace Sys2Proof.Machine

/-- Two operations, the first of which answers `t`. -/
theorem execAll_pair {i j : Instr} {s t u : State} (hi : exec i s = .next t) (hj : exec j t = .next u) :
    execAll [i, j] s = .next u := by
  simp only [execAll, hi, hj]

/-- A second write that puts back every used byte undoes the first. -/
theorem mapBlock_mapBlock_eq_self (s : State) (f g : Nat → Byte)
    (h : ∀ n < blockBytes s.nb, g n = bufByte s.blk n) : (s.mapBlock f).mapBlock g = s := by
  have hblk : ((s.mapBlock f).mapBlock g).blk = s.blk := by
    refine buf_ext _ _ fun n hn => ?_
    rw [bufByte_mapBlock _ g n hn, State.mapBlock_nb]
    split_ifs with hlt
    · exact h n hlt
    · exact bufByte_mapBlock_of_ge s f n hn (Nat.le_of_not_lt hlt)
  rw [mapBlock_frame (s.mapBlock f) g, hblk, mapBlock_frame s f]

/-! ARK. -/

theorem ark_ark (s : State) (r : Nat) : (s.ark r).ark r = s := by
  refine mapBlock_mapBlock_eq_self s _ _ fun n hn => ?_
  rw [State.ark, State.mapBlock_nb, ekByte_congr _ s (s.mapBlock_w _), bufByte_mapBlock_of_lt s _ n hn,
    BitVec.xor_assoc, BitVec.xor_self, BitVec.xor_zero]

/-! The substitutions. -/

/-- `ISBOX` undoes `SBOX`, the other of R199's two equations. -/
theorem isbox_sbox : ∀ a : Byte, tabRead .isbox (tabRead .sbox a) = a := by decide +kernel

/-- A lookup of every used byte of `BLK`: SUBB with `SBOX`, ISUBB with `ISBOX` (R152, R153). -/
def State.substitute (s : State) (t : Table) : State := s.mapBlock fun n => tabRead t (bufByte s.blk n)

theorem subb_eq_substitute (s : State) : s.subb = s.substitute .sbox := rfl

theorem isubb_eq_substitute (s : State) : s.isubb = s.substitute .isbox := rfl

theorem substitute_substitute (s : State) (t t' : Table) (h : ∀ a, tabRead t' (tabRead t a) = a) :
    (s.substitute t).substitute t' = s := by
  refine mapBlock_mapBlock_eq_self s _ _ fun n hn => ?_
  rw [State.substitute, bufByte_mapBlock_of_lt s _ n hn, h]

theorem isubb_subb (s : State) : s.subb.isubb = s := by
  rw [isubb_eq_substitute, subb_eq_substitute, substitute_substitute s .sbox .isbox isbox_sbox]

theorem subb_isubb (s : State) : s.isubb.subb = s := by
  rw [subb_eq_substitute, isubb_eq_substitute, substitute_substitute s .isbox .sbox sbox_isbox]

/-! The row rotations. -/

/-- The shifts of a row in the two directions go once round it (R156). -/
theorem rowShift_add_rowShift (nb : WordCount) {d d' : Direction} (hd : d ≠ d') :
    ∀ k < 4, wordCount nb ∣ rowShift nb d k + rowShift nb d' k := by
  cases d with
  | encrypt =>
    cases d' with
    | encrypt => exact absurd rfl hd
    | decrypt => cases nb <;> decide
  | decrypt =>
    cases d' with
    | encrypt => cases nb <;> decide
    | decrypt => exact absurd rfl hd

theorem rotationSource_mod (nb : WordCount) (d : Direction) (n : Nat) : rotationSource nb d n % 4 = n % 4 := by
  rw [rotationSource, Nat.mul_add_mod, Nat.mod_mod]

theorem rotationSource_div (nb : WordCount) (d : Direction) (n : Nat) :
    rotationSource nb d n / 4 = (n / 4 + rowShift nb d (n % 4)) % wordCount nb := by
  rw [rotationSource]
  omega

/-- The source of the source, in the other direction, is the place itself. -/
theorem rotationSource_rotationSource (nb : WordCount) {d d' : Direction} (hd : d ≠ d') (n : Nat)
    (hn : n < blockBytes nb) : rotationSource nb d (rotationSource nb d' n) = n := by
  obtain ⟨q, hq⟩ := rowShift_add_rowShift nb hd.symm (n % 4) (Nat.mod_lt n (by decide))
  have hcol : n / 4 < wordCount nb := by rw [blockBytes] at hn; omega
  have hround : ((n / 4 + rowShift nb d' (n % 4)) % wordCount nb + rowShift nb d (n % 4)) % wordCount nb = n / 4 := by
    rw [Nat.mod_add_mod, Nat.add_assoc, hq, Nat.add_mul_mod_self_left, Nat.mod_eq_of_lt hcol]
  rw [rotationSource, rotationSource_div, rotationSource_mod, hround, Nat.div_add_mod]

theorem bufByte_rotateRows_of_lt (s : State) (d : Direction) (n : Nat) (hn : n < blockBytes s.nb) :
    bufByte (s.rotateRows d).blk n = bufByte s.blk (rotationSource s.nb d n) := by
  rw [rotateRows_blk, bufByte_mapBlock_of_lt s _ n hn]

theorem rotateRows_nb (s : State) (d : Direction) : (s.rotateRows d).nb = s.nb := by rw [rotateRows_frame]

theorem rotateRows_rotateRows (s : State) {d d' : Direction} (hd : d ≠ d') :
    ((s.rotateRows d).rotateRows d').blk = s.blk := by
  refine buf_ext _ _ fun n hn => ?_
  by_cases hlt : n < blockBytes s.nb
  · rw [bufByte_rotateRows_of_lt _ d' n (by rwa [rotateRows_nb]), rotateRows_nb,
      bufByte_rotateRows_of_lt s d _ (rotationSource_lt s.nb d' n), rotationSource_rotationSource s.nb hd n hlt]
  · rw [bufByte_rotateRows_of_ge _ d' n hn (by rw [rotateRows_nb]; omega),
      bufByte_rotateRows_of_ge s d n hn (by omega)]

/-! The column formulas. Each multiplies by a constant in the field, which is additive, so that the first row of a
column after both formulas is a sum of what each of the four bytes contributes; the other rows are the first row of the
column turned. -/

/-- The lookup memories of the products. -/
def isProductTable : Table → Bool
  | .sbox | .isbox => false
  | .m2 | .m3 | .m9 | .m11 | .m13 | .m14 => true

theorem tabRead_xor (t : Table) (ht : isProductTable t = true) (a b : Byte) :
    tabRead t (a ^^^ b) = tabRead t a ^^^ tabRead t b := by
  have hm := multiplication_tables_from_m2
  cases t with
  | sbox | isbox => cases ht
  | m2 => simp only [m2_eq_xtime, xtime_xor]
  | m3 | m9 | m11 | m13 | m14 =>
    simp only [hm, m2_eq_xtime, xtime_xor]
    ac_rfl

/-- A column formula whose later rows are its first row at the column turned (R160, R161). -/
def TurnsRows (f : ColumnFormula) : Prop :=
  ∀ s0 s1 s2 s3, f s0 s1 s2 s3 1 = f s1 s2 s3 s0 0 ∧ f s0 s1 s2 s3 2 = f s2 s3 s0 s1 0 ∧
    f s0 s1 s2 s3 3 = f s3 s0 s1 s2 0

theorem forwardMix_turnsRows : TurnsRows forwardMix := by
  intro s0 s1 s2 s3
  refine ⟨?_, ?_, ?_⟩ <;> simp only [forwardMix] <;> ac_rfl

theorem inverseMix_turnsRows : TurnsRows inverseMix := by
  intro s0 s1 s2 s3
  refine ⟨?_, ?_, ?_⟩ <;> simp only [inverseMix] <;> ac_rfl

/-- Sixteen summands in four groups, grouped the other way. -/
theorem xor_regroup (a0 a1 a2 a3 b0 b1 b2 b3 c0 c1 c2 c3 d0 d1 d2 d3 : Byte) :
    (a0 ^^^ a1 ^^^ a2 ^^^ a3) ^^^ (b0 ^^^ b1 ^^^ b2 ^^^ b3) ^^^ (c0 ^^^ c1 ^^^ c2 ^^^ c3) ^^^
        (d0 ^^^ d1 ^^^ d2 ^^^ d3) =
      (a0 ^^^ b0 ^^^ c0 ^^^ d0) ^^^ (a1 ^^^ b1 ^^^ c1 ^^^ d1) ^^^ (a2 ^^^ b2 ^^^ c2 ^^^ d2) ^^^
        (a3 ^^^ b3 ^^^ c3 ^^^ d3) := by
  ac_rfl

/-- What a byte contributes to the first row after MIXC and IMIXC, by the row it stands in. -/
theorem inverse_forward_contributions : ∀ a : Byte,
    tabRead .m14 (tabRead .m2 a) ^^^ tabRead .m11 a ^^^ tabRead .m13 a ^^^ tabRead .m9 (tabRead .m3 a) = a ∧
    tabRead .m14 (tabRead .m3 a) ^^^ tabRead .m11 (tabRead .m2 a) ^^^ tabRead .m13 a ^^^ tabRead .m9 a = 0#8 ∧
    tabRead .m14 a ^^^ tabRead .m11 (tabRead .m3 a) ^^^ tabRead .m13 (tabRead .m2 a) ^^^ tabRead .m9 a = 0#8 ∧
    tabRead .m14 a ^^^ tabRead .m11 a ^^^ tabRead .m13 (tabRead .m3 a) ^^^ tabRead .m9 (tabRead .m2 a) = 0#8 := by
  decide +kernel

/-- What a byte contributes to the first row after IMIXC and MIXC, by the row it stands in. -/
theorem forward_inverse_contributions : ∀ a : Byte,
    tabRead .m2 (tabRead .m14 a) ^^^ tabRead .m3 (tabRead .m9 a) ^^^ tabRead .m13 a ^^^ tabRead .m11 a = a ∧
    tabRead .m2 (tabRead .m11 a) ^^^ tabRead .m3 (tabRead .m14 a) ^^^ tabRead .m9 a ^^^ tabRead .m13 a = 0#8 ∧
    tabRead .m2 (tabRead .m13 a) ^^^ tabRead .m3 (tabRead .m11 a) ^^^ tabRead .m14 a ^^^ tabRead .m9 a = 0#8 ∧
    tabRead .m2 (tabRead .m9 a) ^^^ tabRead .m3 (tabRead .m13 a) ^^^ tabRead .m11 a ^^^ tabRead .m14 a = 0#8 := by
  decide +kernel

/-- `g` gives back, from the column that `f` makes, the first byte of the column before. -/
def UndoesFirstRow (f g : ColumnFormula) : Prop :=
  ∀ s0 s1 s2 s3, g (f s0 s1 s2 s3 0) (f s0 s1 s2 s3 1) (f s0 s1 s2 s3 2) (f s0 s1 s2 s3 3) 0 = s0

theorem inverseMix_undoes_forwardMix : UndoesFirstRow forwardMix inverseMix := by
  intro s0 s1 s2 s3
  simp (disch := decide) only [inverseMix, forwardMix, tabRead_xor]
  rw [xor_regroup]
  simp only [inverse_forward_contributions, BitVec.xor_zero]

theorem forwardMix_undoes_inverseMix : UndoesFirstRow inverseMix forwardMix := by
  intro s0 s1 s2 s3
  simp (disch := decide) only [inverseMix, forwardMix, tabRead_xor]
  rw [xor_regroup]
  simp only [forward_inverse_contributions, BitVec.xor_zero]

/-- With the first row, every row comes back. -/
theorem UndoesFirstRow.column {f g : ColumnFormula} (h : UndoesFirstRow f g)
    (hf : TurnsRows f) (hg : TurnsRows g) (s0 s1 s2 s3 : Byte) :
    let column := g (f s0 s1 s2 s3 0) (f s0 s1 s2 s3 1) (f s0 s1 s2 s3 2) (f s0 s1 s2 s3 3)
    column 0 = s0 ∧ column 1 = s1 ∧ column 2 = s2 ∧ column 3 = s3 := by
  have h0 := h s0 s1 s2 s3
  have h1 := h s1 s2 s3 s0
  have h2 := h s2 s3 s0 s1
  have h3 := h s3 s0 s1 s2
  simp only [hf _ _ _ _] at h0 h1 h2 h3 ⊢
  simp only [hg _ _ _ _, h0, h1, h2, h3, and_self]

theorem mix_mix {f g : ColumnFormula} (h : UndoesFirstRow f g) (hf : TurnsRows f)
    (hg : TurnsRows g) (s : State) :
    (s.mapBlock (mixedByte f s.blk)).mapBlock (mixedByte g (s.mapBlock (mixedByte f s.blk)).blk) = s := by
  refine mapBlock_mapBlock_eq_self s _ _ fun n hn => ?_
  have hc : n / 4 < wordCount s.nb := by rw [blockBytes] at hn; omega
  have hk : n % 4 < 4 := Nat.mod_lt n (by decide)
  obtain ⟨m0, m1, m2, m3⟩ := mix_column f s (n / 4) hc
  obtain ⟨r0, r1, r2, r3⟩ := h.column hf hg (bufByte s.blk (4 * (n / 4))) (bufByte s.blk (4 * (n / 4) + 1))
    (bufByte s.blk (4 * (n / 4) + 2)) (bufByte s.blk (4 * (n / 4) + 3))
  rw [← Nat.div_add_mod n 4, mixedByte_column g _ _ _ hk, m0, m1, m2, m3]
  match n % 4, hk with
  | 0, _ => exact r0
  | 1, _ => exact r1
  | 2, _ => exact r2
  | 3, _ => exact r3

theorem imixc_mixc (s : State) : s.mixc.imixc = s :=
  mix_mix inverseMix_undoes_forwardMix forwardMix_turnsRows inverseMix_turnsRows s

theorem mixc_imixc (s : State) : s.imixc.mixc = s :=
  mix_mix forwardMix_undoes_inverseMix inverseMix_turnsRows forwardMix_turnsRows s

/-! A substitution and a row rotation. -/

theorem substitute_rotateRows_blk (s : State) (t : Table) (d : Direction) :
    ((s.substitute t).rotateRows d).blk = ((s.rotateRows d).substitute t).blk := by
  refine buf_ext _ _ fun n hn => ?_
  rw [State.substitute, State.substitute]
  by_cases hlt : n < blockBytes s.nb
  · rw [bufByte_rotateRows_of_lt _ d n (by rwa [State.mapBlock_nb]), State.mapBlock_nb,
      bufByte_mapBlock_of_lt s _ _ (rotationSource_lt s.nb d n),
      bufByte_mapBlock_of_lt _ _ n (by rwa [rotateRows_nb]), bufByte_rotateRows_of_lt s d n hlt]
  · rw [bufByte_rotateRows_of_ge _ d n hn (by rw [State.mapBlock_nb]; omega),
      bufByte_mapBlock_of_ge s _ n hn (by omega),
      bufByte_mapBlock_of_ge _ _ n hn (by rw [rotateRows_nb]; omega), bufByte_rotateRows_of_ge s d n hn (by omega)]

/-- `t` is `s` but for `BLK`, `TMP` and the count of free values drawn. -/
def SameButScratch (s t : State) : Prop := t = { s with blk := t.blk, tmp := t.tmp, drawn := t.drawn }

theorem substitute_rotateRows_frame (s : State) (t : Table) (d : Direction) :
    SameButScratch s ((s.substitute t).rotateRows d) := by
  simp only [SameButScratch, State.substitute, State.rotateRows, State.unspecifyTmp, State.mapBlock]

theorem rotateRows_substitute_frame (s : State) (t : Table) (d : Direction) :
    SameButScratch s ((s.rotateRows d).substitute t) := by
  simp only [SameButScratch, State.substitute, State.rotateRows, State.unspecifyTmp, State.mapBlock]

/-- The two orders of an operation that substitutes and one that rotates (R173 (a)). -/
theorem substitution_rotation_commute (i j : Instr) (tab : Table) (d : Direction)
    (hi : ∀ s, exec i s = .next (s.substitute tab)) (hj : ∀ s, exec j s = .next (s.rotateRows d)) (s : State) :
    ∃ t u, execAll [i, j] s = .next t ∧ execAll [j, i] s = .next u ∧ t.blk = u.blk ∧ SameButScratch s t ∧
      SameButScratch s u :=
  ⟨_, _, execAll_pair (hi s) (hj _), execAll_pair (hj s) (hi _), substitute_rotateRows_blk s tab d,
    substitute_rotateRows_frame s tab d, rotateRows_substitute_frame s tab d⟩

end Sys2Proof.Machine

open Sys2Proof Sys2Proof.Machine

/-- Settles O42: a round key added twice cancels, and the first ARK keeps `NR`, so that the second is in range. -/
theorem arkIsInvolution : Obligations.ArkIsInvolution := by
  unfold Obligations.ArkIsInvolution
  intro s r hr
  have hr' : (s.ark r.toNat).arkInRange r.toNat := by rwa [State.arkInRange, State.ark, State.mapBlock_nr]
  refine execAll_pair (exec_ark_of_inRange s r hr) ?_
  rw [exec_ark_of_inRange _ r hr', ark_ark]

/-- Settles O43: the two listings undo each other, byte by byte. -/
theorem isubbInvertsSubb : Obligations.IsubbInvertsSubb := by
  unfold Obligations.IsubbInvertsSubb
  exact fun s => ⟨execAll_pair (exec_subb s) (by rw [exec_isubb, isubb_subb]),
    execAll_pair (exec_isubb s) (by rw [exec_subb, subb_isubb])⟩

/-- Settles O44: the shifts of a row in the two directions add up to a whole turn. -/
theorem ishrowInvertsShrow : Obligations.IshrowInvertsShrow := by
  unfold Obligations.IshrowInvertsShrow
  exact fun s => ⟨⟨_, execAll_pair (exec_shrow s) (exec_ishrow _), rotateRows_rotateRows s nofun⟩,
    ⟨_, execAll_pair (exec_ishrow s) (exec_shrow _), rotateRows_rotateRows s nofun⟩⟩

/-- Settles O45: the two column formulas undo each other, column by column. -/
theorem imixcInvertsMixc : Obligations.ImixcInvertsMixc := by
  unfold Obligations.ImixcInvertsMixc
  exact fun s => ⟨execAll_pair (exec_mixc s) (by rw [exec_imixc, imixc_mixc]),
    execAll_pair (exec_imixc s) (by rw [exec_mixc, mixc_imixc])⟩

/-- Settles O46: the byte substituted and moved is the byte moved and substituted. -/
theorem substitutionCommutesWithRotation : Obligations.SubstitutionCommutesWithRotation := by
  unfold Obligations.SubstitutionCommutesWithRotation
  exact fun s => ⟨substitution_rotation_commute .subb .shrow .sbox .encrypt exec_subb exec_shrow s,
    substitution_rotation_commute .isubb .ishrow .isbox .decrypt exec_isubb exec_ishrow s⟩

end

