-- ==== Sys2Proof/Proofs/CipherInverse.lean ====
section
/-! The two directions of the cipher undo each other (`41_round_datapath.md` R171 to R173). The rounds of one direction
are those of the other read backwards, each micro-operation replaced by the one that undoes it, so that the working
block comes back; the copies in and out carry it over from one machine to the other. -/

namespace Sys2Proof.Machine

/-! The rounds of a direction. -/

@[simp] theorem roundsOf_between (a b : MicroOp) (ms : List MicroOp) : roundsOf (a :: (ms ++ [b])) = ms := by
  simp [roundsOf]

/-- Each direction's rounds mirror the other's (R171). -/
theorem roundsOf_xformSeq_mirror (nr : Rounds) {d d' : Direction} (hd : d ≠ d') :
    roundsOf (xformSeq d' nr) = (roundsOf (xformSeq d nr)).reverse.map MicroOp.inverse := by
  have hdec : roundsOf (decSeq nr) = (roundsOf (encSeq nr)).reverse.map MicroOp.inverse := by
    rw [decSeq_mirrors_encSeq, roundsOf_between]
  have henc : roundsOf (encSeq nr) = (roundsOf (decSeq nr)).reverse.map MicroOp.inverse := by
    rw [hdec]
    simp [Function.comp_def]
  cases d with
  | encrypt =>
    cases d' with
    | encrypt => exact absurd rfl hd
    | decrypt => exact hdec
  | decrypt =>
    cases d' with
    | encrypt => exact henc
    | decrypt => exact absurd rfl hd

/-- A micro-operation that keeps the schedule and whose effect on `BLK` depends on `BLK`, the size and the schedule
alone: none of the key scheduler's writes, and not the copy in. -/
structure MicroOp.OnBlock (m : MicroOp) : Prop where
  keepsInstance : writesInstance m.toInstr = false
  notCopyIn : m ≠ .ldblk

theorem roundsOf_xformSeq_onBlock (d : Direction) (nr : Rounds) : ∀ m ∈ roundsOf (xformSeq d nr), m.OnBlock := by
  have h : ∀ m ∈ roundsOf (xformSeq d nr), writesInstance m.toInstr = false ∧ m ≠ .ldblk := by
    cases d <;> cases nr <;> decide
  exact fun m hm => ⟨(h m hm).1, (h m hm).2⟩

theorem MicroOp.OnBlock.inverse {m : MicroOp} (hm : m.OnBlock) : m.inverse.OnBlock := by
  obtain ⟨hw, hl⟩ := hm
  cases m with
  | kload | kstep => cases hw
  | ldblk => exact absurd rfl hl
  | _ => exact ⟨rfl, nofun⟩

/-- What such a micro-operation leaves in `BLK` is the same in two machines of one size, schedule and working block. -/
theorem apply_blk_congr {m : MicroOp} (hm : m.OnBlock) (s t : State) (hnb : t.nb = s.nb) (hw : t.w = s.w)
    (hblk : t.blk = s.blk) : (m.apply t).blk = (m.apply s).blk := by
  obtain ⟨hi, hl⟩ := hm
  cases m with
  | kload | kstep => cases hi
  | ldblk => exact absurd rfl hl
  | kser => exact hblk
  | stblk => simpa only [MicroOp.apply, State.stblk_blk] using hblk
  | shrow | ishrow => simp only [MicroOp.apply, rotateRows_blk, State.mapBlock_blk, hnb, hblk]
  | ark r => simp only [MicroOp.apply, State.ark, State.mapBlock_blk, hnb, hblk, ekByte_congr t s hw]
  | subb | isubb | mixc | imixc =>
    simp only [MicroOp.apply, State.subb, State.isubb, State.mixc, State.imixc, State.mapBlock_blk, hnb, hblk]

/-- Such a micro-operation is undone, in `BLK`, by its inverse (R173 (b), (c)). -/
theorem apply_inverse_apply_blk {m : MicroOp} (hm : m.OnBlock) (s : State) :
    (m.inverse.apply (m.apply s)).blk = s.blk := by
  obtain ⟨hi, hl⟩ := hm
  cases m with
  | kload | kstep => cases hi
  | ldblk => exact absurd rfl hl
  | kser => rfl
  | stblk => exact (State.stblk_blk _).trans s.stblk_blk
  | ark r => exact congrArg State.blk (ark_ark s r)
  | subb => exact congrArg State.blk (isubb_subb s)
  | isubb => exact congrArg State.blk (subb_isubb s)
  | shrow => exact rotateRows_rotateRows s nofun
  | ishrow => exact rotateRows_rotateRows s nofun
  | mixc => exact congrArg State.blk (imixc_mixc s)
  | imixc => exact congrArg State.blk (mixc_imixc s)

theorem runMicro_w (ms : List MicroOp) (s : State) (h : ∀ m ∈ ms, m.OnBlock) : (s.runMicro ms).w = s.w :=
  (runMicro_keepsUnwritten .xform ms s fun m hm => ⟨fun _ => (h m hm).keepsInstance, nofun, nofun, nofun⟩).w rfl

/-- A machine `t` that holds what `ms` made of the working block of `s` gets that block back from the inverses, last
first. -/
theorem runMicro_inverse_blk (ms : List MicroOp) (hms : ∀ m ∈ ms, m.OnBlock) (s t : State) (hnb : t.nb = s.nb)
    (hw : t.w = s.w) (hblk : t.blk = (s.runMicro ms).blk) :
    (t.runMicro (ms.reverse.map MicroOp.inverse)).blk = s.blk := by
  induction ms generalizing s with
  | nil => exact hblk
  | cons m ms ih =>
    rw [List.forall_mem_cons] at hms
    obtain ⟨hm, hms⟩ := hms
    have hkeep := apply_tick_keepsCipherInput m s hm.keepsInstance
    have hback := ih hms (m.apply s).tick (hnb.trans hkeep.nb.symm) (hw.trans hkeep.w.symm) hblk
    have hwback : (t.runMicro (ms.reverse.map MicroOp.inverse)).w = t.w := by
      refine runMicro_w _ t fun m' hm' => ?_
      obtain ⟨m'', hm'', rfl⟩ := List.mem_map.1 hm'
      exact (hms m'' (List.mem_reverse.1 hm'')).inverse
    rw [List.reverse_cons, List.map_append, runMicro_append]
    calc ((t.runMicro (ms.reverse.map MicroOp.inverse)).runMicro [m.inverse]).blk
        = (m.inverse.apply (t.runMicro (ms.reverse.map MicroOp.inverse))).blk := State.tick_blk _
      _ = (m.inverse.apply (m.apply s).tick).blk := apply_blk_congr hm.inverse _ _
          ((runMicro_nb _ t).trans (hnb.trans hkeep.nb.symm)) (hwback.trans (hw.trans hkeep.w.symm)) hback
      _ = (m.inverse.apply (m.apply s)).blk := apply_blk_congr hm.inverse _ _ (State.tick_nb _) (State.tick_w _)
          (State.tick_blk _)
      _ = s.blk := apply_inverse_apply_blk hm s

/-! The copies in and out. -/

theorem Agree.symm {len : Nat} {a b : Buf} (h : Agree len a b) : Agree len b a := fun n hn => (h n hn).symm

theorem Agree.trans {len : Nat} {a b c : Buf} (h : Agree len a b) (g : Agree len b c) : Agree len a c :=
  fun n hn => (h n hn).trans (g n hn)

theorem ldblk_agree (s : State) : Agree (blockBytes s.nb) s.ldblk.blk s.din := bufByte_mapBlock_of_lt s _

theorem stblk_agree_blk (s : State) : Agree (blockBytes s.nb) s.stblk.dout s.blk := fun n hn => by
  rw [State.stblk_dout, bufByte_bufFill _ _ _ n (hn.trans_le (blockBytes_le s.nb)), if_pos hn]

/-- XFORM's sequence copies in, runs its rounds and copies out. -/
theorem runMicro_xformSeq_agree_rounds (d : Direction) (nr : Rounds) (s : State) : Agree (blockBytes s.nb)
    (s.runMicro (xformSeq d nr)).dout (s.ldblk.tick.runMicro (roundsOf (xformSeq d nr))).blk := by
  have hout := stblk_agree_blk (s.ldblk.tick.runMicro (roundsOf (xformSeq d nr)))
  rw [runMicro_nb, State.tick_nb, State.ldblk, State.mapBlock_nb] at hout
  rw [xformSeq_rounds d nr, runMicro_copyInOut, roundsOf_between]
  exact hout

/-- `s` with a block in `BLK` and in `DIN`. -/
def State.holding (s : State) (block : Buf) : State := { s with blk := block, din := block }

@[simp] theorem State.holding_nb (s : State) (block : Buf) : (s.holding block).nb = s.nb := rfl

@[simp] theorem State.holding_nr (s : State) (block : Buf) : (s.holding block).nr = s.nr := rfl

@[simp] theorem State.holding_w (s : State) (block : Buf) : (s.holding block).w = s.w := rfl

/-- The copy in leaves such a machine's `BLK` as it was, the bytes above the block too. -/
theorem holding_ldblk_blk (s : State) (block : Buf) : (s.holding block).ldblk.blk = block := by
  refine buf_ext _ _ fun n hn => ?_
  rw [State.ldblk, bufByte_mapBlock _ _ n hn]
  exact ite_self _

/-- The working block after the copy in and the rounds of a direction (R170, R171). -/
def State.afterRounds (s : State) (d : Direction) : Buf :=
  (s.ldblk.tick.runMicro (roundsOf (xformSeq d s.nr))).blk

/-- XFORM's sequence copies in, runs its rounds and copies out. -/
theorem runMicro_xformSeq_agree_afterRounds (d : Direction) (s : State) :
    Agree (blockBytes s.nb) (s.runMicro (xformSeq d s.nr)).dout (s.afterRounds d) := by
  have hout := stblk_agree_blk (s.ldblk.tick.runMicro (roundsOf (xformSeq d s.nr)))
  rw [runMicro_nb, State.tick_nb, State.ldblk, State.mapBlock_nb] at hout
  rw [xformSeq_rounds d s.nr, runMicro_copyInOut]
  exact hout

/-- The rounds of the other direction, from what the rounds of one left, give the input block back. -/
theorem afterRounds_holding_afterRounds {d d' : Direction} (hd : d ≠ d') (s : State) :
    (s.holding (s.afterRounds d)).afterRounds d' = s.ldblk.blk := by
  rw [State.afterRounds, State.holding_nr, roundsOf_xformSeq_mirror s.nr hd, ← State.tick_blk s.ldblk]
  refine runMicro_inverse_blk _ (roundsOf_xformSeq_onBlock d s.nr) s.ldblk.tick _ ?_ ?_ ?_
  · simp [State.ldblk]
  · simp [State.ldblk]
  · rw [State.tick_blk, holding_ldblk_blk, State.afterRounds]

/-- The sequence of the other direction, on a machine of the same size and schedule that is given the output block as
its input block, leaves the first machine's input block in `DOUT` (R173 (d)). -/
theorem runMicro_xformSeq_inverse {d d' : Direction} (hd : d ≠ d') (s u : State) (hnb : u.nb = s.nb)
    (hnr : u.nr = s.nr) (hw : ∀ i < scheduleWords s.nb s.nr, u.word i = s.word i)
    (hin : Agree (blockBytes s.nb) u.din (s.runMicro (xformSeq d s.nr)).dout) :
    Agree (blockBytes s.nb) (u.runMicro (xformSeq d' s.nr)).dout s.din := by
  have hsame : SameCipherInput u (s.holding (s.afterRounds d)) := by
    refine ⟨hnb, hnr, fun n hn => ?_, ?_⟩
    · rw [hnb, hnr] at hn
      rw [ekByte_congr _ s (s.holding_w _), State.ekByte, State.ekByte, hw (n / 4) (by omega)]
    · rw [hnb]
      exact hin.trans (runMicro_xformSeq_agree_afterRounds d s)
  have hlock := runMicro_xformSeq_agree d' u _ hsame
  have hback := runMicro_xformSeq_agree_afterRounds d' (s.holding (s.afterRounds d))
  rw [hnb, hnr] at hlock
  rw [afterRounds_holding_afterRounds hd] at hback
  exact (hlock.trans hback).trans (ldblk_agree s)

/-! XFORM. -/

/-- XFORM on a READY slot with a right length answers, with its sequence's output block (R225). -/
theorem exec_xform_of_ready (s : State) (hb : s.busy = false) (hs : s.slot = .ready)
    (hl : s.dlen.toNat = 4 * wordCount s.nb) :
    ∃ t, exec .xform s = .next t ∧
      Agree (blockBytes s.nb) t.dout (s.begin.runMicro (xformSeq s.dir s.nr)).dout := by
  rcases execXform_cases s with ⟨h, -⟩ | ⟨-, h, -⟩ | ⟨-, -, h, -⟩ | ⟨-, -, -, he⟩
  · cases hb.symm.trans h
  · cases hs.symm.trans h
  · exact absurd hl h
  · refine ⟨_, he, fun n hn => bufByte_closeXform_dout _ n ?_⟩
    rwa [runMicro_nb, State.begin_nb]

/-! The function of R172. -/

theorem blockOf_congr (nb : WordCount) (a b : Buf) (h : Agree (blockBytes nb) a b) : blockOf nb a = blockOf nb b :=
  List.map_congr_left fun n hn => h n (List.mem_range.1 hn)

/-- A block taken from a buffer and written into another. -/
theorem bufLoad_blockOf_agree (nb : WordCount) (a b : Buf) :
    Agree (blockBytes nb) (bufLoad (blockOf nb a) b) a := by
  intro n hn
  rw [bufByte_bufLoad _ b n (hn.trans_le (blockBytes_le nb))]
  simp [blockOf, hn]

/-- A block written into a buffer and taken from it. -/
theorem blockOf_bufLoad (nb : WordCount) (l : List Byte) (b : Buf) (hl : l.length = blockBytes nb) :
    blockOf nb (bufLoad l b) = l := by
  have h32 := blockBytes_le nb
  refine List.ext_getElem (by rw [blockOf_length, hl]) fun n hn hn' => ?_
  simp [blockOf, bufByte_bufLoad l b n (by omega : n < 32), List.getElem?_eq_getElem hn']

theorem xformBlock_length (d : Direction) (nb : WordCount) (nr : Rounds) (w : Schedule) (b : List Byte) :
    (xformBlock d nb nr w b).length = 4 * wordCount nb := blockOf_length nb _

/-- `Xform` of one direction undoes that of the other (R173 (d)). -/
theorem xformBlock_xformBlock {d d' : Direction} (hd : d ≠ d') (nb : WordCount) (nr : Rounds) (w : Schedule)
    (b : List Byte) (hb : b.length = 4 * wordCount nb) : xformBlock d' nb nr w (xformBlock d nb nr w b) = b := by
  have hin : Agree (blockBytes nb) (cipherStart nb nr w (xformBlock d nb nr w b)).din
      ((cipherStart nb nr w b).runMicro (xformSeq d nr)).dout := by
    rw [cipherStart_din, xformBlock]
    exact bufLoad_blockOf_agree nb _ _
  have hw : (cipherStart nb nr w (xformBlock d nb nr w b)).w = (cipherStart nb nr w b).w := by
    rw [cipherStart_w, cipherStart_w]
  have hback := runMicro_xformSeq_inverse hd (cipherStart nb nr w b) (cipherStart nb nr w (xformBlock d nb nr w b))
    (cipherStart_nb nb nr w _) (cipherStart_nr nb nr w _) (fun i _ => word_congr _ _ hw i) hin
  rw [cipherStart_nb, cipherStart_nr, cipherStart_din] at hback
  exact (blockOf_congr nb _ _ hback).trans (blockOf_bufLoad nb b _ hb)

/-- So it is a permutation of the blocks (R173 (e)). -/
theorem xformBlock_permutation {d d' : Direction} (hd : d ≠ d') (nb : WordCount) (nr : Rounds) (w : Schedule) :
    (∀ b, (xformBlock d nb nr w b).length = 4 * wordCount nb) ∧
    (∀ a b : List Byte, a.length = 4 * wordCount nb → b.length = 4 * wordCount nb →
      xformBlock d nb nr w a = xformBlock d nb nr w b → a = b) ∧
    ∀ c : List Byte, c.length = 4 * wordCount nb → ∃ b, b.length = 4 * wordCount nb ∧ xformBlock d nb nr w b = c := by
  refine ⟨xformBlock_length d nb nr w, fun a b ha hb h => ?_, fun c hc => ?_⟩
  · rw [← xformBlock_xformBlock hd nb nr w a ha, h, xformBlock_xformBlock hd nb nr w b hb]
  · exact ⟨_, xformBlock_length d' nb nr w c, xformBlock_xformBlock hd.symm nb nr w c hc⟩

/-- XFORM computes the function (R172). -/
theorem exec_xform_eq_xformBlock (s t : State)
    (h : Agree (blockBytes s.nb) t.dout (s.begin.runMicro (xformSeq s.dir s.nr)).dout) :
    blockOf s.nb t.dout = xformBlock s.dir s.nb s.nr s.w (blockOf s.nb s.din) := by
  have hsame : SameCipherInput s.begin (cipherStart s.nb s.nr s.w (blockOf s.nb s.din)) :=
    ⟨rfl, rfl, fun n _ => ekByte_congr _ _ rfl n, (bufLoad_blockOf_agree s.nb s.din _).symm⟩
  exact blockOf_congr s.nb _ _ (h.trans (runMicro_xformSeq_agree s.dir s.begin _ hsame))

end Sys2Proof.Machine

open Sys2Proof Sys2Proof.Machine

/-- Settles O49: both machines run the sequence of their direction between a copy in and a copy out, and the second's
input block is the first's output block. -/
theorem xformRoundTrip : Obligations.XformRoundTrip := by
  unfold Obligations.XformRoundTrip
  intro s hb hs hl
  obtain ⟨t, ht, hout⟩ := exec_xform_of_ready s hb hs hl
  refine ⟨t, ht, fun u hub hus hdir hnb hnr hw hul hin => ?_⟩
  obtain ⟨v, hv, hvout⟩ := exec_xform_of_ready u hub hus hul
  rw [hnb, hnr] at hvout
  have hin' : Agree (blockBytes s.nb) u.din t.dout := hin
  exact ⟨v, hv, hvout.trans (runMicro_xformSeq_inverse hdir.symm s.begin u.begin hnb hnr hw (hin'.trans hout))⟩

/-- Settles O60: XFORM runs the sequence the function is defined by, and the function of each direction undoes that of
the other. -/
theorem encryptAndDecryptAreInversePermutations : Obligations.EncryptAndDecryptAreInversePermutations := by
  unfold Obligations.EncryptAndDecryptAreInversePermutations
  have hdir : Direction.encrypt ≠ .decrypt := nofun
  refine ⟨fun s hb hs hl => ?_, fun nb nr w => ⟨fun b hb => ?_, ?_⟩⟩
  · obtain ⟨t, ht, hout⟩ := exec_xform_of_ready s hb hs hl
    exact ⟨t, ht, exec_xform_eq_xformBlock s t hout⟩
  · exact ⟨xformBlock_xformBlock hdir nb nr w b hb, xformBlock_xformBlock hdir.symm nb nr w b hb⟩
  · rw [List.forall_mem_cons, List.forall_mem_singleton]
    exact ⟨xformBlock_permutation hdir nb nr w, xformBlock_permutation hdir.symm nb nr w⟩

end

