-- ==== Sys2Proof/Proofs/KnownVector.lean ====
section
/-! The known vector of `41_round_datapath.md` R174, computed in both directions: the claim is about one key and one
block, so the model is run on them. -/

namespace Sys2Proof.Machine

/-- The answer is a next state that passes the check. -/
def nextMeets (o : Result) (check : State → Bool) : Bool :=
  match o with
  | .next t => check t
  | .fault _ | .refused _ => false

theorem exists_next_of_nextMeets {o : Result} {p : State → Prop} [DecidablePred p]
    (h : nextMeets o (fun t => decide (p t)) = true) : ∃ t, o = .next t ∧ p t := by
  cases o with
  | next t => exact ⟨t, rfl, of_decide_eq_true h⟩
  | fault => cases h
  | refused => cases h

/-- The operands of a CONSTRUCT and an XFORM with sizes of 128 bits, the rest as after reset. -/
def operands128 (key input : List Byte) : State :=
  { State.reset with
    bsz := 128#16
    ksz := 128#16
    klen := 16#16
    keyin := bufLoad key State.reset.keyin
    dlen := 16#16
    din := bufLoad input State.reset.din }

/-- Success, with this block of 16 bytes in `DOUT`. -/
abbrev State.answersBlock128 (t : State) (output : List Byte) : Prop :=
  t.rc = .ok ∧ (List.range 16).map (bufByte t.dout) = output

/-- R174's key. -/
def vectorKey : List Byte :=
  [0x00, 0x01, 0x02, 0x03, 0x04, 0x05, 0x06, 0x07, 0x08, 0x09, 0x0a, 0x0b, 0x0c, 0x0d, 0x0e, 0x0f]

/-- R174's plaintext. -/
def vectorPlain : List Byte :=
  [0x00, 0x11, 0x22, 0x33, 0x44, 0x55, 0x66, 0x77, 0x88, 0x99, 0xaa, 0xbb, 0xcc, 0xdd, 0xee, 0xff]

/-- R174's ciphertext. -/
def vectorCipher : List Byte :=
  [0x69, 0xc4, 0xe0, 0xd8, 0x6a, 0x7b, 0x04, 0x30, 0xd8, 0xcd, 0xb7, 0x80, 0x70, 0xb4, 0xc5, 0x5a]

theorem vector_encrypts : nextMeets (execAll [.construct .encrypt, .xform] (operands128 vectorKey vectorPlain))
    (fun t => decide (t.answersBlock128 vectorCipher)) = true := by decide +kernel

theorem vector_decrypts : nextMeets (execAll [.construct .decrypt, .xform] (operands128 vectorKey vectorCipher))
    (fun t => decide (t.answersBlock128 vectorPlain)) = true := by decide +kernel

end Sys2Proof.Machine

open Sys2Proof Sys2Proof.Machine

/-- Settles O54: one evaluation for each direction. -/
theorem knownVectorHolds : Obligations.KnownVectorHolds := by
  unfold Obligations.KnownVectorHolds
  intro key plain cipher p hp
  rw [List.mem_pair] at hp
  obtain rfl | rfl := hp
  · exact exists_next_of_nextMeets vector_encrypts
  · exact exists_next_of_nextMeets vector_decrypts

end

