-- ==== Sys2Proof/Proofs/TableLaws.lean ====
section
/-! The laws of the lookup memories: `ISBOX` against `SBOX` (`42_tables_gf.md` R199), and the six multiplication tables
as products with their constants (R200). -/

namespace Sys2Proof.Machine

/-- The loop of R193 adds only zeros to the sum when it starts from the byte 0. -/
theorem cmulFrom_zero (c : Byte) (n k : Nat) (acc : Byte) : cmulFrom c n k acc 0x00#8 = acc := by
  induction n generalizing k acc with
  | zero => rfl
  | succ n ih =>
    have hx : xtime 0x00#8 = 0x00#8 := by decide
    rw [cmulFrom, hx, ih, BitVec.xor_zero, ite_self]

theorem cmul_zero (c : Byte) : cmul c 0x00#8 = 0x00#8 := cmulFrom_zero c 8 0 0x00#8

theorem cmul_one : ∀ c : Byte, cmul c 0x01#8 = c := by decide +kernel

/-- No byte but 0 has the product 0: the kernel of a multiplication table. -/
theorem eq_zero_of_tabRead_eq_zero (t : Table) (ht : isProductTable t = true) :
    ∀ d : Byte, tabRead t d = 0x00#8 → d = 0x00#8 := by
  cases t with
  | sbox | isbox => cases ht
  | m2 | m3 | m9 | m11 | m13 | m14 => decide +kernel

/-- A multiplication table is additive, so two bytes with equal entries have a difference in its kernel. -/
theorem tabRead_injective_of_isProductTable {t : Table} (ht : isProductTable t = true) {a b : Byte}
    (h : tabRead t a = tabRead t b) : a = b := by
  have hdiff : tabRead t (a ^^^ b) = 0x00#8 := by rw [tabRead_xor t ht, h, BitVec.xor_self]
  exact BitVec.xor_eq_zero_iff.1 (eq_zero_of_tabRead_eq_zero t ht _ hdiff)

/-- R200 for one table, from its being the product with its constant. -/
theorem productTable_laws {t : Table} {c : Byte} (ht : isProductTable t = true) (hc : ∀ b, tabRead t b = cmul c b) :
    (∀ b : Byte, tabRead t b = cmul c b) ∧ tabRead t 0x00#8 = 0x00#8 ∧ tabRead t 0x01#8 = c ∧
      ∀ a b : Byte, tabRead t a = tabRead t b → a = b :=
  ⟨hc, (hc _).trans (cmul_zero c), (hc _).trans (cmul_one c),
    fun _ _ => tabRead_injective_of_isProductTable ht⟩

end Sys2Proof.Machine

open Sys2Proof Sys2Proof.Machine

/-- Settles O19: the two listings undo each other, and the four entries that R199 gives as examples are read off. -/
theorem inverseSboxUndoesSbox : Obligations.InverseSboxUndoesSbox := by
  unfold Obligations.InverseSboxUndoesSbox
  exact ⟨fun a => ⟨isbox_sbox a, sbox_isbox a⟩, by decide⟩

/-- Settles O20: each table is the product with its constant, which is additive with kernel 0. -/
theorem multiplicationTablesAreProducts : Obligations.MultiplicationTablesAreProducts := by
  unfold Obligations.MultiplicationTablesAreProducts
  intro p hp
  simp only [List.mem_cons, List.not_mem_nil, or_false] at hp
  obtain rfl | rfl | rfl | rfl | rfl | rfl := hp
  · exact productTable_laws rfl m2_eq_cmul
  · exact productTable_laws rfl m3_eq_cmul
  · exact productTable_laws rfl m9_eq_cmul
  · exact productTable_laws rfl m11_eq_cmul
  · exact productTable_laws rfl m13_eq_cmul
  · exact productTable_laws rfl m14_eq_cmul

end

