-- ==== Sys2Proof/Proofs/HostMoves.lean ====
section
/-! The host's writes and reads of an idle core, and a host with no move to make (`43_host_commands.md` R231,
`70_reset_and_hazards.md` R275). -/

namespace Sys2Proof.Machine

/-- A move that an idle core settles without running an operation is the step. -/
theorem step_settledMove (s u : State) (m : HostMove) (rest : List HostMove) (hp : s.portsEmpty)
    (hb : s.busy = false) (hm : { s with host := rest }.fetchMove m = .settled u) :
    step { s with host := m :: rest } = .next u := by
  rw [step_move { s with host := m :: rest } m rest hp rfl (.inl hb), hm, Fetched.outcome_settled]

/-- An idle core whose host has no move to make waits (R275). -/
theorem step_waits (s : State) (hp : s.portsEmpty) (hb : s.busy = false) (hh : s.host = []) : step s = .next s :=
  step_settled s s (by rw [fetch_agent s hp.1 hp.2]; simp [State.fetchAgent, hh, hb])

end Sys2Proof.Machine

open Sys2Proof Sys2Proof.Machine

/-- Settles O15: each write is one settled move, and the bytes of a written buffer are those of `bufLoad`. -/
theorem hostMovesWriteOperands : Obligations.HostMovesWriteOperands := by
  unfold Obligations.HostMovesWriteOperands
  intro s rest hp hb
  have hmove := fun m u => step_settledMove s u m rest hp hb
  exact ⟨fun v => hmove (.writeBsz v) _ rfl, fun v => hmove (.writeKsz v) _ rfl, fun v => hmove (.writeKlen v) _ rfl,
    fun v => hmove (.writeDlen v) _ rfl,
    fun bs => ⟨bufLoad bs s.keyin, hmove (.writeKeyin bs) _ rfl, bufByte_bufLoad bs s.keyin⟩,
    fun bs => ⟨bufLoad bs s.din, hmove (.writeDin bs) _ rfl, bufByte_bufLoad bs s.din⟩,
    hmove .readResult _ rfl, step_waits { s with host := [] } hp hb rfl⟩

end

