-- ==== Sys2Proof/Proofs/Construct.lean ====
section
/-! CONSTRUCT of an idle core: the error of an illegal operand (`43_host_commands.md` R221 to R223), and the registers
and the schedule that legal ones leave (R131, R221). -/

namespace Sys2Proof.Machine

/-! The tests. -/

/-- A size in bits that CONSTRUCT accepts (R92, R221). -/
def LegalSize (size : Half) : Prop := size.toNat = 128 ∨ size.toNat = 192 ∨ size.toNat = 256

theorem not_legalSize_of_eq_none {size : Half} (h : sizeInWords? size = none) : ¬ LegalSize size :=
  (sizeInWords?_eq_none size).1 h

theorem legalSize_of_eq_some {size : Half} {c : WordCount} (h : sizeInWords? size = some c) : LegalSize size := by
  by_contra hn
  cases ((sizeInWords?_eq_none size).2 hn).symm.trans h

/-- What the tests report: the first of the three that fails (R222, D9). -/
theorem checkConstruct_error_cases (s : State) (e : ResultCode) (h : s.checkConstruct = .error e) :
    (¬ LegalSize s.bsz ∧ e = .blockSize) ∨ (LegalSize s.bsz ∧ ¬ LegalSize s.ksz ∧ e = .keySize) ∨
    (LegalSize s.bsz ∧ LegalSize s.ksz ∧ e = .keyLength) := by
  unfold State.checkConstruct at h
  split at h
  · next hb =>
    cases h
    exact .inl ⟨not_legalSize_of_eq_none hb, rfl⟩
  · next nb hb =>
    split at h
    · next hk =>
      cases h
      exact .inr (.inl ⟨legalSize_of_eq_some hb, not_legalSize_of_eq_none hk, rfl⟩)
    · next nk hk =>
      split at h <;> cases h
      exact .inr (.inr ⟨legalSize_of_eq_some hb, legalSize_of_eq_some hk, rfl⟩)

/-- What they accept is legal. -/
theorem legal_of_checkConstruct_ok (s : State) (nb nk : WordCount) (h : s.checkConstruct = .ok (nb, nk)) :
    LegalSize s.bsz ∧ LegalSize s.ksz ∧ 8 * s.klen.toNat = s.ksz.toNat := by
  obtain ⟨hb, hk, hl⟩ := (checkConstruct_eq_ok s nb nk).1 h
  exact ⟨legalSize_of_eq_some ((sizeInWords?_eq_some _ nb).2 hb),
    legalSize_of_eq_some ((sizeInWords?_eq_some _ nk).2 hk), by omega⟩

/-! A failed CONSTRUCT. -/

/-- A configuration error reported by an idle core leaves alone what R221 and R223 do not name. -/
theorem failConstruct_frame (s : State) (e : ResultCode) (hb : s.busy = false) (hv : isContractViolation e = false) :
    s.failConstruct e = { s with
      slot := .empty
      err := e
      rc := e
      dir := (s.failConstruct e).dir
      nb := (s.failConstruct e).nb
      nk := (s.failConstruct e).nk
      nr := (s.failConstruct e).nr
      w := (s.failConstruct e).w
      dout := (s.failConstruct e).dout
      drawn := (s.failConstruct e).drawn } := by
  simp only [State.failConstruct, State.unspecifyInstance, State.unspecifyDout, State.raise, hb, hv,
    Bool.false_eq_true, if_false]

/-! A completed CONSTRUCT. -/

/-- What CONSTRUCT answers for the sizes its operands give (R221). -/
def State.constructed (s : State) (d : Direction) (nb nk : WordCount) : State :=
  ((({ s with slot := .empty }.configure nb nk).begin).runMicro (keySeq nb nk (roundsFor nb nk))).closeConstruct d

theorem exec_construct_of_accepted (s : State) (d : Direction) (nb nk : WordCount) (hb : s.busy = false)
    (hc : s.checkConstruct = .ok (nb, nk)) : exec (.construct d) s = .next (s.constructed d nb nk) := by
  rcases execConstruct_cases d s with ⟨h, -⟩ | ⟨-, e, h, -⟩ | ⟨-, nb', nk', h, he⟩
  · cases hb.symm.trans h
  · cases hc.symm.trans h
  · cases hc.symm.trans h
    exact he

theorem closeConstruct_frame (s : State) (d : Direction) : s.closeConstruct d = { s with
    slot := .ready
    err := .ok
    rc := .ok
    dir := d
    upc := 0#7
    busy := false
    dout := (s.closeConstruct d).dout
    drawn := (s.closeConstruct d).drawn } := by
  simp only [State.closeConstruct, State.unspecifyDout, State.succeed, State.idle]

/-- The key scheduler's sequence leaves the datapath's buffers alone. -/
theorem runMicro_keySeq_buffers (nb nk : WordCount) (nr : Rounds) (s : State) :
    (s.runMicro (keySeq nb nk nr)).blk = s.blk ∧ (s.runMicro (keySeq nb nk nr)).tmp = s.tmp := by
  have hrun := runMicro_keepsUnwritten (.construct .encrypt) _ s (keySeq_writesWithin nb nk nr .encrypt)
  exact ⟨hrun.blk rfl, hrun.tmp rfl⟩

/-- A completed CONSTRUCT of an idle core leaves alone what R221 does not name. -/
theorem constructed_frame (s : State) (d : Direction) (nb nk : WordCount) (hb : s.busy = false) :
    s.constructed d nb nk = { s with
      slot := .ready
      err := .ok
      rc := .ok
      dir := d
      nb := nb
      nk := nk
      nr := roundsFor nb nk
      upc := 0#7
      w := (s.constructed d nb nk).w
      dout := (s.constructed d nb nk).dout
      drawn := (s.constructed d nb nk).drawn } := by
  obtain ⟨hblk, htmp⟩ := runMicro_keySeq_buffers nb nk (roundsFor nb nk)
    ({ s with slot := .empty }.configure nb nk).begin
  rw [State.constructed, closeConstruct_frame, runMicro_frame, hblk, htmp]
  simp only [State.begin, State.configure, hb]

/-! Its schedule. -/

/-- The key scheduler's sequence writes no word from `NW` up. -/
theorem runMicro_keySeq_word_of_ge (nb nk : WordCount) (nr : Rounds) (s : State) (hk : s.nk = nk) (i : Nat)
    (hi : scheduleWords nb nr ≤ i) : (s.runMicro (keySeq nb nk nr)).word i = s.word i := by
  have hnk := wordCount_lt_scheduleWords nb nk nr
  obtain h120 | h120 := Nat.lt_or_ge i 120
  · have hload : (MicroOp.kload.apply s).word i = s.word i :=
      (word_kload s i h120).trans (if_neg (by rw [hk]; omega))
    rw [keySeq, runMicro_cons, runMicro_word_of_ne _ _ i h120, word_congr _ _ (State.tick_w _), hload]
    intro m hm
    simp only [List.mem_append, List.mem_map, List.mem_range'_1, List.mem_singleton] at hm
    rcases hm with ⟨j, hj, rfl⟩ | rfl
    · exact ⟨nofun, fun he => by cases he; omega⟩
    · exact ⟨nofun, nofun⟩
  · rw [word_absent _ i h120, word_absent _ i h120]

theorem constructed_word_of_ge (s : State) (d : Direction) (nb nk : WordCount) (i : Nat)
    (hi : scheduleWords nb (roundsFor nb nk) ≤ i) : (s.constructed d nb nk).word i = s.word i :=
  (word_congr _ _ (closeConstruct_w _ d) i).trans
    (runMicro_keySeq_word_of_ge nb nk _ ({ s with slot := .empty }.configure nb nk).begin rfl i hi)

/-- R125's middle case concerns keys of 256 bits alone. -/
theorem kstepTemp_eq (s : State) (i : Nat) : s.kstepTemp i =
    if i % wordCount s.nk = 0 then subWord (rotWord (s.word (i - 1))) ^^^ rcon (i / wordCount s.nk)
    else if s.nk = .eight ∧ i % 8 = 4 then subWord (s.word (i - 1))
    else s.word (i - 1) := by
  have hcase : 6 < wordCount s.nk ∧ i % wordCount s.nk = 4 ↔ s.nk = .eight ∧ i % 8 = 4 := by
    cases s.nk <;> simp [wordCount]
  simp only [State.kstepTemp, hcase]

end Sys2Proof.Machine

open Sys2Proof Sys2Proof.Machine

/-- Settles O30: the tests report the first that fails, and a failed CONSTRUCT changes what R221 and R223 name. -/
theorem constructReportsFirstError : Obligations.ConstructReportsFirstError := by
  unfold Obligations.ConstructReportsFirstError
  intro s d hb legal hillegal
  rcases execConstruct_cases d s with ⟨h, -⟩ | ⟨-, e, hc, hv, he⟩ | ⟨-, nb, nk, hc, -⟩
  · cases hb.symm.trans h
  · have hframe := failConstruct_frame s e hb hv
    have hrc : (s.failConstruct e).rc = e := by rw [hframe]
    refine ⟨_, he, by rw [hframe], by rw [hframe], ?_⟩
    rw [hrc]
    obtain ⟨hbsz, rfl⟩ | ⟨hbsz, hksz, rfl⟩ | ⟨hbsz, hksz, rfl⟩ := checkConstruct_error_cases s e hc
    · exact ⟨fun _ => rfl, fun h => absurd h hbsz, fun h => absurd h hbsz, hframe⟩
    · exact ⟨fun h => absurd hbsz h, fun _ _ => rfl, fun _ h => absurd h hksz, hframe⟩
    · exact ⟨fun h => absurd hbsz h, fun _ h => absurd hksz h, fun _ _ => rfl, hframe⟩
  · exact absurd (legal_of_checkConstruct_ok s nb nk hc) hillegal

/-- Settles O29: the operands pass the tests; the schedule begins with the raw key, follows the recurrence up to `NW`
and is as it was from there. -/
theorem constructExpandsKey : Obligations.ConstructExpandsKey := by
  unfold Obligations.ConstructExpandsKey
  intro s d nb nk hb hbsz hksz hklen
  have he := exec_construct_of_accepted s d nb nk hb ((checkConstruct_eq_ok s nb nk).2 ⟨hbsz, hksz, hklen⟩)
  have hframe := constructed_frame s d nb nk hb
  have hready : (s.constructed d nb nk).slot = .ready := by rw [hframe]
  have hnb : (s.constructed d nb nk).nb = nb := by rw [hframe]
  have hnk : (s.constructed d nb nk).nk = nk := by rw [hframe]
  have hnr : (s.constructed d nb nk).nr = roundsFor nb nk := by rw [hframe]
  have hexp := constructed_expandedTo s _ d he hready
  have hraw := constructed_keyWord s _ d he hready
  simp only [State.ExpandedTo, kstepTemp_eq, hnb, hnk, hnr] at hexp hraw
  exact ⟨_, he, hframe, hraw, hexp, constructed_word_of_ge s d nb nk⟩

end

