-- ==== Sys2Proof/Proofs/SlotLifecycle.lean ====
section
/-! XFORM of a READY slot (`43_host_commands.md` R225), DISCARD (R228), and what the three commands make of `STATE`
(R229). -/

namespace Sys2Proof.Machine

/-! XFORM's sequence, by `exec`. -/

/-- `s` with `UPC` at `u`. -/
def State.atUpc (s : State) (u : BitVec 7) : State := { s with upc := u }

theorem State.tick_atUpc (s : State) (u : BitVec 7) : s.tick.atUpc u = s.atUpc u := rfl

/-- No micro-operation reads or writes `UPC`. -/
theorem apply_atUpc (m : MicroOp) (s : State) (u : BitVec 7) : m.apply (s.atUpc u) = (m.apply s).atUpc u := by
  cases m <;> rfl

/-- The engine's entries run one after another by `exec` do what the sequencer makes of them, but that `UPC` stands
still. -/
theorem execAll_toInstr_atUpc (ms : List MicroOp) (s : State) (u : BitVec 7)
    (hms : ∀ m ∈ ms, (∀ r, m = .ark r → r ≤ roundCount s.nr) ∧ ∀ i, m ≠ .kstep i) :
    execAll (ms.map MicroOp.toInstr) (s.atUpc u) = .next ((s.runMicro ms).atUpc u) := by
  induction ms generalizing s with
  | nil => rfl
  | cons m ms ih =>
    rw [List.forall_mem_cons] at hms
    obtain ⟨⟨hr, hi⟩, hms⟩ := hms
    have hexec : exec m.toInstr (s.atUpc u) = .next ((m.apply s).tick.atUpc u) := by
      rw [exec_toInstr m (s.atUpc u) (fun i h => absurd h (hi i)) hr, apply_atUpc, State.tick_atUpc]
    have hnr : (m.apply s).tick.nr = s.nr := by rw [State.tick_nr, MicroOp.apply_frame m s]
    simp only [List.map_cons, execAll, hexec]
    exact ih _ (by rwa [hnr])

theorem execAll_xformSeq (d : Direction) (s : State) :
    execAll ((xformSeq d s.nr).map MicroOp.toInstr) s = .next ((s.runMicro (xformSeq d s.nr)).atUpc s.upc) :=
  execAll_toInstr_atUpc _ s s.upc (xformSeq_inRange d s.nr)

/-! XFORM of an idle core. -/

theorem closeXform_frame (s : State) : s.closeXform = { s with
    err := .ok
    rc := .ok
    upc := 0#7
    busy := false
    blk := s.closeXform.blk
    tmp := s.closeXform.tmp
    dout := s.closeXform.dout
    drawn := s.closeXform.drawn } := by
  simp only [State.closeXform, State.unspecifyScratch, State.unspecifyDout, State.succeed, State.idle]

/-- XFORM's sequence does not write the schedule (R73). -/
theorem runMicro_xformSeq_w (d : Direction) (nr : Rounds) (s : State) : (s.runMicro (xformSeq d nr)).w = s.w :=
  (runMicro_keepsUnwritten .xform _ s (xformSeq_writesWithin d nr)).w rfl

/-- A completed XFORM of an idle core leaves alone what R225 does not name. -/
theorem exec_xform_ready_frame (s t : State) (hb : s.busy = false) (h : exec .xform s = .next t) (hs : s.slot = .ready)
    (hl : s.dlen.toNat = 4 * wordCount s.nb) : t = { s with
      err := .ok
      rc := .ok
      upc := 0#7
      blk := t.blk
      tmp := t.tmp
      dout := t.dout
      drawn := t.drawn } := by
  rw [exec_xform_ready s t h hs hl, closeXform_frame, runMicro_frame, runMicro_xformSeq_w]
  simp only [State.begin, hb]

theorem exec_xform_of_empty (s : State) (hb : s.busy = false) (hs : s.slot = .empty) :
    exec .xform s = .next (s.failXform .noTransform) := by
  rcases execXform_cases s with ⟨h, -⟩ | ⟨-, -, he⟩ | ⟨-, h, -⟩ | ⟨-, h, -⟩
  · cases hb.symm.trans h
  · exact he
  · cases hs.symm.trans h
  · cases hs.symm.trans h

theorem failXform_rc (s : State) (e : ResultCode) : (s.failXform e).rc = e := by simp [State.failXform]

/-! DISCARD of an idle core. -/

theorem exec_discard_of_empty (s : State) (hb : s.busy = false) (hs : s.slot = .empty) :
    exec .discard s = .next s.succeed := by
  rcases execDiscard_cases s with ⟨h, -⟩ | ⟨-, -, he⟩ | ⟨-, h, -⟩
  · cases hb.symm.trans h
  · exact he
  · cases hs.symm.trans h

/-- DISCARD leaves alone what R228 does not name. -/
theorem exec_discard_frame (s t : State) (h : exec .discard s = .next t) : t = { s with
    slot := .empty
    rc := .ok
    err := .ok
    dir := t.dir
    nb := t.nb
    nk := t.nk
    nr := t.nr
    w := t.w
    blk := t.blk
    tmp := t.tmp
    dout := t.dout
    drawn := t.drawn } := by
  rcases execDiscard_cases s with ⟨-, he⟩ | ⟨-, hs, he⟩ | ⟨-, -, he⟩ <;> cases he.symm.trans h
  · simp only [State.succeed, hs]
  · simp only [State.succeed, State.unspecifyInstance, State.unspecifyScratch, State.unspecifyDout]

/-! The slot. -/

theorem exec_discard_slot (s t : State) (h : exec .discard s = .next t) : t.slot = .empty := by
  rw [exec_discard_frame s t h]

/-- A CONSTRUCT leaves READY exactly where it succeeds (R221). -/
theorem exec_construct_ready_iff (s t : State) (d : Direction) (h : exec (.construct d) s = .next t) :
    t.slot = .ready ↔ t.rc = .ok := by
  rcases execConstruct_cases d s with ⟨-, he⟩ | ⟨-, e, hc, -, he⟩ | ⟨-, nb, nk, -, he⟩ <;> cases he.symm.trans h
  · have herr : e ≠ .ok := by
      obtain ⟨-, rfl⟩ | ⟨-, -, rfl⟩ | ⟨-, -, rfl⟩ := checkConstruct_error_cases s e hc <;> nofun
    simp [State.failConstruct, herr]
  · simp [State.closeConstruct]

/-- XFORM writes `STATE` in no case (R73, R225). -/
theorem exec_xform_slot (s t : State) (h : exec .xform s = .next t) : t.slot = s.slot :=
  congrArg Prod.fst (exec_configuration .xform s t h nofun nofun)

end Sys2Proof.Machine

open Sys2Proof Sys2Proof.Machine

/-- Settles O48: XFORM answers what its sequence leaves, and the sequence leaves in `DOUT` what its entries by `exec`
do. -/
theorem xformRunsItsSequence : Obligations.XformRunsItsSequence := by
  unfold Obligations.XformRunsItsSequence
  intro s hb hs hl
  obtain ⟨t, ht, hout⟩ := exec_xform_of_ready s hb hs hl
  have hsame : SameCipherInput s.begin s := ⟨rfl, rfl, fun _ _ => rfl, fun _ _ => rfl⟩
  exact ⟨t, _, ht, execAll_xformSeq s.dir s, exec_xform_ready_frame s t hb ht hs hl,
    hout.trans (runMicro_xformSeq_agree s.dir s.begin s hsame)⟩

/-- Settles O52: DISCARD of an idle core answers an EMPTY slot, on which XFORM reports E_NO_TRANSFORM. -/
theorem discardEmptiesSlot : Obligations.DiscardEmptiesSlot := by
  unfold Obligations.DiscardEmptiesSlot
  refine ⟨decode_encode .discard rfl, fun s hb => ?_, exec_discard_of_empty⟩
  obtain ⟨t, ht⟩ := exec_hostCommand_of_idle s .discard hb (.inr (.inr rfl))
  have hframe := exec_discard_frame s t ht
  have htb : t.busy = false := by rw [hframe]; exact hb
  exact ⟨t, ht, hframe, _, exec_xform_of_empty t htb (exec_discard_slot s t ht), failXform_rc t _⟩

/-- Settles O53: one lemma for each command, and XFORM's report on an EMPTY slot. -/
theorem slotLifecycle : Obligations.SlotLifecycle := by
  unfold Obligations.SlotLifecycle
  intro s t hb
  refine ⟨exec_construct_ready_iff s t, fun h => ⟨exec_xform_slot s t h, fun hs => ?_⟩, exec_discard_slot s t⟩
  cases (exec_xform_of_empty s hb hs).symm.trans h
  exact failXform_rc s _

end

