-- ==== Sys2Proof/Proofs/Grains.lean ====
section
/-! The two grains of a command (`43_host_commands.md` R220, D19): its sequence run by the sequencer, one entry a step,
ends where the command taken as one step does. -/

namespace Sys2Proof.Machine

/-- A micro-operation leaves the sequencer where it is: the running sequence, `UPC`, BUSY, the host and the ports. -/
structure SameSequencer (s t : State) : Prop where
  sequence : t.sequence? = s.sequence?
  upc : t.upc = s.upc
  busy : t.busy = s.busy
  host : t.host = s.host
  microPort : t.microPort = s.microPort
  tablePort : t.tablePort = s.tablePort

theorem apply_sameSequencer (m : MicroOp) (s : State) : SameSequencer s (m.apply s) := by
  rw [MicroOp.apply_frame m s]
  exact ⟨rfl, rfl, rfl, rfl, rfl, rfl⟩

/-- The sequencer stands before the entries `todo` of the running sequence, has run `done`, and no reset comes next. -/
structure State.Sequencing (s : State) (done todo : List MicroOp) : Prop where
  ports : s.portsEmpty
  busy : s.busy = true
  noReset : s.host.head? ≠ some .reset
  sequence : s.sequence? = some (done ++ todo)
  upc : s.upc.toNat = done.length
  short : (done ++ todo).length < 128

/-- An entry of the running sequence always runs. -/
theorem exec_running_entry (s : State) (ms : List MicroOp) (m : MicroOp) (hs : s.sequence? = some ms) (hm : m ∈ ms) :
    exec m.toInstr s = .next (m.apply s) :=
  exec_sequence_entry s m <| by
    rcases sequence_eq_some s ms hs with rfl | rfl | rfl <;> simp only [hm, true_or, or_true]

/-- The sequencer's step. -/
theorem State.Sequencing.step_eq {s : State} {done todo : List MicroOp} {m : MicroOp}
    (h : s.Sequencing done (m :: todo)) : step s = .next (m.apply s).advance := by
  have hm : (done ++ m :: todo)[s.upc.toNat]? = some m := by simp [h.upc]
  rw [step_sequenced s _ m h.ports h.busy h.noReset h.sequence hm, exec_running_entry s _ m h.sequence (by simp)]
  rfl

theorem State.Sequencing.tick_upc {s : State} {done todo : List MicroOp} {m : MicroOp}
    (h : s.Sequencing done (m :: todo)) : (m.apply s).tick.upc.toNat = done.length + 1 := by
  have hshort := h.short
  rw [List.length_append, List.length_cons] at hshort
  have hupc : (m.apply s).upc.toNat = done.length := by rw [(apply_sameSequencer m s).upc, h.upc]
  rw [tick_upc_toNat _ (by omega), hupc]

/-- After the entry the command ends if it was the last, and else goes on (R38). -/
theorem State.Sequencing.advance_eq {s : State} {done todo : List MicroOp} {m : MicroOp}
    (h : s.Sequencing done (m :: todo)) :
    (m.apply s).advance = if todo = [] then (m.apply s).tick.closeCommand else (m.apply s).tick := by
  have hend : done.length + 1 = (done ++ m :: todo).length ↔ todo = [] := by
    rw [List.length_append, List.length_cons, ← List.length_eq_zero_iff]
    omega
  rw [State.advance_of_sequence _ _ ((apply_sameSequencer m s).sequence.trans h.sequence), h.tick_upc]
  simp only [hend]

theorem State.Sequencing.after_entry {s : State} {done todo : List MicroOp} {m : MicroOp}
    (h : s.Sequencing done (m :: todo)) : (m.apply s).tick.Sequencing (done ++ [m]) todo := by
  have hm := apply_sameSequencer m s
  have happend : done ++ [m] ++ todo = done ++ m :: todo := (List.append_cons done m todo).symm
  refine ⟨?_, ?_, ?_, ?_, ?_, ?_⟩
  · rw [State.portsEmpty, State.tick_tablePort, State.tick_microPort, hm.tablePort, hm.microPort]
    exact h.ports
  · rw [State.tick_busy, hm.busy, h.busy]
  · rw [State.tick_host, hm.host]
    exact h.noReset
  · rw [State.tick_sequence, hm.sequence, h.sequence, happend]
  · rw [h.tick_upc, List.length_append, List.length_singleton]
  · rw [happend]
    exact h.short

/-- The rest of a running sequence, one entry a step, and the end of its command (R38). -/
theorem State.Sequencing.run_eq {s : State} {done todo : List MicroOp} (h : s.Sequencing done todo)
    (hne : todo ≠ []) : Sys2Proof.core.run todo.length s = .next (s.runMicro todo).closeCommand := by
  induction todo generalizing s done with
  | nil => exact absurd rfl hne
  | cons m todo ih =>
    rw [List.length_cons, core_run_succ _ s _ h.step_eq, h.advance_eq, runMicro_cons]
    by_cases hlast : todo = []
    · subst hlast
      rfl
    · rw [if_neg hlast]
      exact ih h.after_entry hlast

/-- A command's whole sequence, from its start. -/
theorem run_begin (s : State) (ms : List MicroOp) (hp : s.portsEmpty) (hr : s.host.head? ≠ some .reset)
    (hs : s.sequence? = some ms) (h0 : 0 < ms.length) (hle : ms.length ≤ 118) :
    Sys2Proof.core.run ms.length s.begin = .next (s.begin.runMicro ms).closeCommand :=
  State.Sequencing.run_eq (done := []) ⟨hp, rfl, hr, hs, rfl, hle.trans_lt (by decide)⟩ (List.ne_nil_of_length_pos h0)

/-! The two commands that have a sequence. -/

theorem keySeq_length_le (nb nk : WordCount) (nr : Rounds) : (keySeq nb nk nr).length ≤ 118 := by
  have hw := scheduleWords_le nb nr
  have hk := wordCount_bounds nk
  rw [keySeq_length]
  omega

theorem xformSeq_length_le (d : Direction) (nr : Rounds) : (xformSeq d nr).length ≤ 118 := by
  have h14 := roundCount_bounds nr
  cases d with
  | encrypt => rw [xformSeq, encSeq_length]; omega
  | decrypt => rw [xformSeq, decSeq_length]; omega

theorem runMicro_cw (ms : List MicroOp) (s : State) : (s.runMicro ms).cw = s.cw := by rw [runMicro_frame]

theorem closeCommand_construct (s : State) (d : Direction) (hd : decodeHost s.cw = .ok (.construct d)) :
    s.closeCommand = s.closeConstruct d := by
  simp only [State.closeCommand, hd]

theorem closeCommand_xform (s : State) (hd : decodeHost s.cw = .ok .xform) : s.closeCommand = s.closeXform := by
  simp only [State.closeCommand, hd]

/-- CONSTRUCT as one step, by the state its tests leave (R221). -/
theorem exec_construct_eq_open (s : State) (d : Direction) (hb : s.busy = false) :
    exec (.construct d) s = .next (if s.openConstruct.busy then
      (s.openConstruct.runMicro (keySeq s.openConstruct.nb s.openConstruct.nk s.openConstruct.nr)).closeConstruct d
      else s.openConstruct) := by
  simp only [exec, execConstruct, hb, Bool.false_eq_true, if_false, apply_ite Host.Outcome.next]

/-- XFORM as one step, by the state its tests leave (R225). -/
theorem exec_xform_eq_open (s : State) (hb : s.busy = false) :
    exec .xform s = .next (if s.openXform.busy then
      (s.openXform.runMicro (xformSeq s.openXform.dir s.openXform.nr)).closeXform else s.openXform) := by
  simp only [exec, execXform, hb, Bool.false_eq_true, if_false, apply_ite Host.Outcome.next]

/-- From the state CONSTRUCT's tests leave, the sequencer reaches what CONSTRUCT answers as one step. -/
theorem run_openConstruct (s : State) (d : Direction) (hp : s.portsEmpty) (hb : s.busy = false)
    (hr : s.host.head? ≠ some .reset) (hd : decodeHost s.cw = .ok (.construct d)) :
    ∃ n ≤ 118, Sys2Proof.core.run n s.openConstruct = exec (.construct d) s := by
  rw [exec_construct_eq_open s d hb]
  rcases openConstruct_cases s with ⟨e, -, -, ho⟩ | ⟨nb, nk, -, ho⟩ <;> rw [ho]
  · exact ⟨0, by decide, rfl⟩
  · have hs : ({ s with slot := .empty }.configure nb nk).sequence? = some (keySeq nb nk (roundsFor nb nk)) := by
      simp only [State.sequence?, State.configure, hd]
    have hlen := keySeq_length_le nb nk (roundsFor nb nk)
    have hrun := run_begin ({ s with slot := .empty }.configure nb nk) _ hp hr hs (keySeq_length_pos _ _ _) hlen
    rw [closeCommand_construct _ d (by rw [runMicro_cw]; exact hd)] at hrun
    exact ⟨_, hlen, hrun⟩

/-- From the state XFORM's tests leave, the sequencer reaches what XFORM answers as one step. -/
theorem run_openXform (s : State) (hp : s.portsEmpty) (hb : s.busy = false) (hr : s.host.head? ≠ some .reset)
    (hd : decodeHost s.cw = .ok .xform) : ∃ n ≤ 118, Sys2Proof.core.run n s.openXform = exec .xform s := by
  rw [exec_xform_eq_open s hb]
  rcases openXform_cases s with ⟨-, ho⟩ | ⟨-, -, ho⟩ | ⟨-, -, ho⟩ <;> rw [ho]
  · exact ⟨0, by decide, rfl⟩
  · exact ⟨0, by decide, rfl⟩
  · have hs : s.sequence? = some (xformSeq s.dir s.nr) := by simp only [State.sequence?, hd]
    have hlen := xformSeq_length_le s.dir s.nr
    have hrun := run_begin s _ hp hr hs (xformSeq_length_pos _ _) hlen
    rw [closeCommand_xform _ (by rw [runMicro_cw]; exact hd)] at hrun
    exact ⟨_, hlen, hrun⟩

/-- Either grain's move takes a word that has no sequence in the same way: DISCARD (R305), or none of the commands. -/
theorem startCommand_eq_presentCommand (s : State) (cw : Byte) (hc : ∀ d, decodeHost cw ≠ .ok (.construct d))
    (hx : decodeHost cw ≠ .ok .xform) : s.startCommand cw = s.presentCommand cw := by
  unfold State.startCommand State.presentCommand
  dsimp only
  split
  · next d hd => exact absurd hd (hc d)
  · next hd => exact absurd hd hx
  · next i _ _ hi => rw [hi]
  · next e he => rw [he]

theorem outcome_presentCommand (s : State) (cw : Byte) (i : Instr) (hd : decodeHost cw = .ok i) :
    (s.presentCommand cw).outcome = exec i { s with cw := cw } := by
  simp only [State.presentCommand, hd, Fetched.outcome_issue_plain]

/-- The two grains of the command a word spells, the move that presents it already taken off the list. -/
theorem run_startCommand (s : State) (cw : Byte) (hp : s.portsEmpty) (hb : s.busy = false)
    (hr : s.host.head? ≠ some .reset) :
    (∃ n ≤ 118, ∃ t, s.startCommand cw = .settled t ∧ Sys2Proof.core.run n t = (s.presentCommand cw).outcome) ∨
    s.startCommand cw = s.presentCommand cw := by
  by_cases hc : ∃ d, decodeHost cw = .ok (.construct d)
  · obtain ⟨d, hd⟩ := hc
    obtain ⟨n, hn, hrun⟩ := run_openConstruct { s with cw := cw } d hp hb hr hd
    exact .inl ⟨n, hn, { s with cw := cw }.openConstruct, by simp only [State.startCommand, hd],
      hrun.trans (outcome_presentCommand s cw _ hd).symm⟩
  by_cases hx : decodeHost cw = .ok .xform
  · obtain ⟨n, hn, hrun⟩ := run_openXform { s with cw := cw } hp hb hr hx
    exact .inl ⟨n, hn, { s with cw := cw }.openXform, by simp only [State.startCommand, hx],
      hrun.trans (outcome_presentCommand s cw _ hx).symm⟩
  exact .inr (startCommand_eq_presentCommand s cw (fun d hd => hc ⟨d, hd⟩) hx)

/-- A run of one step is the step. -/
theorem run_one (M : Host.Core) (s : M.State) : M.run 1 s = M.step s := by
  rw [Host.Core.run]
  cases M.step s <;> rfl

end Sys2Proof.Machine

open Sys2Proof Sys2Proof.Machine

/-- Settles O13: one step for the move, and then the sequence, whose end is the command's. -/
theorem startedCommandAgreesWithAtomicCommand : Obligations.StartedCommandAgreesWithAtomicCommand := by
  unfold Obligations.StartedCommandAgreesWithAtomicCommand
  intro s cw rest hp hb hr
  have hstart : step { s with host := .start cw :: rest } = ({ s with host := rest }.startCommand cw).outcome :=
    step_move { s with host := .start cw :: rest } (.start cw) rest hp rfl (.inl hb)
  have hatomic : step { s with host := .command cw :: rest } = ({ s with host := rest }.presentCommand cw).outcome :=
    step_move { s with host := .command cw :: rest } (.command cw) rest hp rfl (.inl hb)
  rw [hatomic]
  obtain ⟨n, hn, t, ht, hrun⟩ | hsame := run_startCommand { s with host := rest } cw hp hb hr
  · rw [ht, Fetched.outcome_settled] at hstart
    exact ⟨n + 1, by omega, (core_run_succ n _ t hstart).trans hrun⟩
  · exact ⟨1, by decide, (run_one Sys2Proof.core _).trans (by rw [← hsame]; exact hstart)⟩

end

