-- ==== Sys2Proof/Proofs/XformViolations.lean ====
section
/-! The contract violations of XFORM (`60_exceptions.md` R266, R267): what a failed XFORM of an idle core leaves alone. -/

namespace Sys2Proof.Machine

/-- A contract violation XFORM reports of an idle core leaves alone what R226 and R227 do not name; the record is the
model's own (log entry 7). -/
theorem failXform_frame (s : State) (e : ResultCode) (hb : s.busy = false) (hv : isContractViolation e = true) :
    s.failXform e = { s with
      rc := e
      err := e
      violations := e :: s.violations
      dout := (s.failXform e).dout
      drawn := (s.failXform e).drawn } := by
  simp only [State.failXform, State.unspecifyDout, State.raise, hb, hv, if_true]

theorem exec_xform_of_wrongLength (s : State) (hb : s.busy = false) (hs : s.slot = .ready)
    (hl : s.dlen.toNat ≠ blockBytes s.nb) : exec .xform s = .next (s.failXform .blockLength) := by
  rcases execXform_cases s with ⟨h, -⟩ | ⟨-, h, -⟩ | ⟨-, -, -, he⟩ | ⟨-, -, h, -⟩
  · cases hb.symm.trans h
  · cases hs.symm.trans h
  · exact he
  · exact absurd h hl

end Sys2Proof.Machine

open Sys2Proof Sys2Proof.Machine

/-- Settles O51: either test that fails answers the failed XFORM of its code, and both codes are contract violations. -/
theorem xformReportsContractViolations : Obligations.XformReportsContractViolations := by
  unfold Obligations.XformReportsContractViolations
  refine ⟨fun s hb hs => ?_, fun s hb hs hl => ?_⟩
  · exact ⟨_, exec_xform_of_empty s hb hs, failXform_frame s .noTransform hb rfl⟩
  · exact ⟨_, exec_xform_of_wrongLength s hb hs hl, failXform_frame s .blockLength hb rfl⟩

end

