-- ==== Sys2Proof/Proofs/ResetAndHazards.lean ====
section
/-! A running core and its host (`70_reset_and_hazards.md` R290, R291, R300, R301): a reset comes at any time, every other
move waits, the operand registers stand still, and a command executed all the same is refused. -/

namespace Sys2Proof.Machine

theorem resetEvent_host (s : State) : s.resetEvent.host = s.host := by
  simp [State.resetEvent]

/-- A reset is the step whatever BUSY is (R291). -/
theorem step_reset (s : State) (rest : List HostMove) (hp : s.portsEmpty) (hh : s.host = .reset :: rest) :
    step s = .next (State.resetEvent { s with host := rest }) :=
  step_move s .reset rest hp hh (.inr rfl)

@[simp] theorem State.closeCommand_inputs (s : State) : s.closeCommand.inputs = s.inputs := by
  unfold State.closeCommand
  split
  · exact s.closeConstruct_inputs _
  · exact s.closeXform_inputs
  · rfl

@[simp] theorem State.tick_inputs (s : State) : s.tick.inputs = s.inputs := rfl

/-- The sequencer's advance, the end of a command included, reaches nothing the host put in. -/
@[simp] theorem State.advance_inputs (s : State) : s.advance.inputs = s.inputs := by
  unfold State.advance
  dsimp only
  split
  · split <;> simp
  · exact s.tick_inputs

/-- A step of the sequencer leaves what the host and the ports put in. -/
theorem step_inputs_of_sequencer (s t : State) (hp : s.portsEmpty) (hb : s.busy = true)
    (hr : s.host.head? ≠ some .reset) (h : step s = .next t) : t.inputs = s.inputs := by
  rw [step_eq_outcome, fetch_agent s hp.1 hp.2, fetchAgent_busy s hb hr] at h
  obtain ⟨m, u, hu, rfl⟩ := outcome_fetchMicroOp_eq_next s t h
  rw [u.advance_inputs, exec_inputs m.toInstr s u hu]

/-- Each of the three host commands is refused while BUSY = 1 (R300, U3): its other outcomes have BUSY = 0. -/
theorem exec_hostCommand_of_busy (s : State) (i : Instr) (hb : s.busy = true) (hi : isHostCommand i = true) :
    exec i s = .refused .commandWhileBusy := by
  have hidle : s.busy ≠ false := ne_false_of_eq_true hb
  cases i with
  | construct d =>
    rcases execConstruct_cases d s with ⟨-, he⟩ | ⟨h, -⟩ | ⟨h, -⟩
    · exact he
    all_goals exact absurd h hidle
  | xform =>
    rcases execXform_cases s with ⟨-, he⟩ | ⟨h, -⟩ | ⟨h, -⟩ | ⟨h, -⟩
    · exact he
    all_goals exact absurd h hidle
  | discard =>
    rcases execDiscard_cases s with ⟨-, he⟩ | ⟨h, -⟩ | ⟨h, -⟩
    · exact he
    all_goals exact absurd h hidle
  | _ => cases hi

end Sys2Proof.Machine

open Sys2Proof Sys2Proof.Machine

/-- Settles O14: the sequencer's step keeps the inputs, the moves to come and the operand registers among them. -/
theorem hostWaitsWhileBusy : Obligations.HostWaitsWhileBusy := by
  unfold Obligations.HostWaitsWhileBusy
  refine ⟨fun s t hp hb hr h => ?_, exec_hostCommand_of_busy⟩
  have hin := step_inputs_of_sequencer s t hp hb hr h
  simp only [State.inputs, Prod.mk.injEq] at hin
  obtain ⟨hcw, hbsz, hksz, hklen, hkeyin, hdlen, hdin, hhost, -, -⟩ := hin
  exact ⟨hhost, hcw, hbsz, hksz, hklen, hkeyin, hdlen, hdin⟩

/-- Settles O5: BUSY does not hold a reset back, and `State.resetEvent` writes the five registers R42 names. -/
theorem resetComesAtAnyTime : Obligations.ResetComesAtAnyTime := by
  unfold Obligations.ResetComesAtAnyTime
  intro s rest hp hh
  exact ⟨_, step_reset s rest hp hh, rfl, rfl, rfl, rfl, rfl, resetEvent_violations _, resetEvent_host _⟩

end

