-- ==== Sys2Proof/Proofs/FieldLaws.lean ====
section
/-! The laws of the field (`42_tables_gf.md` R196) and the S-box as a permutation (R198). A map that respects XOR and
doubling is linear over the polynomials in `x`, and is fixed by its value at 0x01; each law of the product says that two
such maps are equal. -/

namespace Sys2Proof.Machine

/-! Every byte by Horner's scheme, from the coefficient of the highest power of `x` down. -/

/-- A byte is its upper seven bits doubled, plus its lowest bit. -/
theorem eq_xtime_shiftRight_or_xor_one :
    ∀ a : Byte, a = xtime (a >>> 1) ∨ a = xtime (a >>> 1) ^^^ 0x01#8 := by decide +kernel

theorem toNat_shiftRight_one_lt {a : Byte} (ha : a ≠ 0x00#8) : (a >>> 1).toNat < a.toNat := by
  have hpos : a.toNat ≠ 0 := fun h => ha (BitVec.eq_of_toNat_eq h)
  rw [BitVec.toNat_ushiftRight, Nat.shiftRight_eq_div_pow]
  omega

theorem horner_induction {P : Byte → Prop} (zero : P 0x00#8) (double : ∀ a, P a → P (xtime a))
    (xor_one : ∀ a, P a → P (a ^^^ 0x01#8)) (a : Byte) : P a := by
  by_cases ha : a = 0x00#8
  · exact ha ▸ zero
  · have hx : P (xtime (a >>> 1)) := double _ (horner_induction zero double xor_one (a >>> 1))
    obtain h | h := eq_xtime_shiftRight_or_xor_one a
    · exact h ▸ hx
    · exact h ▸ xor_one _ hx
termination_by a.toNat
decreasing_by exact toNat_shiftRight_one_lt ha

/-! The maps that respect XOR and doubling. -/

/-- Linear over the polynomials in `x`: the sum is XOR (R191), the product with `x` is `xtime` (R192). -/
structure RespectsXorDouble (f : Byte → Byte) : Prop where
  xor : ∀ a b, f (a ^^^ b) = f a ^^^ f b
  double : ∀ a, f (xtime a) = xtime (f a)

namespace RespectsXorDouble

variable {f g : Byte → Byte}

theorem zero (hf : RespectsXorDouble f) : f 0x00#8 = 0x00#8 := by
  simpa using hf.xor 0x00#8 0x00#8

/-- Two such maps with one value at 0x01 are equal. -/
theorem eq_of_one (hf : RespectsXorDouble f) (hg : RespectsXorDouble g) (h : f 0x01#8 = g 0x01#8) (a : Byte) :
    f a = g a := by
  induction a using horner_induction with
  | zero => rw [hf.zero, hg.zero]
  | double a ih => rw [hf.double, hg.double, ih]
  | xor_one a ih => rw [hf.xor, hg.xor, ih, h]

theorem identity : RespectsXorDouble fun a => a := ⟨fun _ _ => rfl, fun _ => rfl⟩

theorem const_zero : RespectsXorDouble fun _ => 0x00#8 := ⟨by decide, by decide⟩

theorem comp (hf : RespectsXorDouble f) (hg : RespectsXorDouble g) : RespectsXorDouble fun a => f (g a) :=
  ⟨fun a b => by rw [hg.xor, hf.xor], fun a => by rw [hg.double, hf.double]⟩

theorem add (hf : RespectsXorDouble f) (hg : RespectsXorDouble g) : RespectsXorDouble fun a => f a ^^^ g a :=
  ⟨fun a b => by rw [hf.xor, hg.xor]; ac_rfl, fun a => by rw [hf.double, hg.double, xtime_xor]⟩

end RespectsXorDouble

theorem xtime_respectsXorDouble : RespectsXorDouble xtime := ⟨xtime_xor, fun _ => rfl⟩

/-! The product in its second factor. -/

theorem cmulFrom_xor (c : Byte) (n k : Nat) (acc acc' p p' : Byte) :
    cmulFrom c n k (acc ^^^ acc') (p ^^^ p') = cmulFrom c n k acc p ^^^ cmulFrom c n k acc' p' := by
  induction n generalizing k acc acc' p p' with
  | zero => rfl
  | succ n ih =>
    simp only [cmulFrom]
    rw [xtime_xor, ← ih]
    split
    · congr 1; ac_rfl
    · rfl

theorem cmulFrom_xtime (c : Byte) (n k : Nat) (acc p : Byte) :
    cmulFrom c n k (xtime acc) (xtime p) = xtime (cmulFrom c n k acc p) := by
  induction n generalizing k acc p with
  | zero => rfl
  | succ n ih => rw [cmulFrom, cmulFrom, ← ih, apply_ite xtime, xtime_xor]

theorem cmul_respectsXorDouble (c : Byte) : RespectsXorDouble (cmul c) where
  xor a b := cmulFrom_xor c 8 0 0x00#8 0x00#8 a b
  double a := cmulFrom_xtime c 8 0 0x00#8 a

/-! The product in its first factor. -/

theorem one_cmul (a : Byte) : cmul 0x01#8 a = a :=
  (cmul_respectsXorDouble _).eq_of_one .identity (cmul_one _) a

theorem zero_cmul (a : Byte) : cmul 0x00#8 a = 0x00#8 :=
  (cmul_respectsXorDouble _).eq_of_one .const_zero (cmul_one _) a

theorem xor_cmul (a b c : Byte) : cmul (a ^^^ b) c = cmul a c ^^^ cmul b c :=
  (cmul_respectsXorDouble _).eq_of_one ((cmul_respectsXorDouble a).add (cmul_respectsXorDouble b))
    (by simp only [cmul_one]) c

theorem xtime_cmul (a b : Byte) : cmul (xtime a) b = xtime (cmul a b) :=
  (cmul_respectsXorDouble _).eq_of_one (xtime_respectsXorDouble.comp (cmul_respectsXorDouble a))
    (by simp only [cmul_one]) b

theorem cmul_right_respectsXorDouble (b : Byte) : RespectsXorDouble fun a => cmul a b :=
  ⟨fun a a' => xor_cmul a a' b, fun a => xtime_cmul a b⟩

theorem cmul_comm (a b : Byte) : cmul a b = cmul b a :=
  (cmul_right_respectsXorDouble b).eq_of_one (cmul_respectsXorDouble b) ((one_cmul b).trans (cmul_one b).symm) a

theorem cmul_assoc (a b c : Byte) : cmul (cmul a b) c = cmul a (cmul b c) :=
  (cmul_respectsXorDouble _).eq_of_one ((cmul_respectsXorDouble a).comp (cmul_respectsXorDouble b))
    (by simp only [cmul_one]) c

/-! The inverse. -/

/-- The power 254 is an inverse (R197). -/
theorem cmul_fieldInverse : ∀ a : Byte, a ≠ 0x00#8 → cmul a (fieldInverse a) = 0x01#8 := by decide +kernel

theorem eq_of_cmul_eq_one {a y z : Byte} (hy : cmul a y = 0x01#8) (hz : cmul a z = 0x01#8) : z = y :=
  calc z = cmul z (cmul a y) := by rw [hy, cmul_one]
    _ = cmul (cmul a z) y := by rw [← cmul_assoc, cmul_comm z a]
    _ = y := by rw [hz, one_cmul]

/-! The S-box. -/

theorem sbox_injective : Function.Injective (tabRead .sbox) := Function.LeftInverse.injective isbox_sbox

theorem sbox_ne_self_and_ne_not : ∀ a : Byte, tabRead .sbox a ≠ a ∧ tabRead .sbox a ≠ ~~~a := by decide +kernel

end Sys2Proof.Machine

open Sys2Proof Sys2Proof.Machine

/-- Settles O17: the product respects XOR and doubling in each factor, and a map that does is fixed by its value at
0x01; an inverse is the power 254. -/
theorem fieldProductLaws : Obligations.FieldProductLaws := by
  unfold Obligations.FieldProductLaws
  exact ⟨cmul_comm, cmul_assoc, fun a => (cmul_respectsXorDouble a).xor, fun a => ⟨one_cmul a, zero_cmul a⟩,
    fun a ha => ⟨fieldInverse a, cmul_fieldInverse a ha, fun _ => eq_of_cmul_eq_one (cmul_fieldInverse a ha)⟩⟩

/-- Settles O18: the listing is the rule, `ISBOX` undoes it, and the entries that R198 gives as examples are read off. -/
theorem sboxIsAffineOfInverse : Obligations.SboxIsAffineOfInverse := by
  unfold Obligations.SboxIsAffineOfInverse
  exact ⟨sbox_eq_affine_inverse, by decide, cmul_fieldInverse, fun _ _ h => sbox_injective h,
    sbox_ne_self_and_ne_not, by decide⟩

end
